-- ==== Sys2Proof/Word.lean ====
section
/-! DEFINITION. The word types of the block (00_scope.md R6, R7): bytes, the W-bit `uint` and operation words. -/

namespace Sys2Proof

/-- A `u8` (R7): every datum the block moves is one byte (R56). -/
abbrev Byte := BitVec 8

/-- A `uint` of `W = 32` bits (R6, D22): ring indices and sizes. PRESUMED (log 19). -/
abbrev Word := BitVec 32

/-- A 16-bit operation word (R88). -/
abbrev OpWord := BitVec 16

end Sys2Proof
end

