-- ==== Sys2Proof/Syntax.lean ====
section
/-! DEFINITION. The operations of the block as syntax: one constructor per row of the opcode map (30_encoding.md R91),
the operands outside the word (R90), and the entries of a host program (10_state.md R34, 30_encoding.md R95). -/

namespace Sys2Proof

/-- The kind of a frame: the operand `k` of FR_ENCODE (R88), 0 for Command and 1 for Data. -/
inductive Kind where
  | command
  | data
deriving DecidableEq, Repr, Inhabited

/-- A caller-supplied backing array of `len` cells (R90, R111), each a byte or never written. The cells that hold a
byte are listed by index; a cell that is not listed was never written (log 11). -/
structure Backing where
  len   : Nat
  cells : List Host.Cell
deriving DecidableEq, Repr, Inhabited

/-- The operand `buffer` of RB_CONFIGURE (R90, R111; log 11). -/
inductive Buffer where
  /-- An array given by its length and contents. -/
  | given (b : Backing)
  /-- The array the ring holds now, with its current contents: STORAGE0 before the first RB_CONFIGURE (R32). -/
  | inUse
deriving DecidableEq, Repr, Inhabited

/-- The agent class of an operation: `w[15:12]` (R89). -/
inductive OpClass where
  | queue
  | control
  | eventArm
  | errorArm
  | dmaDoneArm
  | engine
  | bus
deriving DecidableEq, Repr

/-- The operations, in the order of the opcode map (R91). Operands outside the word (R90) are arguments here. -/
inductive Instr where
  | rbConfigure (buf : Buffer) (req : Word)
  | rbEnq (b : Byte)
  | rbDeq
  | rbEnqm (bytes : List Byte)
  | rbAvail
  | rbFilled
  | rbPeek
  | rbPeekn (n : Byte)
  | rbIsfull
  | rbIsempty
  | frEncode (k : Kind) (payload : List Byte) (len : Nat)
  | frAligned
  | frSize
  | frDecode (cap : Word)
  | btReset
  | btKick
  | btWait
  | btSettle
  | btStop
  | evSb
  | evAddr
  | evTxe
  | evBtf
  | erAf
  | diTc
  | dmaXfer
  | busStart
  | busLoad
  | busShift (a : Bool)
  | busStop
deriving DecidableEq, Repr

/-- The operands outside the word that stand beside it in a host program (R90). An operation reads the ones it has
and no other. The defaults are the operands "all zero" (log 10). -/
structure Args where
  buf   : Buffer := .inUse
  req   : Word := 0
  bytes : List Byte := []
  len   : Nat := 0
  cap   : Word := 0
deriving DecidableEq, Repr

/-- An entry of the host program (R141): an operation word with its operands, or a pseudo-operation (R147 to R149). -/
inductive HostEntry where
  | op (w : OpWord) (args : Args)
  | writeFrame (k : Kind) (bytes : List Byte) (len : Nat)
  | writeCmd (bytes : List Byte)
  | writeData (bytes : List Byte)
  | init (buf : Buffer) (req : Word)
deriving DecidableEq, Repr

end Sys2Proof
end

