-- ==== Sys2Proof/Config.lean ====
section
/-! DEFINITION. The launch arguments (00_scope.md R6) and the free values. A parameter the spec leaves OPEN is an
opaque constant here: nothing in Lean can prove a value of it. A run holds its arguments in `State.launch` (log 1), so
a statement about every state is a statement for every setting. -/

namespace Sys2Proof

/-- The ring-buffer tag values, `TAG_ENC` (R84): Data is 0x40 under `wireTags` and 0x01 under `smallTags`. -/
inductive TagEnc where
  | wireTags
  | smallTags
deriving DecidableEq, Repr, Inhabited

/-- The decode alignment gate, `ALIGN_CHECK` (R122). -/
inductive AlignCheck where
  | strict
  | neverGates
deriving DecidableEq, Repr, Inhabited

/-- Whether a zero-count DMA arm completes, `ZERO_LEN_TC` (R181). -/
inductive ZeroLenTc where
  | never
  | immediate
deriving DecidableEq, Repr, Inhabited

/-- The arguments of a run (R6). No rule of a step reads `settleUs`, `initTable`, `prio`, `busInstance` or
`dmaChannel`. -/
structure Launch where
  slaveAddr   : Nat
  tagEnc      : TagEnc
  alignCheck  : AlignCheck
  settleOk    : Bool
  settleUs    : Nat
  zeroLenTc   : ZeroLenTc
  initTable   : List Byte
  prio        : List Nat
  storage0    : Backing
  acks        : List Bool
  busLive     : Bool
  busInstance : Nat
  dmaChannel  : Nat
deriving DecidableEq, Repr

/-- `WRITE_BIT = 0` (R6, R81). PRESUMED (log 19). -/
def Config.writeBit : Nat := 0

/-- `SCRATCH`, the length of the interrupt-side decode buffer (R6, R29). -/
def Config.scratchLen : Nat := 256

/-- `STORAGE0` at `State.reset`: sixteen cells, none written. DESIGN CHOICE (log 3). -/
def Config.storage0 : Backing := { len := 16, cells := [] }

/-- `SLAVE_ADDR` (R81), OPEN: a 7-bit address (log 2). -/
opaque Config.slaveAddr : BitVec 7
/-- `TAG_ENC` (R84), OPEN (log 2). -/
opaque Config.tagEnc : TagEnc
/-- `ALIGN_CHECK` (R122), OPEN (log 2). -/
opaque Config.alignCheck : AlignCheck
/-- `SETTLE_OK` (R145), OPEN (log 2). -/
opaque Config.settleOk : Bool
/-- `SETTLE_US` (R6), OPEN (log 2). -/
opaque Config.settleUs : Nat
/-- `ZERO_LEN_TC` (R181), OPEN (log 2). -/
opaque Config.zeroLenTc : ZeroLenTc
/-- `INIT_TABLE` (R149), OPEN (log 2). -/
opaque Config.initTable : List Byte
/-- `PRIO` (R214), OPEN (log 2). -/
opaque Config.prio : List Nat
/-- `BUS_LIVE` (R195), a launch premise (log 2). -/
opaque Config.busLive : Bool
/-- `BUS_INSTANCE` (R61), OPEN (log 2). -/
opaque Config.busInstance : Nat
/-- `DMA_CHANNEL` (R61), OPEN (log 2). -/
opaque Config.dmaChannel : Nat

/-- The free choice among the enabled steps (R227), drawn by the counter in State (log 5). -/
opaque Config.freePick : Nat → Nat

/-- The launch arguments of `State.reset` (logs 2, 3 and 14). -/
def Config.launch : Launch where
  slaveAddr   := Config.slaveAddr.toNat
  tagEnc      := Config.tagEnc
  alignCheck  := Config.alignCheck
  settleOk    := Config.settleOk
  settleUs    := Config.settleUs
  zeroLenTc   := Config.zeroLenTc
  initTable   := Config.initTable
  prio        := Config.prio
  storage0    := Config.storage0
  acks        := []
  busLive     := Config.busLive
  busInstance := Config.busInstance
  dmaChannel  := Config.dmaChannel

end Sys2Proof
end

