-- ==== Sys2Proof/Machine/State.lean ====
section
/-! DEFINITION. The machine state (10_state.md R20 to R35), grouped as 70_reset_and_hazards.md R240 groups it, the
fault and refusal names (60_exceptions.md R211, R212), and the state after reset (R240). -/

namespace Sys2Proof.Machine

/-- Memory as the cells that hold a byte, by index, in strictly rising order. A cell that is not listed was never
written, and reading it is UnwrittenRead (R51, R53). -/
abbrev Memory := List Host.Cell

/-- The transport states (R21), in the source's order. -/
inductive TState where
  | idle
  | addressSent
  | typeByteSent
  | streaming
  | done
  | error
deriving DecidableEq, Repr

/-- The bus phases (R26). -/
inductive Phase where
  | bIdle
  | bAddr
  | bAddrAck
  | bData
  | bHalted
deriving DecidableEq, Repr

/-- The error codes (R210). -/
inductive ErrCode where
  | none
  | bufferFull
  | bufferEmpty
  | frameMisaligned
  | capacityTooSmall
  | notEnoughSpace
  | failedAtIndex (i : Nat)
  | busNack
deriving DecidableEq, Repr

/-- The events of the wire log (R33). -/
inductive WireEvent where
  | start
  | byte (b : Byte) (ack : Bool)
  | stop
deriving DecidableEq, Repr

/-- The results an operation returns (R34, 40_queue.md). -/
inductive Value where
  /-- A boolean: RB_ENQ, RB_ISFULL, RB_ISEMPTY, FR_ENCODE, FR_ALIGNED. -/
  | bool (b : Bool)
  /-- A `uint`: RB_AVAIL, RB_FILLED. -/
  | uint (v : Word)
  /-- A `u8`: RB_PEEK, RB_PEEKN, FR_SIZE. -/
  | byte (v : Byte)
  /-- `none` or `some v`: RB_DEQ. -/
  | option (v : Option Byte)
  /-- `Ok`: RB_ENQM. -/
  | ok
  /-- `Ok(L)`: FR_DECODE. -/
  | okLen (len : Byte)
  /-- `Err(e)`: RB_ENQM, FR_DECODE. -/
  | err (e : ErrCode)
deriving DecidableEq, Repr

/-- The model faults (R211). Each stops the machine, safe: nothing is claimed of what the hardware does there. -/
inductive Fault where
  /-- BT_KICK (R142) outside Idle and Done, with a START requested, or with SB set. Safe. -/
  | kickNotIdle
  /-- BT_KICK (R142) with the bus busy and no STOP requested. Safe. -/
  | kickBeforeStop
  /-- BT_STOP (R146) before completion. Safe. -/
  | stopBeforeComplete
  /-- BT_STOP (R146) with the last byte still in `dr` or `sh`. Safe. -/
  | stopBeforeLatched
  /-- Any queue operation but RB_CONFIGURE before RB_CONFIGURE (R110), EV_SB's decode among them. Safe. -/
  | notConfigured
  /-- RB_CONFIGURE (R111) with a backing array shorter than the rounded size. Safe. -/
  | backingTooSmall
  /-- RB_CONFIGURE (R111) with a request above 2^31. Safe. -/
  | sizeOverflow
  /-- RB_DEQ or FR_DECODE in foreground context (R110). Safe. -/
  | foregroundConsumer
  /-- EV_TXE (R162) on a tag with no wire indicator (R84). Safe. -/
  | badIndicator
  /-- A write of a full data register (R55). Safe. -/
  | drOverwrite
  /-- A read of a ring or scratch cell that was never written (R51, R53). Safe. -/
  | unwrittenRead
deriving DecidableEq, Repr

/-- The refusals (R212). Each stops the machine before the operation, safe: "It is not a behaviour of the hardware". -/
inductive Refusal where
  /-- An operation the model gives no meaning; no arm of `exec` raises it. Safe. -/
  | notModelled (mnemonic : String)
  /-- The decoder (R92, R141): the word matches no row. Safe. -/
  | reservedEncoding
  /-- A word of class 0x3 to 0x7 in the host program (R89, R141). Safe. -/
  | notHostOp
  /-- FR_ENCODE (R90) with a length of 256 or more. Safe. -/
  | lengthTooLarge
  /-- FR_ENCODE (R90) with a payload shorter than its length. Safe. -/
  | shortPayload
  /-- Launch (R81) with `SLAVE_ADDR` of 128 or more. Safe. -/
  | badSlaveAddr
deriving DecidableEq, Repr

/-- The execution contexts (R220). -/
inductive Context where
  | foreground
  | interrupt
deriving DecidableEq, Repr

/-- One choice of the scheduler (R227; log 5). -/
inductive Pick where
  /-- The HOST takes its next step. -/
  | host
  /-- EV, ER, DI, DMA or BUS takes the step this label names (R89). -/
  | label (w : OpWord)
  /-- The bus stops taking steps; only with `BUS_LIVE = false` (R195; log 15). -/
  | wedge
deriving DecidableEq, Repr

/-- Transport group (R21, R22, R23, R31). -/
structure Transport where
  st          : TState
  addrCleared : Bool
  complete    : Bool
  lastErr     : ErrCode
deriving DecidableEq, Repr

/-- Peripheral group: flags, control bits and data path (R24 to R27). TXE is derived (Flags.lean). -/
structure Peripheral where
  sb       : Bool
  addr     : Bool
  btf      : Bool
  af       : Bool
  startReq : Bool
  stopReq  : Bool
  dmaReqEn : Bool
  phase    : Phase
  dr       : Option Byte
  sh       : Option Byte
deriving DecidableEq, Repr

/-- Channel group (R28): `ch_en`, `ch_tcie`, `ch_tc`, `ch_mar`, `ch_cnt`. -/
structure Channel where
  en   : Bool
  tcie : Bool
  tc   : Bool
  mar  : Nat
  cnt  : Nat
deriving DecidableEq, Repr

/-- In-flight frame group (R29, R30). -/
structure InFlight where
  valid   : Bool
  curTag  : Byte
  curLen  : Byte
  scratch : Memory
deriving DecidableEq, Repr

/-- Ring group (R32). `len` is `N`, the number of cells of the backing array. -/
structure Ring where
  cfg     : Bool
  storage : Memory
  len     : Nat
  size    : Word
  head    : Word
  tail    : Word
deriving DecidableEq, Repr

/-- The micro-state of a host entry in progress (R34; log 12): which operation of the entry's expansion, and the next
sub-step of that operation. -/
structure Micro where
  op  : Nat
  sub : Nat
deriving DecidableEq, Repr

/-- Host group (R34): `hprog`, `hpc`, `hmicro`, `hlog`. -/
structure HostAgent where
  prog  : List HostEntry
  pc    : Nat
  micro : Option Micro
  log   : List Value
deriving DecidableEq, Repr

/-- The model's own record of the device and the bus: how many bytes have been shifted (R194), and whether the bus is
wedged (R195). -/
structure Device where
  shifts : Nat
  wedged : Bool
deriving DecidableEq, Repr

/-- The model's own record of the scheduler (R227; log 5): the choices still to be taken, and how many were drawn
freely. -/
structure Scheduler where
  picks : List Pick
  drawn : Nat
deriving DecidableEq, Repr

/-- The model's own record of the CPU context (R220; log 8): the context, and the value handed back to the calling
arm. -/
structure Cpu where
  ctx    : Context
  armRet : Option Value
deriving DecidableEq, Repr

/-- The machine state `s` (10_state.md). -/
structure State where
  tr      : Transport
  per     : Peripheral
  ch      : Channel
  fr      : InFlight
  ring    : Ring
  host    : HostAgent
  wire    : List WireEvent
  fault   : Option Fault
  refused : Option Refusal
  launch  : Launch
  dev     : Device
  sch     : Scheduler
  cpu     : Cpu
deriving DecidableEq, Repr

/-- Reset values of the transport group (R240). -/
def Transport.reset : Transport where
  st          := .idle
  addrCleared := false
  complete    := false
  lastErr     := .none

/-- Reset values of the peripheral group (R240). -/
def Peripheral.reset : Peripheral where
  sb       := false
  addr     := false
  btf      := false
  af       := false
  startReq := false
  stopReq  := false
  dmaReqEn := false
  phase    := .bIdle
  dr       := none
  sh       := none

/-- Reset values of the channel group (R240). -/
def Channel.reset : Channel where
  en   := false
  tcie := false
  tc   := false
  mar  := 0
  cnt  := 0

/-- Reset values of the in-flight frame group (R240): the scratch buffer is all unwritten. -/
def InFlight.reset : InFlight where
  valid   := false
  curTag  := 0x00
  curLen  := 0
  scratch := []

/-- Power-on values of the ring group (R240): the storage is STORAGE0. `size`, `head` and `tail` are unspecified there
and 0 here, DESIGN CHOICE (log 4). -/
def Ring.powerOn (storage0 : Backing) : Ring where
  cfg     := false
  storage := storage0.cells
  len     := storage0.len
  size    := 0
  head    := 0
  tail    := 0

/-- Power-on values of the host group (R240), with no program loaded (log 9). -/
def HostAgent.powerOn : HostAgent where
  prog  := []
  pc    := 0
  micro := none
  log   := []

/-- The power-on state of a run with the given launch arguments (R240, R241, R242). -/
def State.powerOn (l : Launch) : State where
  tr      := .reset
  per     := .reset
  ch      := .reset
  fr      := .reset
  ring    := .powerOn l.storage0
  host    := .powerOn
  wire    := []
  fault   := none
  refused := none
  launch  := l
  dev     := { shifts := 0, wedged := false }
  sch     := { picks := [], drawn := 0 }
  cpu     := { ctx := .foreground, armRet := none }

/-- The machine right after reset (R240), its launch arguments free where the spec leaves them OPEN (log 2). -/
def State.reset : State := .powerOn Config.launch

end Sys2Proof.Machine
end

