-- ==== Sys2Proof/Machine/Flags.lean ====
section
/-! DEFINITION. Every flag computation of the peripheral and of the channel (10_state.md R24, R28), and when each
interrupt vector is pending (60_exceptions.md R213). -/

namespace Sys2Proof.Machine

/-- The byte of a transport state (R21). -/
def stateCode : TState → Byte
  | .idle => 0
  | .addressSent => 1
  | .typeByteSent => 2
  | .streaming => 3
  | .done => 4
  | .error => 5

/-- The number of an error code (R210). -/
def errNumber : ErrCode → Nat
  | .none => 0
  | .bufferFull => 1
  | .bufferEmpty => 2
  | .frameMisaligned => 3
  | .capacityTooSmall => 4
  | .notEnoughSpace => 5
  | .failedAtIndex _ => 6
  | .busNack => 7

/-- `TXE(s) = (s.phase = BData ∧ s.dr = none)` (R24). -/
def txe (p : Peripheral) : Bool := p.phase == .bData && p.dr.isNone

/-- What a data register write does to the flags (R55): it clears BTF, and SB in the address phase. -/
def flagsOfDrWrite (p : Peripheral) : Peripheral :=
  { p with btf := false, sb := if p.phase = .bAddr then false else p.sb }

/-- The flags and the phase after a byte was shifted and acknowledged (R192). A phase without a row keeps them
(log 17). -/
def flagsOfAck (p : Peripheral) : Peripheral :=
  match p.phase with
  | .bAddr => { p with addr := true, phase := .bAddrAck }
  | .bData => { p with btf := p.btf || p.dr.isNone }
  | .bIdle => p
  | .bAddrAck => p
  | .bHalted => p

/-- The flags and the phase after a byte was shifted and not acknowledged (R192; log 17). -/
def flagsOfNack (p : Peripheral) : Peripheral :=
  match p.phase with
  | .bAddr => { p with af := true, phase := .bHalted }
  | .bData => { p with af := true, phase := .bHalted }
  | .bIdle => p
  | .bAddrAck => p
  | .bHalted => p

/-- What a STOP on the bus does to the flags (R193): SB, ADDR and BTF fall, AF stays. -/
def flagsOfStop (p : Peripheral) : Peripheral :=
  { p with sb := false, addr := false, btf := false }

/-- The transfer-complete flag after a transfer that leaves `cnt` bytes (R180). -/
def tcAfter (cnt : Nat) (tc : Bool) : Bool := tc || decide (cnt = 0)

/-- The transfer-complete flag after arming (R163): set only for an immediate zero-length completion. -/
def tcAtArming (z : ZeroLenTc) (len : Byte) : Bool := decide (len = 0) && decide (z = .immediate)

/-- Guard of EV_SB (R160). -/
def evSbGuard (s : State) : Bool :=
  (s.tr.st == .idle || s.tr.st == .done) && s.per.sb

/-- Guard of EV_ADDR (R161). -/
def evAddrGuard (s : State) : Bool :=
  s.tr.st == .addressSent && !s.tr.addrCleared && s.per.addr

/-- Guard of EV_TXE (R162). -/
def evTxeGuard (s : State) : Bool :=
  s.tr.st == .addressSent && s.tr.addrCleared && txe s.per

/-- Guard of EV_BTF (R163). -/
def evBtfGuard (s : State) : Bool :=
  s.tr.st == .typeByteSent && s.per.btf

/-- Guard of ER_AF (R164). -/
def erAfGuard (s : State) : Bool := s.per.af

/-- Guard of DI_TC (R165). -/
def diTcGuard (s : State) : Bool := s.ch.tc && s.ch.tcie

/-- Guard of DMA_XFER (R180). -/
def dmaXferGuard (s : State) : Bool :=
  s.ch.en && s.per.dmaReqEn && txe s.per && decide (0 < s.ch.cnt)

/-- Guard of BUS_START (R190). -/
def busStartGuard (s : State) : Bool :=
  s.per.startReq && !s.per.stopReq && s.per.phase == .bIdle

/-- Guard of BUS_LOAD (R191). -/
def busLoadGuard (s : State) : Bool :=
  s.per.sh.isNone && s.per.dr.isSome && (s.per.phase == .bAddr || s.per.phase == .bData)

/-- Guard of BUS_SHIFT (R192). -/
def busShiftGuard (s : State) : Bool := s.per.sh.isSome

/-- Guard of BUS_STOP (R193). -/
def busStopGuard (s : State) : Bool := s.per.stopReq && s.per.sh.isNone

/-- The bus-event vector is pending (R213). -/
def evPending (s : State) : Bool :=
  evSbGuard s || evAddrGuard s || evTxeGuard s || evBtfGuard s

/-- The bus-error vector is pending (R213). -/
def erPending (s : State) : Bool := erAfGuard s

/-- The DMA-completion vector is pending (R213). -/
def diPending (s : State) : Bool := diTcGuard s

end Sys2Proof.Machine
end

