-- ==== Sys2Proof/Decode.lean ====
section
/-! DEFINITION. Decoding operation words (30_encoding.md R88 to R93), total on all words and rejecting by name, and the
encoder written from the same table. -/

namespace Sys2Proof

/-- Why a word is rejected (R92). -/
inductive DecodeError where
  /-- The word matches no row of R91. -/
  | reservedEncoding
deriving DecidableEq, Repr

/-- `imm8 = w[7:0]` (R88). -/
def imm8 (w : OpWord) : Byte := w.extractLsb' 0 8

/-- `imm8[0]` (R88), the field of formats K and A. -/
def immBit (w : OpWord) : Bool := w.getLsbD 0

/-- Format K: 0 is Command and 1 is Data (R88). -/
def kindOfBit : Bool → Kind
  | false => .command
  | true => .data

/-- The bit of a kind (R88). -/
def bitOfKind : Kind → Bool
  | .command => false
  | .data => true

/-- One row of the opcode map (R91): a word `w` is of this row when `w & mask = pattern`. -/
structure OpRow where
  pattern : OpWord
  mask    : OpWord
  build   : OpWord → Args → Instr

/-- Rows of class 0x1, queue operations (R91). -/
def queueRows : List OpRow :=
  [⟨0x1000, 0xFFFF, fun _ a => .rbConfigure a.buf a.req⟩,
   ⟨0x1100, 0xFF00, fun w _ => .rbEnq (imm8 w)⟩,
   ⟨0x1200, 0xFFFF, fun _ _ => .rbDeq⟩,
   ⟨0x1300, 0xFFFF, fun _ a => .rbEnqm a.bytes⟩,
   ⟨0x1400, 0xFFFF, fun _ _ => .rbAvail⟩,
   ⟨0x1500, 0xFFFF, fun _ _ => .rbFilled⟩,
   ⟨0x1600, 0xFFFF, fun _ _ => .rbPeek⟩,
   ⟨0x1700, 0xFF00, fun w _ => .rbPeekn (imm8 w)⟩,
   ⟨0x1800, 0xFFFF, fun _ _ => .rbIsfull⟩,
   ⟨0x1900, 0xFFFF, fun _ _ => .rbIsempty⟩,
   ⟨0x1A00, 0xFFFE, fun w a => .frEncode (kindOfBit (immBit w)) a.bytes a.len⟩,
   ⟨0x1B00, 0xFFFF, fun _ _ => .frAligned⟩,
   ⟨0x1C00, 0xFFFF, fun _ _ => .frSize⟩,
   ⟨0x1D00, 0xFFFF, fun _ a => .frDecode a.cap⟩]

/-- Rows of class 0x2, transport control (R91). -/
def controlRows : List OpRow :=
  [⟨0x2000, 0xFFFF, fun _ _ => .btReset⟩,
   ⟨0x2100, 0xFFFF, fun _ _ => .btKick⟩,
   ⟨0x2200, 0xFFFF, fun _ _ => .btWait⟩,
   ⟨0x2300, 0xFFFF, fun _ _ => .btSettle⟩,
   ⟨0x2400, 0xFFFF, fun _ _ => .btStop⟩]

/-- Rows of classes 0x3 to 0x7, the step labels (R91). -/
def labelRows : List OpRow :=
  [⟨0x3000, 0xFFFF, fun _ _ => .evSb⟩,
   ⟨0x3100, 0xFFFF, fun _ _ => .evAddr⟩,
   ⟨0x3200, 0xFFFF, fun _ _ => .evTxe⟩,
   ⟨0x3300, 0xFFFF, fun _ _ => .evBtf⟩,
   ⟨0x4000, 0xFFFF, fun _ _ => .erAf⟩,
   ⟨0x5000, 0xFFFF, fun _ _ => .diTc⟩,
   ⟨0x6000, 0xFFFF, fun _ _ => .dmaXfer⟩,
   ⟨0x7000, 0xFFFF, fun _ _ => .busStart⟩,
   ⟨0x7100, 0xFFFF, fun _ _ => .busLoad⟩,
   ⟨0x7200, 0xFFFE, fun w _ => .busShift (immBit w)⟩,
   ⟨0x7300, 0xFFFF, fun _ _ => .busStop⟩]

/-- The opcode map (R91). -/
def opRows : List OpRow := queueRows ++ controlRows ++ labelRows

/-- A word is of a row (R93): `(w & mask) = match`. -/
def rowMatches (w : OpWord) (r : OpRow) : Bool := (w &&& r.mask) == r.pattern

/-- Decoding (R93): the row the word matches, with the operands that stand beside it; no row is ReservedEncoding. -/
def decode (w : OpWord) (a : Args) : Except DecodeError Instr :=
  match opRows.find? (rowMatches w) with
  | some r => .ok (r.build w a)
  | none => .error .reservedEncoding

/-- The word of an operation (R91). -/
def encodeWord : Instr → OpWord
  | .rbConfigure _ _ => 0x1000
  | .rbEnq b => 0x1100 ||| b.setWidth 16
  | .rbDeq => 0x1200
  | .rbEnqm _ => 0x1300
  | .rbAvail => 0x1400
  | .rbFilled => 0x1500
  | .rbPeek => 0x1600
  | .rbPeekn n => 0x1700 ||| n.setWidth 16
  | .rbIsfull => 0x1800
  | .rbIsempty => 0x1900
  | .frEncode k _ _ => 0x1A00 ||| (BitVec.ofBool (bitOfKind k)).setWidth 16
  | .frAligned => 0x1B00
  | .frSize => 0x1C00
  | .frDecode _ => 0x1D00
  | .btReset => 0x2000
  | .btKick => 0x2100
  | .btWait => 0x2200
  | .btSettle => 0x2300
  | .btStop => 0x2400
  | .evSb => 0x3000
  | .evAddr => 0x3100
  | .evTxe => 0x3200
  | .evBtf => 0x3300
  | .erAf => 0x4000
  | .diTc => 0x5000
  | .dmaXfer => 0x6000
  | .busStart => 0x7000
  | .busLoad => 0x7100
  | .busShift a => 0x7200 ||| (BitVec.ofBool a).setWidth 16
  | .busStop => 0x7300

/-- The operands outside the word of an operation (R90). -/
def encodeArgs : Instr → Args
  | .rbConfigure buf req => { buf := buf, req := req }
  | .rbEnq _ => {}
  | .rbDeq => {}
  | .rbEnqm bytes => { bytes := bytes }
  | .rbAvail => {}
  | .rbFilled => {}
  | .rbPeek => {}
  | .rbPeekn _ => {}
  | .rbIsfull => {}
  | .rbIsempty => {}
  | .frEncode _ payload len => { bytes := payload, len := len }
  | .frAligned => {}
  | .frSize => {}
  | .frDecode cap => { cap := cap }
  | .btReset => {}
  | .btKick => {}
  | .btWait => {}
  | .btSettle => {}
  | .btStop => {}
  | .evSb => {}
  | .evAddr => {}
  | .evTxe => {}
  | .evBtf => {}
  | .erAf => {}
  | .diTc => {}
  | .dmaXfer => {}
  | .busStart => {}
  | .busLoad => {}
  | .busShift _ => {}
  | .busStop => {}

/-- The encoding of an operation: its word and the operands beside it. -/
def encode (i : Instr) : OpWord × Args := (encodeWord i, encodeArgs i)

/-- The agent class of an operation (R89, R91). -/
def opClass : Instr → OpClass
  | .rbConfigure _ _ => .queue
  | .rbEnq _ => .queue
  | .rbDeq => .queue
  | .rbEnqm _ => .queue
  | .rbAvail => .queue
  | .rbFilled => .queue
  | .rbPeek => .queue
  | .rbPeekn _ => .queue
  | .rbIsfull => .queue
  | .rbIsempty => .queue
  | .frEncode _ _ _ => .queue
  | .frAligned => .queue
  | .frSize => .queue
  | .frDecode _ => .queue
  | .btReset => .control
  | .btKick => .control
  | .btWait => .control
  | .btSettle => .control
  | .btStop => .control
  | .evSb => .eventArm
  | .evAddr => .eventArm
  | .evTxe => .eventArm
  | .evBtf => .eventArm
  | .erAf => .errorArm
  | .diTc => .dmaDoneArm
  | .dmaXfer => .engine
  | .busStart => .bus
  | .busLoad => .bus
  | .busShift _ => .bus
  | .busStop => .bus

/-- The number of a class, `w[15:12]` (R89). -/
def classNibble : OpClass → BitVec 4
  | .queue => 1
  | .control => 2
  | .eventArm => 3
  | .errorArm => 4
  | .dmaDoneArm => 5
  | .engine => 6
  | .bus => 7

/-- `w[15:12]` (R88). -/
def wordClass (w : OpWord) : BitVec 4 := w.extractLsb' 12 4

/-- "A host program holds only class 0x1 and 0x2 words" (R89). -/
def isHostOp (i : Instr) : Bool :=
  match opClass i with
  | .queue => true
  | .control => true
  | .eventArm => false
  | .errorArm => false
  | .dmaDoneArm => false
  | .engine => false
  | .bus => false

/-- The operation the decoder reads from a table word `w` of `nbits` bits, its operands outside the word all zero
(log 10). An operation word has 16 bits; a `w` that does not fit them is no word. -/
def decodeTableWord (nbits w : Nat) : Option Instr :=
  if nbits ≤ 16 ∧ w < 65536 then
    match decode (BitVec.ofNat 16 w) {} with
    | .ok i => some i
    | .error _ => none
  else
    none

end Sys2Proof
end

