-- ==== Sys2Proof/Machine/Operands.lean ====
section
/-! DEFINITION. Operands: the bytes an operation sends (30_encoding.md R81, R84), the operands outside the word (R90),
and how the host's current operation is read from its program (41_host_control.md R141, R147 to R149). -/

namespace Sys2Proof.Machine

/-- Writing one cell of a memory: the cells stay in strictly rising order. -/
def memWrite : Memory → Nat → Byte → Memory
  | [], i, v => [(i, v)]
  | (j, x) :: rest, i, v =>
    if i < j then (i, v) :: (j, x) :: rest
    else if i = j then (j, v) :: rest
    else (j, x) :: memWrite rest i v

/-- Reading one cell of a memory; `none` is a cell never written. -/
def memRead : Memory → Nat → Option Byte
  | [], _ => none
  | (j, x) :: rest, i => if i = j then some x else memRead rest i

/-- The cells come in strictly rising order of index, none below `lo`. -/
def memRises (lo : Nat) : Memory → Bool
  | [] => true
  | (i, _) :: rest => decide (lo ≤ i) && memRises (i + 1) rest

/-- The canonical form of a memory: equal memories are equal data. -/
def Memory.wf (m : Memory) : Bool := memRises 0 m

/-- Every listed cell lies in `[0, n)`. -/
def memBelow (n : Nat) (m : Memory) : Bool := m.all (fun c => decide (c.1 < n))

/-- The contents of an array given as an operand (R111; log 11): its listed cells that lie inside it. -/
def backingCells (b : Backing) : Memory :=
  b.cells.foldl (fun m c => if c.1 < b.len then memWrite m c.1 c.2 else m) []

/-- The cells a buffer operand stands for (R111; log 11). -/
def bufferCells (r : Ring) : Buffer → Memory
  | .given b => backingCells b
  | .inUse => r.storage

/-- The length `N` of the array a buffer operand stands for (R111). -/
def bufferLen (r : Ring) : Buffer → Nat
  | .given b => b.len
  | .inUse => r.len

/-- The address byte `((SLAVE_ADDR << 1) | WRITE_BIT) & 0xFF` (R81, R160). -/
def addrByte (l : Launch) : Byte := BitVec.ofNat 8 ((l.slaveAddr <<< 1) ||| Config.writeBit)

/-- `tag(Command)` and `tag(Data)` (R84). -/
def tagOf (l : Launch) : Kind → Byte
  | .command => 0x00
  | .data =>
    match l.tagEnc with
    | .wireTags => 0x40
    | .smallTags => 0x01

/-- `wire_ind(t)` (R84): the wire indicator sent for a stored tag. -/
def wireInd (l : Launch) (t : Byte) : Except Fault Byte :=
  match l.tagEnc with
  | .wireTags => .ok t
  | .smallTags =>
    if t = 0x00 then .ok 0x00
    else if t = 0x01 then .ok 0x40
    else .error .badIndicator

/-- The refusal of FR_ENCODE's operands, if any (R90, in the order of R212). -/
def frameOperandRefusal (payload : List Byte) (len : Nat) : Option Refusal :=
  if 256 ≤ len then some .lengthTooLarge
  else if payload.length < len then some .shortPayload
  else none

/-- The operations a frame write runs (R147): encode, kick, wait, settle, stop. -/
def writeFrameOps (k : Kind) (bytes : List Byte) (len : Nat) : List (OpWord × Args) :=
  [encode (.frEncode k bytes len), encode .btKick, encode .btWait, encode .btSettle, encode .btStop]

/-- The operations an entry of the host program runs (R141, R147, R148, R149). -/
def expandEntry : HostEntry → List (OpWord × Args)
  | .op w a => [(w, a)]
  | .writeFrame k bytes len => writeFrameOps k bytes len
  | .writeCmd bytes => writeFrameOps .command bytes bytes.length
  | .writeData bytes => writeFrameOps .data bytes bytes.length
  | .init buf req => [encode .btReset, encode (.rbConfigure buf req)]

/-- The program that boots a display (R243): INIT, then `WRITE_CMD INIT_TABLE`. -/
def bootProgram (l : Launch) (buf : Buffer) (req : Word) : List HostEntry :=
  [.init buf req, .writeCmd l.initTable]

/-- Which operation of the current entry's expansion is in progress (log 12). -/
def hostOpIndex (h : HostAgent) : Nat :=
  match h.micro with
  | some m => m.op
  | none => 0

/-- The next sub-step of the operation in progress (R116, R121; log 12). -/
def hostSub (h : HostAgent) : Nat :=
  match h.micro with
  | some m => m.sub
  | none => 0

/-- The operations of the entry at `hpc`, none when the host has finished (R141). -/
def hostEntryOps (h : HostAgent) : List (OpWord × Args) :=
  match h.prog[h.pc]? with
  | some e => expandEntry e
  | none => []

/-- The word and the operands of the host's current operation (R141). -/
def hostFetch (h : HostAgent) : Option (OpWord × Args) := (hostEntryOps h)[hostOpIndex h]?

/-- The device's answer to the next BUS_SHIFT (R194): `ACKS[k]` for the k-th of the run, `none` when unconstrained. -/
def nextAnswer (s : State) : Option Bool := s.launch.acks[s.dev.shifts]?

end Sys2Proof.Machine
end

