-- ==== Sys2Proof/Machine/Ops.lean ====
section
/-! DEFINITION. The named operations the meanings share: ring, scratch and data register access (20_memory.md R51 to
R55), the queue's arithmetic (40_queue.md R111 to R125), frame decoding (R122), the host's advance (41_host_control.md
R141), and taking and leaving an interrupt handler (60_exceptions.md R217, R218). -/

namespace Sys2Proof.Machine

/-! ### Outcomes -/

/-- The outcome of an operation that may raise a fault; a fault is precise (R211). -/
def outcomeOf : Except Fault State → Host.Outcome State Fault Refusal
  | .ok t => .next t
  | .error f => .fault f

/-- `hold` (R8): the agent has no step, and the state stays as it is (log 6). -/
def hold (s : State) : Host.Outcome State Fault Refusal := .next s

/-! ### The ring -/

/-- `mask = s.size - 1` (R52). -/
def ringMask (r : Ring) : Word := r.size - 1

/-- `next(i) = (i + 1) & mask` (R52). -/
def ringNext (r : Ring) (i : Word) : Word := (i + 1) &&& ringMask r

/-- `RbRead(i)` (R51). -/
def ringRead (r : Ring) (i : Word) : Except Fault Byte :=
  match memRead r.storage i.toNat with
  | some v => .ok v
  | none => .error .unwrittenRead

/-- `RbWrite(i, v)` (R51). -/
def ringWrite (r : Ring) (i : Word) (v : Byte) : Ring :=
  { r with storage := memWrite r.storage i.toNat v }

/-- `is_full()` (R119). -/
def ringFull (r : Ring) : Bool := ringNext r r.head == r.tail

/-- The empty predicate (R120). -/
def ringEmpty (r : Ring) : Bool := r.head == r.tail

/-- `available_space()` (R114): `(tail - head - 1) & mask`. -/
def ringAvail (r : Ring) : Word := (r.tail - r.head - 1) &&& ringMask r

/-- `filled_space()` (R115): `(head - tail) & mask`. -/
def ringFilled (r : Ring) : Word := (r.head - r.tail) &&& ringMask r

/-- Storing at `head` and advancing it, the second line of `enq` (R112). -/
def ringPush (b : Byte) (r : Ring) : Ring :=
  { ringWrite r r.head b with head := ringNext r r.head }

/-- `enq(b)` (R112): false and no change when full. -/
def ringEnq (b : Byte) (r : Ring) : Bool × Ring :=
  if ringFull r then (false, r) else (true, ringPush b r)

/-- `deq()` (R113): `none` and no change when empty. -/
def ringDeq (r : Ring) : Except Fault (Option Byte × Ring) :=
  if ringEmpty r then .ok (none, r)
  else
    match ringRead r r.tail with
    | .error f => .error f
    | .ok v => .ok (some v, { r with tail := ringNext r r.tail })

/-- The smallest power of two that is at least `x`, tried from `2^k` upwards with `n` more doublings (R111). -/
def ceilPow2From : Nat → Nat → Nat → Nat
  | 0, k, _ => 2 ^ k
  | n + 1, k, x => if x ≤ 2 ^ k then 2 ^ k else ceilPow2From n (k + 1) x

/-- The size RB_CONFIGURE realises for a request (R111): the smallest power of two `p ≥ max(req, 1)`. -/
def realizedSize (req : Word) : Nat := ceilPow2From 31 0 (max req.toNat 1)

/-- The ring after RB_CONFIGURE with size `sz` (R111). -/
def ringConfigured (r : Ring) (buf : Buffer) (sz : Nat) : Ring where
  cfg     := true
  storage := bufferCells r buf
  len     := bufferLen r buf
  size    := BitVec.ofNat 32 sz
  head    := 0
  tail    := 0

/-! ### Scratch and data register -/

/-- `ScrRead(i)` (R53). -/
def scrRead (m : Memory) (i : Nat) : Except Fault Byte :=
  match memRead m i with
  | some v => .ok v
  | none => .error .unwrittenRead

/-- `ScrWrite(i, v)` (R53). -/
def scrWrite (m : Memory) (i : Nat) (v : Byte) : Memory := memWrite m i v

/-- `DrWrite(v)` (R55). -/
def drWrite (v : Byte) (p : Peripheral) : Except Fault Peripheral :=
  if p.dr.isSome then .error .drOverwrite
  else .ok (flagsOfDrWrite { p with dr := some v })

/-! ### Frames -/

/-- `aligned()` (R123): the byte at `tail` is a tag. -/
def ringAligned (l : Launch) (r : Ring) : Except Fault Bool :=
  match ringRead r r.tail with
  | .error f => .error f
  | .ok t => .ok (t == tagOf l .command || t == tagOf l .data)

/-- What `decode_frame` leaves: its result, the ring and the scratch buffer. -/
structure FrameDecode where
  res     : Except ErrCode Byte
  ring    : Ring
  scratch : Memory

/-- The payload loop of FR_DECODE (R122): `n` more bytes, the next one to `scratch[1 + i]`. Bytes taken before a
BufferEmpty stay taken. The answer says whether all came. -/
def takePayload : Nat → Nat → Ring → Memory → Except Fault (Bool × Ring × Memory)
  | 0, _, r, m => .ok (true, r, m)
  | n + 1, i, r, m =>
    match ringDeq r with
    | .error f => .error f
    | .ok (none, r') => .ok (false, r', m)
    | .ok (some v, r') => takePayload n (i + 1) r' (scrWrite m (1 + i) v)

/-- The alignment gate of FR_DECODE (R122): under `NeverGates` it gates nothing and reads nothing. -/
def decodeGate (l : Launch) (r : Ring) : Except Fault Bool :=
  match l.alignCheck with
  | .strict => ringAligned l r
  | .neverGates => .ok true

/-- The dequeues of FR_DECODE (R122), after its checks: the tag, the length, the payload. -/
def decodeBody (r : Ring) (m : Memory) : Except Fault FrameDecode :=
  match ringDeq r with
  | .error f => .error f
  | .ok (none, r1) => .ok ⟨.error .bufferEmpty, r1, m⟩
  | .ok (some t, r1) =>
    match ringDeq r1 with
    | .error f => .error f
    | .ok (none, r2) => .ok ⟨.error .bufferEmpty, r2, scrWrite m 0 t⟩
    | .ok (some len, r2) =>
      match takePayload len.toNat 0 r2 (scrWrite m 0 t) with
      | .error f => .error f
      | .ok (false, r3, m3) => .ok ⟨.error .bufferEmpty, r3, m3⟩
      | .ok (true, r3, m3) => .ok ⟨.ok len, r3, m3⟩

/-- `decode_frame` into the scratch buffer (R122), its checks in the order the rule lists them. -/
def decodeFrame (l : Launch) (cap : Word) (r : Ring) (m : Memory) : Except Fault FrameDecode :=
  match decodeGate l r with
  | .error f => .error f
  | .ok false => .ok ⟨.error .frameMisaligned, r, m⟩
  | .ok true =>
    match ringRead r (ringNext r r.tail) with
    | .error f => .error f
    | .ok announced =>
      if cap.toNat < announced.toNat + 1 then .ok ⟨.error .capacityTooSmall, r, m⟩
      else decodeBody r m

/-! ### The host's advance -/

/-- The host after its current entry (R141): `hpc` advances by one. -/
def hostNextEntry (h : HostAgent) : HostAgent := { h with pc := h.pc + 1, micro := none }

/-- The host after its current operation (R141; log 12): the next operation of a pseudo-operation's expansion, or the
next entry. -/
def hostFinish (h : HostAgent) : HostAgent :=
  if hostOpIndex h + 1 < (hostEntryOps h).length then
    { h with micro := some { op := hostOpIndex h + 1, sub := 0 } }
  else
    hostNextEntry h

/-- The host at the next sub-step of its current operation (R116, R121). -/
def hostNextSub (h : HostAgent) : HostAgent :=
  { h with micro := some { op := hostOpIndex h, sub := hostSub h + 1 } }

/-- `return v` by the host (R8, R34): `v` is appended to `hlog`. -/
def hostLog (v : Value) (h : HostAgent) : HostAgent := { h with log := h.log ++ [v] }

/-- The end of a host operation that returns nothing. -/
def finishOp (s : State) : Host.Outcome State Fault Refusal :=
  .next { s with host := hostFinish s.host }

/-- The end of a host operation that returns `v`. -/
def returnOp (v : Value) (s : State) : Host.Outcome State Fault Refusal :=
  .next { s with host := hostFinish (hostLog v s.host) }

/-- The end of an FR_ENCODE that returns false: a frame write runs no operation after it (R147). -/
def abandonOp (v : Value) (s : State) : Host.Outcome State Fault Refusal :=
  .next { s with host := hostNextEntry (hostLog v s.host) }

/-- The end of a sub-step that is not the last. -/
def subStep (s : State) : Host.Outcome State Fault Refusal :=
  .next { s with host := hostNextSub s.host }

/-- The first precondition of every queue operation (R110). -/
def ifConfigured (s : State) (k : Host.Outcome State Fault Refusal) : Host.Outcome State Fault Refusal :=
  if s.ring.cfg then k else .fault .notConfigured

/-- A read of the ring that the host returns (R117, R118, R123, R124). -/
def returnRead (r : Except Fault Value) (s : State) : Host.Outcome State Fault Refusal :=
  match r with
  | .ok v => returnOp v s
  | .error f => .fault f

/-! ### Taking an interrupt, and the return from it -/

/-- Entry to a handler (R217, R220): the interrupt context begins; nothing is saved, and `hpc` and `hmicro` stay. -/
def enterHandler (s : State) : State := { s with cpu := { s.cpu with ctx := .interrupt } }

/-- Return from a handler (R218, R220): the foreground goes on where it was. -/
def leaveHandler (s : State) : State := { s with cpu := { s.cpu with ctx := .foreground } }

/-- An interrupt arm (R215, R217, R218): entered when its guard holds, one atomic step, then left. -/
def takeArm (guard : Bool) (body : State → Except Fault State) (s : State) : Host.Outcome State Fault Refusal :=
  if guard then
    match body (enterHandler s) with
    | .ok t => .next (leaveHandler t)
    | .error f => .fault f
  else
    hold s

/-- A step of DMA or BUS (R227): taken when its guard holds. These are hardware agents, no CPU context (R220). -/
def takeStep (guard : Bool) (body : State → Except Fault State) (s : State) : Host.Outcome State Fault Refusal :=
  if guard then outcomeOf (body s) else hold s

/-! ### Launch and stop marks -/

/-- The launch of a run (R81, R212): a `SLAVE_ADDR` that is not a 7-bit address is refused. -/
def launchState (l : Launch) : State :=
  if l.slaveAddr < 128 then .powerOn l
  else { State.powerOn l with refused := some .badSlaveAddr }

/-- The state a step leaves (R35, R211, R212; log 7): a fault or a refusal has no effect but its mark. -/
def markStop (s : State) : Host.Outcome State Fault Refusal → State
  | .next t => t
  | .fault f => { s with fault := some f }
  | .refused r => { s with refused := some r }

end Sys2Proof.Machine
end

