-- ==== Sys2Proof/Machine/Burst.lean ====
section
/-! DEFINITION. The meaning of the burst engine's step, class 0x6 (43_burst_engine.md R180). -/

namespace Sys2Proof.Machine

/-- The channel after one transfer (R180). -/
def channelAfterXfer (c : Channel) : Channel :=
  { c with mar := c.mar + 1, cnt := c.cnt - 1, tc := tcAfter (c.cnt - 1) c.tc }

/-- The action of DMA_XFER (R180): one byte from the scratch buffer to the data register. -/
def dmaXferBody (s : State) : Except Fault State :=
  match scrRead s.fr.scratch s.ch.mar with
  | .error f => .error f
  | .ok v =>
    match drWrite v s.per with
    | .error f => .error f
    | .ok p => .ok { s with per := p, ch := channelAfterXfer s.ch }

/-- DMA_XFER (R180). -/
def execDmaXfer (s : State) : Host.Outcome State Fault Refusal := takeStep (dmaXferGuard s) dmaXferBody s

end Sys2Proof.Machine
end

