-- ==== Sys2Proof/Machine/Bus.lean ====
section
/-! DEFINITION. The meanings of the bus steps, class 0x7 (44_bus_agent.md R190 to R193). -/

namespace Sys2Proof.Machine

/-- `wire += e` (R8, R33). -/
def wireAppend (e : WireEvent) (s : State) : State := { s with wire := s.wire ++ [e] }

/-- The action of BUS_START (R190). -/
def busStartBody (s : State) : Except Fault State :=
  .ok { wireAppend .start s with
    per := { s.per with sb := true, phase := .bAddr, startReq := false } }

/-- BUS_START (R190). -/
def execBusStart (s : State) : Host.Outcome State Fault Refusal := takeStep (busStartGuard s) busStartBody s

/-- The action of BUS_LOAD (R191): the data register moves into the shift register. -/
def busLoadBody (s : State) : Except Fault State :=
  .ok { s with per := { s.per with sh := s.per.dr, dr := none } }

/-- BUS_LOAD (R191). -/
def execBusLoad (s : State) : Host.Outcome State Fault Refusal := takeStep (busLoadGuard s) busLoadBody s

/-- The flags and the phase after a byte was shifted and the device answered `a` (R192). -/
def flagsOfAnswer (a : Bool) (p : Peripheral) : Peripheral :=
  match a with
  | true => flagsOfAck p
  | false => flagsOfNack p

/-- The action of BUS_SHIFT (R192): the byte and its answer go on the wire; it was the next answer of the run (R194). -/
def busShiftBody (a : Bool) (s : State) : Except Fault State :=
  match s.per.sh with
  | none => .ok s
  | some b =>
    .ok { wireAppend (.byte b a) s with
      per := flagsOfAnswer a { s.per with sh := none }
      dev := { s.dev with shifts := s.dev.shifts + 1 } }

/-- BUS_SHIFT (R192). -/
def execBusShift (a : Bool) (s : State) : Host.Outcome State Fault Refusal :=
  takeStep (busShiftGuard s) (busShiftBody a) s

/-- The wire after a STOP (R193): on an idle bus nothing is logged. -/
def wireAfterStop (s : State) : List WireEvent :=
  match s.per.phase with
  | .bIdle => s.wire
  | .bAddr => s.wire ++ [.stop]
  | .bAddrAck => s.wire ++ [.stop]
  | .bData => s.wire ++ [.stop]
  | .bHalted => s.wire ++ [.stop]

/-- The action of BUS_STOP (R193). -/
def busStopBody (s : State) : Except Fault State :=
  .ok { s with
    wire := wireAfterStop s
    per := { flagsOfStop s.per with phase := .bIdle, dr := none, stopReq := false } }

/-- BUS_STOP (R193). -/
def execBusStop (s : State) : Host.Outcome State Fault Refusal := takeStep (busStopGuard s) busStopBody s

end Sys2Proof.Machine
end

