-- ==== Sys2Proof/Machine/Control.lean ====
section
/-! DEFINITION. The meanings of the foreground control operations, class 0x2 (41_host_control.md R140 to R146). -/

namespace Sys2Proof.Machine

/-- The fields BT_RESET resets (R140, R240): transport, peripheral, channel and in-flight frame. -/
def blockReset (s : State) : State :=
  { s with tr := .reset, per := .reset, ch := .reset, fr := .reset }

/-- BT_RESET (R140). -/
def execBtReset (s : State) : Host.Outcome State Fault Refusal := finishOp (blockReset s)

/-- BT_KICK's first check fails (R142): outside Idle and Done, a START requested, or SB set. -/
def kickNotIdle (s : State) : Bool :=
  !(s.tr.st == .idle || s.tr.st == .done) || s.per.startReq || s.per.sb

/-- BT_KICK's second check fails (R142): the bus is busy and no STOP has been requested. -/
def kickBeforeStop (s : State) : Bool := !(s.per.phase == .bIdle) && !s.per.stopReq

/-- BT_KICK (R142). -/
def execBtKick (s : State) : Host.Outcome State Fault Refusal :=
  if kickNotIdle s then .fault .kickNotIdle
  else if kickBeforeStop s then .fault .kickBeforeStop
  else
    finishOp { s with
      tr := { s.tr with complete := false }
      per := { s.per with startReq := true } }

/-- BT_WAIT (R143): hold until `complete`. -/
def execBtWait (s : State) : Host.Outcome State Fault Refusal :=
  if s.tr.complete then finishOp s else hold s

/-- The last byte is still in the data register or in the shift register (R145, R146). -/
def byteInFlight (p : Peripheral) : Bool := p.dr.isSome || p.sh.isSome

/-- BT_SETTLE (R145): with SETTLE_OK, hold until the last byte has left. -/
def execBtSettle (s : State) : Host.Outcome State Fault Refusal :=
  if byteInFlight s.per && s.launch.settleOk then hold s else finishOp s

/-- BT_STOP (R146). -/
def execBtStop (s : State) : Host.Outcome State Fault Refusal :=
  if !s.tr.complete then .fault .stopBeforeComplete
  else if byteInFlight s.per then .fault .stopBeforeLatched
  else finishOp { s with per := { s.per with stopReq := true } }

end Sys2Proof.Machine
end

