-- ==== Sys2Proof/Machine/Queue.lean ====
section
/-! DEFINITION. The meanings of the queue operations, class 0x1 (40_queue.md R110 to R124). -/

namespace Sys2Proof.Machine

/-- RB_CONFIGURE (R111). -/
def execRbConfigure (buf : Buffer) (req : Word) (s : State) : Host.Outcome State Fault Refusal :=
  if 2 ^ 31 < req.toNat then .fault .sizeOverflow
  else if bufferLen s.ring buf < realizedSize req then .fault .backingTooSmall
  else finishOp { s with ring := ringConfigured s.ring buf (realizedSize req) }

/-- RB_ENQ (R112). -/
def execRbEnq (b : Byte) (s : State) : Host.Outcome State Fault Refusal :=
  ifConfigured s
    (returnOp (.bool (ringEnq b s.ring).1) { s with ring := (ringEnq b s.ring).2 })

/-- RB_DEQ (R113): in interrupt context the value is handed to the calling arm (log 8); the host faults (R110). -/
def execRbDeq (s : State) : Host.Outcome State Fault Refusal :=
  ifConfigured s
    (match s.cpu.ctx with
     | .foreground => .fault .foregroundConsumer
     | .interrupt =>
       match ringDeq s.ring with
       | .error f => .fault f
       | .ok (v, r) => .next { s with ring := r, cpu := { s.cpu with armRet := some (.option v) } })

/-- RB_ENQM (R116): the precheck, then one step per byte, then `Ok`. -/
def execRbEnqm (bytes : List Byte) (s : State) : Host.Outcome State Fault Refusal :=
  ifConfigured s
    (if hostSub s.host = 0 then
       if (ringAvail s.ring).toNat < bytes.length then returnOp (.err .notEnoughSpace) s else subStep s
     else
       match bytes[hostSub s.host - 1]? with
       | none => returnOp .ok s
       | some b =>
         match ringEnq b s.ring with
         | (false, _) => returnOp (.err (.failedAtIndex (hostSub s.host - 1))) s
         | (true, r) => subStep { s with ring := r })

/-- RB_AVAIL (R114). -/
def execRbAvail (s : State) : Host.Outcome State Fault Refusal :=
  ifConfigured s (returnOp (.uint (ringAvail s.ring)) s)

/-- RB_FILLED (R115). -/
def execRbFilled (s : State) : Host.Outcome State Fault Refusal :=
  ifConfigured s (returnOp (.uint (ringFilled s.ring)) s)

/-- RB_PEEK (R117): no check for an empty ring. -/
def execRbPeek (s : State) : Host.Outcome State Fault Refusal :=
  ifConfigured s (returnRead ((ringRead s.ring s.ring.tail).map Value.byte) s)

/-- The index RB_PEEKN reads (R118): `(tail + zext_W(n)) & mask`. -/
def peekIndex (r : Ring) (n : Byte) : Word := (r.tail + n.setWidth 32) &&& ringMask r

/-- RB_PEEKN (R118). -/
def execRbPeekn (n : Byte) (s : State) : Host.Outcome State Fault Refusal :=
  ifConfigured s (returnRead ((ringRead s.ring (peekIndex s.ring n)).map Value.byte) s)

/-- RB_ISFULL (R119). -/
def execRbIsfull (s : State) : Host.Outcome State Fault Refusal :=
  ifConfigured s (returnOp (.bool (ringFull s.ring)) s)

/-- RB_ISEMPTY (R120). -/
def execRbIsempty (s : State) : Host.Outcome State Fault Refusal :=
  ifConfigured s (returnOp (.bool (ringEmpty s.ring)) s)

/-- The byte that sub-step `j` of FR_ENCODE enqueues (R121): the tag at 1, the length at 2, the payload from 3 on;
`none` once all are written. -/
def encodeByte (l : Launch) (k : Kind) (payload : List Byte) (len j : Nat) : Option Byte :=
  if j = 1 then some (tagOf l k)
  else if j = 2 then some (BitVec.ofNat 8 len)
  else if j < 3 + len then some (payload.getD (j - 3) 0)
  else none

/-- FR_ENCODE once its operands are accepted (R121): the space check, then one step per byte, then `true`. -/
def encodeSteps (k : Kind) (payload : List Byte) (len : Nat) (s : State) : Host.Outcome State Fault Refusal :=
  if hostSub s.host = 0 then
    if (ringAvail s.ring).toNat < len + 2 then abandonOp (.bool false) s else subStep s
  else
    match encodeByte s.launch k payload len (hostSub s.host) with
    | none => returnOp (.bool true) s
    | some b => subStep { s with ring := (ringEnq b s.ring).2 }

/-- FR_ENCODE (R121): operand refusals come before NotConfigured (R226). -/
def execFrEncode (k : Kind) (payload : List Byte) (len : Nat) (s : State) : Host.Outcome State Fault Refusal :=
  match frameOperandRefusal payload len with
  | some r => .refused r
  | none => ifConfigured s (encodeSteps k payload len s)

/-- FR_ALIGNED (R123). -/
def execFrAligned (s : State) : Host.Outcome State Fault Refusal :=
  ifConfigured s (returnRead ((ringAligned s.launch s.ring).map Value.bool) s)

/-- FR_SIZE (R124): the announced length plus one, as a `u8`. -/
def execFrSize (s : State) : Host.Outcome State Fault Refusal :=
  ifConfigured s
    (returnRead ((ringRead s.ring (ringNext s.ring s.ring.tail)).map (fun v => Value.byte (v + 1))) s)

/-- The result of a decode as a value (R122). -/
def decodeValue : Except ErrCode Byte → Value
  | .ok len => .okLen len
  | .error e => .err e

/-- FR_DECODE (R122): in interrupt context the result is handed to the calling arm (log 8); the host faults (R110). -/
def execFrDecode (cap : Word) (s : State) : Host.Outcome State Fault Refusal :=
  ifConfigured s
    (match s.cpu.ctx with
     | .foreground => .fault .foregroundConsumer
     | .interrupt =>
       match decodeFrame s.launch cap s.ring s.fr.scratch with
       | .error f => .fault f
       | .ok d =>
         .next { s with
           ring := d.ring
           fr := { s.fr with scratch := d.scratch }
           cpu := { s.cpu with armRet := some (decodeValue d.res) } })

end Sys2Proof.Machine
end

