-- ==== Sys2Proof/Machine/Transport.lean ====
section
/-! DEFINITION. The meanings of the interrupt-handler arms, classes 0x3 to 0x5 (42_transport_fsm.md R160 to R165). -/

namespace Sys2Proof.Machine

/-- EV_SB after a successful decode of length `len` (R160): the frame registers, then the address byte. -/
def evSbOk (len : Byte) (s : State) : Except Fault State :=
  match scrRead s.fr.scratch 0 with
  | .error f => .error f
  | .ok tag =>
    match drWrite (addrByte s.launch) s.per with
    | .error f => .error f
    | .ok p =>
      .ok { s with
        fr := { s.fr with curTag := tag, curLen := len, valid := true }
        per := p
        tr := { s.tr with addrCleared := false, st := .addressSent } }

/-- EV_SB after a failed decode (R160): the error path. -/
def evSbErr (e : ErrCode) (s : State) : State :=
  { s with
    tr := { s.tr with lastErr := e, st := .error }
    fr := { s.fr with valid := false }
    per := { s.per with stopReq := true } }

/-- The action of EV_SB (R160): FR_DECODE with capacity 256 (R122, R110), then one of its two continuations. -/
def evSbBody (s : State) : Except Fault State :=
  if s.ring.cfg then
    match decodeFrame s.launch 256 s.ring s.fr.scratch with
    | .error f => .error f
    | .ok ⟨.ok len, r, m⟩ => evSbOk len { s with ring := r, fr := { s.fr with scratch := m } }
    | .ok ⟨.error e, r, m⟩ => .ok (evSbErr e { s with ring := r, fr := { s.fr with scratch := m } })
  else
    .error .notConfigured

/-- EV_SB, the Idle row (R160). -/
def execEvSb (s : State) : Host.Outcome State Fault Refusal := takeArm (evSbGuard s) evSbBody s

/-- The action of EV_ADDR (R161): the status read clears ADDR and releases the peripheral into transmit. -/
def evAddrBody (s : State) : Except Fault State :=
  .ok { s with
    per := { s.per with addr := false, phase := .bData }
    tr := { s.tr with addrCleared := true } }

/-- EV_ADDR, the first half of the AddressSent row (R161). -/
def execEvAddr (s : State) : Host.Outcome State Fault Refusal := takeArm (evAddrGuard s) evAddrBody s

/-- The action of EV_TXE (R162): the wire indicator goes to the data register. -/
def evTxeBody (s : State) : Except Fault State :=
  match wireInd s.launch s.fr.curTag with
  | .error f => .error f
  | .ok ind =>
    match drWrite ind s.per with
    | .error f => .error f
    | .ok p => .ok { s with per := p, tr := { s.tr with st := .typeByteSent } }

/-- EV_TXE, the second half of the AddressSent row (R162). -/
def execEvTxe (s : State) : Host.Outcome State Fault Refusal := takeArm (evTxeGuard s) evTxeBody s

/-- The channel as EV_BTF programs it (R163, R182). -/
def armedChannel (z : ZeroLenTc) (len : Byte) : Channel where
  en   := true
  tcie := true
  tc   := tcAtArming z len
  mar  := 1
  cnt  := len.toNat

/-- The action of EV_BTF (R163): the request bit is set and the channel armed. -/
def evBtfBody (s : State) : Except Fault State :=
  .ok { s with
    per := { s.per with dmaReqEn := true }
    ch := armedChannel s.launch.zeroLenTc s.fr.curLen
    tr := { s.tr with st := .streaming } }

/-- EV_BTF, the TypeByteSent row (R163). -/
def execEvBtf (s : State) : Host.Outcome State Fault Refusal := takeArm (evBtfGuard s) evBtfBody s

/-- The action of ER_AF (R164): the channel, the request bit and the completion signal are left alone. -/
def erAfBody (s : State) : Except Fault State :=
  .ok { s with
    per := { s.per with af := false, stopReq := true }
    fr := { s.fr with valid := false }
    tr := { s.tr with addrCleared := false, lastErr := .busNack, st := .idle } }

/-- ER_AF, the acknowledge-failure row (R164). -/
def execErAf (s : State) : Host.Outcome State Fault Refusal := takeArm (erAfGuard s) erAfBody s

/-- The action of DI_TC (R165). -/
def diTcBody (s : State) : Except Fault State :=
  .ok { s with
    ch := { s.ch with tc := false, en := false }
    per := { s.per with dmaReqEn := false }
    tr := { s.tr with complete := true, st := .done } }

/-- DI_TC, the DMA-completion row (R165). -/
def execDiTc (s : State) : Host.Outcome State Fault Refusal := takeArm (diTcGuard s) diTcBody s

end Sys2Proof.Machine
end

