-- ==== Sys2Proof/Machine/Dispatch.lean ====
section
/-! DEFINITION. The dispatch: one arm per operation of the opcode map (30_encoding.md R91). -/

namespace Sys2Proof.Machine

def exec (i : Instr) (s : State) : Host.Outcome State Fault Refusal :=
  match i with
  | .rbConfigure buf req => Sys2Proof.Machine.execRbConfigure buf req s
  | .rbEnq b => Sys2Proof.Machine.execRbEnq b s
  | .rbDeq => Sys2Proof.Machine.execRbDeq s
  | .rbEnqm bytes => Sys2Proof.Machine.execRbEnqm bytes s
  | .rbAvail => Sys2Proof.Machine.execRbAvail s
  | .rbFilled => Sys2Proof.Machine.execRbFilled s
  | .rbPeek => Sys2Proof.Machine.execRbPeek s
  | .rbPeekn n => Sys2Proof.Machine.execRbPeekn n s
  | .rbIsfull => Sys2Proof.Machine.execRbIsfull s
  | .rbIsempty => Sys2Proof.Machine.execRbIsempty s
  | .frEncode k payload len => Sys2Proof.Machine.execFrEncode k payload len s
  | .frAligned => Sys2Proof.Machine.execFrAligned s
  | .frSize => Sys2Proof.Machine.execFrSize s
  | .frDecode cap => Sys2Proof.Machine.execFrDecode cap s
  | .btReset => Sys2Proof.Machine.execBtReset s
  | .btKick => Sys2Proof.Machine.execBtKick s
  | .btWait => Sys2Proof.Machine.execBtWait s
  | .btSettle => Sys2Proof.Machine.execBtSettle s
  | .btStop => Sys2Proof.Machine.execBtStop s
  | .evSb => Sys2Proof.Machine.execEvSb s
  | .evAddr => Sys2Proof.Machine.execEvAddr s
  | .evTxe => Sys2Proof.Machine.execEvTxe s
  | .evBtf => Sys2Proof.Machine.execEvBtf s
  | .erAf => Sys2Proof.Machine.execErAf s
  | .diTc => Sys2Proof.Machine.execDiTc s
  | .dmaXfer => Sys2Proof.Machine.execDmaXfer s
  | .busStart => Sys2Proof.Machine.execBusStart s
  | .busLoad => Sys2Proof.Machine.execBusLoad s
  | .busShift a => Sys2Proof.Machine.execBusShift a s
  | .busStop => Sys2Proof.Machine.execBusStop s

end Sys2Proof.Machine
end

