-- ==== Sys2Proof/Machine/Schedule.lean ====
section
/-! DEFINITION. Scheduling (60_exceptions.md R227): which steps are enabled, which one comes next, and running it. A
step of the machine is any one enabled step of any agent; the choice comes from the schedule in State and, when that
is used up, from a free value (log 5). -/

namespace Sys2Proof.Machine

/-- The device's answer `a` is the one ACKS gives, or ACKS gives none (R194). -/
def answerAllowed (a : Bool) (s : State) : Bool :=
  match nextAnswer s with
  | some x => x == a
  | none => true

/-- An agent's step is enabled (R227): its guard holds, the bus is not wedged (R195), and a shift's answer is the
device's (R194). The host's operations are no steps of another agent. -/
def agentEnabled (i : Instr) (s : State) : Bool :=
  match i with
  | .rbConfigure _ _ => false
  | .rbEnq _ => false
  | .rbDeq => false
  | .rbEnqm _ => false
  | .rbAvail => false
  | .rbFilled => false
  | .rbPeek => false
  | .rbPeekn _ => false
  | .rbIsfull => false
  | .rbIsempty => false
  | .frEncode _ _ _ => false
  | .frAligned => false
  | .frSize => false
  | .frDecode _ => false
  | .btReset => false
  | .btKick => false
  | .btWait => false
  | .btSettle => false
  | .btStop => false
  | .evSb => evSbGuard s
  | .evAddr => evAddrGuard s
  | .evTxe => evTxeGuard s
  | .evBtf => evBtfGuard s
  | .erAf => erAfGuard s
  | .diTc => diTcGuard s
  | .dmaXfer => dmaXferGuard s
  | .busStart => !s.dev.wedged && busStartGuard s
  | .busLoad => !s.dev.wedged && busLoadGuard s
  | .busShift a => !s.dev.wedged && answerAllowed a s && busShiftGuard s
  | .busStop => !s.dev.wedged && busStopGuard s

/-- The host's current operation holds (R143, R145); no other operation does. -/
def hostHolds (i : Instr) (s : State) : Bool :=
  match i with
  | .rbConfigure _ _ => false
  | .rbEnq _ => false
  | .rbDeq => false
  | .rbEnqm _ => false
  | .rbAvail => false
  | .rbFilled => false
  | .rbPeek => false
  | .rbPeekn _ => false
  | .rbIsfull => false
  | .rbIsempty => false
  | .frEncode _ _ _ => false
  | .frAligned => false
  | .frSize => false
  | .frDecode _ => false
  | .btReset => false
  | .btKick => false
  | .btWait => !s.tr.complete
  | .btSettle => byteInFlight s.per && s.launch.settleOk
  | .btStop => false
  | .evSb => false
  | .evAddr => false
  | .evTxe => false
  | .evBtf => false
  | .erAf => false
  | .diTc => false
  | .dmaXfer => false
  | .busStart => false
  | .busLoad => false
  | .busShift _ => false
  | .busStop => false

/-- The host has a step (R227): it has not finished and is not holding. -/
def hostEnabled (s : State) : Bool :=
  match hostFetch s.host with
  | none => false
  | some (w, a) =>
    match decode w a with
    | .error _ => true
    | .ok i => !hostHolds i s

/-- The steps of EV, ER, DI and DMA (R160 to R165, R180). -/
def cpuSteps : List Instr := [.evSb, .evAddr, .evTxe, .evBtf, .erAf, .diTc, .dmaXfer]

/-- The steps of BUS (R190 to R193), both answers among them (R194). -/
def busSteps : List Instr := [.busStart, .busLoad, .busShift false, .busShift true, .busStop]

/-- The enabled steps among some, as choices. -/
def enabledAmong (steps : List Instr) (s : State) : List Pick :=
  (steps.filter (fun i => agentEnabled i s)).map (fun i => .label (encodeWord i))

/-- A run without `BUS_LIVE` may be cut while the bus is still enabled (R195, R264; log 15). -/
def wedgePicks (s : State) : List Pick :=
  if s.launch.busLive || (enabledAmong busSteps s).isEmpty then [] else [.wedge]

/-- Every choice the machine has (R227). -/
def enabledPicks (s : State) : List Pick :=
  (if hostEnabled s then [Pick.host] else []) ++ enabledAmong cpuSteps s ++ enabledAmong busSteps s ++ wedgePicks s

/-- One of the choices by a free number; no number is drawn when there is only one. -/
def choiceAt : List Pick → Nat → Option Pick
  | [], _ => none
  | [p], _ => some p
  | p :: q :: rest, n => (p :: q :: rest)[n % (rest.length + 2)]?

/-- The next choice and the state without it: the schedule's next entry, or a free one among the enabled steps. -/
def nextPick (s : State) : Option (Pick × State) :=
  match s.sch.picks with
  | p :: rest => some (p, { s with sch := { s.sch with picks := rest } })
  | [] =>
    match choiceAt (enabledPicks s) (Config.freePick s.sch.drawn) with
    | none => none
    | some p => some (p, { s with sch := { s.sch with drawn := s.sch.drawn + 1 } })

/-- The host's step (R141): it reads its current operation, decodes it and runs it. A finished host has no step. -/
def runHost (s : State) : Host.Outcome State Fault Refusal :=
  match hostFetch s.host with
  | none => hold s
  | some (w, a) =>
    match decode w a with
    | .error _ => .refused .reservedEncoding
    | .ok i => if isHostOp i then exec i s else .refused .notHostOp

/-- Another agent's step, named by its label (R89): it runs if it is enabled. A label that names no enabled step is no
step (log 6). -/
def runLabel (w : OpWord) (s : State) : Host.Outcome State Fault Refusal :=
  match decode w {} with
  | .error _ => .refused .reservedEncoding
  | .ok i => if agentEnabled i s then exec i s else hold s

/-- The bus stops for good, if it may (R195; log 15). -/
def runWedge (s : State) : Host.Outcome State Fault Refusal :=
  if s.launch.busLive then hold s else .next { s with dev := { s.dev with wedged := true } }

/-- Running a choice (R227). -/
def runPick (p : Pick) (s : State) : Host.Outcome State Fault Refusal :=
  match p with
  | .host => runHost s
  | .label w => runLabel w s
  | .wedge => runWedge s

/-- A step of a machine without a stop mark (R227). When no agent has a step the run has ended (R262) and the state
stays (log 13). -/
def runNext (s : State) : Host.Outcome State Fault Refusal :=
  match nextPick s with
  | none => hold s
  | some (p, t) => runPick p t

/-- The host program with the entry `e` at `hpc`. -/
def placeEntry (h : HostAgent) (e : HostEntry) : HostAgent :=
  { h with
    prog := (h.prog ++ List.replicate h.pc e).take h.pc ++ e :: h.prog.drop (h.pc + 1)
    micro := none }

/-- The launch arguments with ACKS giving, for the next shift, the answer that the word names (R194). -/
def answerFrom (s : State) (w : OpWord) : Launch :=
  { s.launch with acks := s.launch.acks.set s.dev.shifts (immBit w) }

/-- The state in which the very next step runs the word `w` (log 9): a step label of classes 0x3 to 0x7 comes next in
the schedule, with the bus going on and the device giving the answer the label names; any other word stands at `hpc`,
with the host next. -/
def placeWord (s : State) (w : OpWord) : State :=
  match (wordClass w).toNat with
  | 3 => { s with sch := { s.sch with picks := .label w :: s.sch.picks } }
  | 4 => { s with sch := { s.sch with picks := .label w :: s.sch.picks } }
  | 5 => { s with sch := { s.sch with picks := .label w :: s.sch.picks } }
  | 6 => { s with sch := { s.sch with picks := .label w :: s.sch.picks } }
  | 7 =>
    { s with
      sch := { s.sch with picks := .label w :: s.sch.picks }
      dev := { s.dev with wedged := false }
      launch := if w &&& 0xFFFE = 0x7200 then answerFrom s w else s.launch }
  | _ =>
    { s with
      sch := { s.sch with picks := .host :: s.sch.picks }
      host := placeEntry s.host (.op w {}) }

end Sys2Proof.Machine
end

