-- ==== Sys2Proof/Machine/Step.lean ====
section
/-! DEFINITION. One step of the machine (60_exceptions.md R227), with its three outcomes (R211, R212), and where a
single word is placed for the next step to run. -/

namespace Sys2Proof.Machine

/-- One step. Once a fault or a refusal is recorded no agent steps again (10_state.md R35). -/
def step (s : State) : Host.Outcome State Fault Refusal :=
  match s.fault, s.refused with
  | some f, _ => .fault f
  | none, some r => .refused r
  | none, none => runNext s

/-- `s` with the table word `w` where the next step fetches (log 9). A `w` that does not fit 16 bits is no word, and
the reserved word 0 stands for it. -/
def State.withFetchWord (s : State) (nbits w : Nat) : State :=
  placeWord s (if nbits ≤ 16 ∧ w < 65536 then BitVec.ofNat 16 w else 0)

end Sys2Proof.Machine
end

