-- ==== Sys2Proof/Machine/Run.lean ====
section
/-! DEFINITION. Runs (70_reset_and_hazards.md R262 to R264): the state a step leaves with its stop mark, and how a run
that has ended is classified. -/

namespace Sys2Proof.Machine

/-- The state after a step, a fault or a refusal recorded in it (R35, R211, R212; log 7). -/
def advance (s : State) : State := markStop s (step s)

/-- The state after `n` steps. -/
def advanceN : Nat → State → State
  | 0, s => s
  | n + 1, s => advanceN n (advance s)

/-- How a run ends (R262). -/
inductive RunEnd where
  | faulted
  | refused
  | completed
  | hung
deriving DecidableEq, Repr

/-- The host has finished (R141, R262): `hpc = length(hprog)` and no operation in progress. -/
def hostFinished (h : HostAgent) : Bool := decide (h.prog.length ≤ h.pc) && h.micro.isNone

/-- The classification of an ended run (R262); `none` while some agent still has a step. -/
def runEnd (s : State) : Option RunEnd :=
  if s.fault.isSome then some .faulted
  else if s.refused.isSome then some .refused
  else if !(enabledPicks s).isEmpty then none
  else if hostFinished s.host then some .completed
  else some .hung

end Sys2Proof.Machine
end

