-- ==== Sys2Proof/WellFormed.lean ====
section
/-! DEFINITION. Which operations can be written down (30_encoding.md R90): the checks on operands outside the word. -/

namespace Sys2Proof

/-- The listed cells come in strictly rising order of index, none below `lo`. -/
def cellsRise (lo : Nat) : List Host.Cell → Bool
  | [] => true
  | (i, _) :: rest => decide (lo ≤ i) && cellsRise (i + 1) rest

/-- An array of `len` cells (R90): each listed cell once, in order, and inside the array. -/
def Backing.wf (b : Backing) : Bool :=
  cellsRise 0 b.cells && b.cells.all (fun c => decide (c.1 < b.len))

/-- A buffer operand that denotes an array (R90). -/
def Buffer.wf : Buffer → Bool
  | .given b => b.wf
  | .inUse => true

/-- "`payload` must have at least `length` elements", and a "`length` of 256 or more cannot be written down" (R90). -/
def frameOperandsWf (payload : List Byte) (len : Nat) : Bool :=
  decide (len ≤ 255) && decide (len ≤ payload.length)

/-- The well-formed operations. -/
def Instr.wf : Instr → Bool
  | .rbConfigure buf _ => buf.wf
  | .rbEnq _ => true
  | .rbDeq => true
  | .rbEnqm _ => true
  | .rbAvail => true
  | .rbFilled => true
  | .rbPeek => true
  | .rbPeekn _ => true
  | .rbIsfull => true
  | .rbIsempty => true
  | .frEncode _ payload len => frameOperandsWf payload len
  | .frAligned => true
  | .frSize => true
  | .frDecode _ => true
  | .btReset => true
  | .btKick => true
  | .btWait => true
  | .btSettle => true
  | .btStop => true
  | .evSb => true
  | .evAddr => true
  | .evTxe => true
  | .evBtf => true
  | .erAf => true
  | .diTc => true
  | .dmaXfer => true
  | .busStart => true
  | .busLoad => true
  | .busShift _ => true
  | .busStop => true

end Sys2Proof
end

