-- ==== Sys2Proof/Safety.lean ====
section
/-! DEFINITION. What counts as a good state, in the terms claims use: the bytes a queue holds, and the invariants of
the ring (10_state.md R32, 40_queue.md R113, R126), of the channel and the in-flight frame (R28, R53, R180), of the
peripheral's flags and data path (R55, 44_bus_agent.md), and of the boundary between two steps (60_exceptions.md
R217, R220). -/

namespace Sys2Proof.Machine

/-- The index of the j-th queued byte (R83): consecutive masked indices from `tail`. -/
def queuedIndex (r : Ring) (j : Nat) : Word := (r.tail + BitVec.ofNat 32 j) &&& ringMask r

/-- The bytes in the queue, first in first (R32): the cells from `tail` up to `head`; `none` is a cell never
written. -/
def queuedBytes (r : Ring) : List (Option Byte) :=
  (List.range (ringFilled r).toNat).map (fun j => memRead r.storage (queuedIndex r j).toNat)

/-- The state of the ring that R32 and R111 promise once it is configured. -/
structure RingConfigured (r : Ring) : Prop where
  /-- "`size` is a power of two" (R32), `1 ≤ size ≤ 2^31` (R125). -/
  pow2 : ∃ k, k < 32 ∧ r.size.toNat = 2 ^ k
  /-- `s.size ≤ N` (R51, R111). -/
  fits : r.size.toNat ≤ r.len
  /-- "`head`,`tail` ∈ `[0, size)`" (R32). -/
  headIn : r.head.toNat < r.size.toNat
  tailIn : r.tail.toNat < r.size.toNat
  /-- Every queued cell was written (R113). -/
  written : ∀ x ∈ queuedBytes r, x.isSome

/-- The ring invariant: the storage is canonical and inside the backing array, and R32 holds once configured. -/
structure RingOk (r : Ring) : Prop where
  canonical : Memory.wf r.storage = true
  inside    : memBelow r.len r.storage = true
  configured : r.cfg = true → RingConfigured r

/-- The channel never points outside the scratch buffer (R28, R53). -/
structure ChannelOk (c : Channel) : Prop where
  inside : c.mar + c.cnt ≤ 256
  count  : c.cnt ≤ 255

/-- A scratch cell was written. -/
abbrev scratchWritten (m : Memory) (i : Nat) : Prop := (memRead m i).isSome

/-- The scratch invariant: canonical and inside its 256 cells (R29); the frame of a transaction and the bytes an armed
channel has still to move are written (R160, R163, R180). -/
structure ScratchOk (s : State) : Prop where
  canonical : Memory.wf s.fr.scratch = true
  inside    : memBelow Config.scratchLen s.fr.scratch = true
  frame     : s.tr.st = .addressSent ∨ s.tr.st = .typeByteSent → ∀ i, i ≤ s.fr.curLen.toNat → scratchWritten s.fr.scratch i
  channel   : ∀ j, j < s.ch.cnt → scratchWritten s.fr.scratch (s.ch.mar + j)

/-- Both registers of the peripheral's data path are empty. -/
abbrev dataPathEmpty (p : Peripheral) : Prop := p.dr = none ∧ p.sh = none

/-- The peripheral invariant: which flags and registers can be set in which phase (R24, R26, R190 to R193). -/
structure PeripheralOk (p : Peripheral) : Prop where
  idle    : p.phase = .bIdle → dataPathEmpty p
  start   : p.sb = true → p.phase = .bAddr ∧ dataPathEmpty p
  address : p.phase = .bAddr → p.dr = none ∨ p.sh = none
  acked   : p.phase = .bAddrAck → dataPathEmpty p
  matched : p.addr = true → p.phase = .bAddrAck
  finished : p.btf = true → p.phase = .bData ∧ dataPathEmpty p
  halted  : p.phase = .bHalted → p.sh = none

/-- Between two steps the CPU is in foreground context, and no value waits for an arm (R217, R218, R220). -/
structure BoundaryOk (s : State) : Prop where
  context  : s.cpu.ctx = .foreground
  returned : s.cpu.armRet = none

/-- All invariants of the machine. -/
structure MachineOk (s : State) : Prop where
  ring       : RingOk s.ring
  channel    : ChannelOk s.ch
  scratch    : ScratchOk s
  peripheral : PeripheralOk s.per
  boundary   : BoundaryOk s

/-- No stop mark is set (R35). -/
def unmarked (s : State) : Prop := s.fault = none ∧ s.refused = none

/-- The state without its next scheduled choice. -/
def dropPick (s : State) : State := { s with sch := { s.sch with picks := s.sch.picks.tail } }

/-- `n` host steps of the same operation, such as the sub-steps of FR_ENCODE (R121) with no other agent between. -/
def execTimes (i : Instr) : Nat → State → Host.Outcome State Fault Refusal
  | 0, s => .next s
  | n + 1, s =>
    match exec i s with
    | .next t => execTimes i n t
    | .fault f => .fault f
    | .refused r => .refused r

/-- Several steps one after the other, whoever takes them. -/
def execAll : List Instr → State → Host.Outcome State Fault Refusal
  | [], s => .next s
  | i :: rest, s =>
    match exec i s with
    | .next t => execAll rest t
    | .fault f => .fault f
    | .refused r => .refused r

/-- The steps of one transaction with a payload of `n` bytes, every byte acknowledged, each byte shifted before the
next is written (R169, R196); from the START to the STOP. -/
def transactionSteps (n : Nat) : List Instr :=
  [.busStart, .evSb, .busLoad, .busShift true, .evAddr, .evTxe, .busLoad, .busShift true, .evBtf] ++
    (List.replicate n [Instr.dmaXfer, .busLoad, .busShift true]).flatten ++
    [.diTc, .btWait, .btSettle, .btStop, .busStop]

/-- The bytes of a frame as they stand in the ring (R83): tag, length, payload. -/
def frameBytes (l : Launch) (k : Kind) (payload : List Byte) (len : Nat) : List (Option Byte) :=
  (tagOf l k :: BitVec.ofNat 8 len :: payload.take len).map some

/-- The alignment gate of FR_DECODE lets the tag through (R122). -/
def gateAccepts (l : Launch) (t : Byte) : Prop :=
  l.alignCheck = .neverGates ∨ t = tagOf l .command ∨ t = tagOf l .data

/-- The alignment gate of FR_DECODE is open at the ring's tail (R122, R123): it gates nothing, or the byte there is a
tag. -/
def gateOpen (l : Launch) (r : Ring) : Prop :=
  l.alignCheck = .neverGates ∨
    ∃ t, memRead r.storage r.tail.toNat = some t ∧ (t = tagOf l .command ∨ t = tagOf l .data)

/-- The host holds in BT_WAIT (R143) or in BT_SETTLE (R145). -/
def hostWaits (s : State) : Prop :=
  ∃ w a, hostFetch s.host = some (w, a) ∧
    ((decode w a = .ok .btWait ∧ s.tr.complete = false) ∨
     (decode w a = .ok .btSettle ∧ s.launch.settleOk = true ∧ (s.per.dr ≠ none ∨ s.per.sh ≠ none)))

/-- An agent other than the host has this step (R227): the guard of its rule (R160 to R165, R180, R190 to R193), for
the bus that it has not stopped (R195), and for a shift that ACKS gives no other answer (R194). -/
def agentMayStep : Instr → State → Prop
  | .evSb, s => (s.tr.st = .idle ∨ s.tr.st = .done) ∧ s.per.sb = true
  | .evAddr, s => s.tr.st = .addressSent ∧ s.tr.addrCleared = false ∧ s.per.addr = true
  | .evTxe, s => s.tr.st = .addressSent ∧ s.tr.addrCleared = true ∧ s.per.phase = .bData ∧ s.per.dr = none
  | .evBtf, s => s.tr.st = .typeByteSent ∧ s.per.btf = true
  | .erAf, s => s.per.af = true
  | .diTc, s => s.ch.tc = true ∧ s.ch.tcie = true
  | .dmaXfer, s =>
    s.ch.en = true ∧ s.per.dmaReqEn = true ∧ s.per.phase = .bData ∧ s.per.dr = none ∧ 0 < s.ch.cnt
  | .busStart, s =>
    s.dev.wedged = false ∧ s.per.startReq = true ∧ s.per.stopReq = false ∧ s.per.phase = .bIdle
  | .busLoad, s =>
    s.dev.wedged = false ∧ s.per.sh = none ∧ s.per.dr ≠ none ∧ (s.per.phase = .bAddr ∨ s.per.phase = .bData)
  | .busShift a, s =>
    s.dev.wedged = false ∧ s.per.sh ≠ none ∧ ∀ x, s.launch.acks[s.dev.shifts]? = some x → a = x
  | .busStop, s => s.dev.wedged = false ∧ s.per.stopReq = true ∧ s.per.sh = none
  | .rbConfigure _ _, _ => False
  | .rbEnq _, _ => False
  | .rbDeq, _ => False
  | .rbEnqm _, _ => False
  | .rbAvail, _ => False
  | .rbFilled, _ => False
  | .rbPeek, _ => False
  | .rbPeekn _, _ => False
  | .rbIsfull, _ => False
  | .rbIsempty, _ => False
  | .frEncode _ _ _, _ => False
  | .frAligned, _ => False
  | .frSize, _ => False
  | .frDecode _, _ => False
  | .btReset, _ => False
  | .btKick, _ => False
  | .btWait, _ => False
  | .btSettle, _ => False
  | .btStop, _ => False

/-- The operations that write `head` and the storage (R64): the producer's, and RB_CONFIGURE. -/
def producerOps : Instr → Prop
  | .rbConfigure _ _ => True
  | .rbEnq _ => True
  | .rbEnqm _ => True
  | .frEncode _ _ _ => True
  | _ => False

/-- The operations that write `tail` (R64): the consumer's, and RB_CONFIGURE. -/
def consumerOps : Instr → Prop
  | .rbConfigure _ _ => True
  | .rbDeq => True
  | .frDecode _ => True
  | .evSb => True
  | _ => False

/-- The operations that write `s.st` (R21): the arms of R160 and R162 to R165, and BT_RESET. -/
def stateWriters : Instr → Prop
  | .btReset => True
  | .evSb => True
  | .evTxe => True
  | .evBtf => True
  | .erAf => True
  | .diTc => True
  | _ => False

/-- The queue operations but RB_CONFIGURE (R110), their operands well formed. -/
def needsConfigured (i : Instr) : Prop :=
  opClass i = .queue ∧ i.wf = true ∧ ∀ buf req, i ≠ .rbConfigure buf req

/-- Two outcomes that agree on everything but `last_err` (R31). -/
def forgetLastErr : Host.Outcome State Fault Refusal → Host.Outcome State Fault Refusal
  | .next t => .next { t with tr := { t.tr with lastErr := .none } }
  | .fault f => .fault f
  | .refused r => .refused r

/-- The state with another `last_err`. -/
def withLastErr (e : ErrCode) (s : State) : State := { s with tr := { s.tr with lastErr := e } }

/-- `xs` is an initial part of `ys`, as the wire log before a step is of the log after it (R33). -/
def wireGrows (xs ys : List WireEvent) : Prop := ∃ more, ys = xs ++ more

end Sys2Proof.Machine
end

