-- ==== Sys2Proof/Certificates/Slice0/Obligations.lean ====
section
/-! DEFINITION. The statements for the provers, each from the numbered rules of spec/. -/

open Sys2Proof Sys2Proof.Machine

/-! ### Encoding -/

/-- R91, R93 and R90: decoding the encoding of an operation gives it back, every operand at every value. -/
def Obligations.DecodeOfEncodeIsTheOperation : Prop :=
  ∀ i : Instr, decode (encode i).1 (encode i).2 = .ok i

/-- R91, R92: a word that decodes to an operation is the word of that operation, so each operation has one word and
every other bit of a word is accounted for. -/
def Obligations.DecodedWordIsTheWordOfTheOperation : Prop :=
  ∀ (w : OpWord) (a : Args) (i : Instr), decode w a = .ok i → encodeWord i = w

/-- R93: "at most one row matches". -/
def Obligations.AtMostOneRowMatches : Prop :=
  ∀ (w : OpWord) (p q : Nat) (r r' : OpRow),
    opRows[p]? = some r → opRows[q]? = some r' → w &&& r.mask = r.pattern → w &&& r'.mask = r'.pattern → p = q

/-- R92: reserved classes, unlisted operation numbers, an N word with an immediate, a K or A word with `imm8[7:1]`. -/
def Obligations.ReservedWordsAreRejected : Prop :=
  ∀ (w : OpWord) (a : Args),
    (wordClass w = 0 ∨ 8 ≤ (wordClass w).toNat →
      decode w a = .error .reservedEncoding) ∧
    ((wordClass w = 1 ∧ 0xD < (w.extractLsb' 8 4).toNat) ∨ (wordClass w = 2 ∧ 4 < (w.extractLsb' 8 4).toNat) ∨
      (wordClass w = 3 ∧ 3 < (w.extractLsb' 8 4).toNat) ∨ (wordClass w = 4 ∧ 0 < (w.extractLsb' 8 4).toNat) ∨
      (wordClass w = 5 ∧ 0 < (w.extractLsb' 8 4).toNat) ∨ (wordClass w = 6 ∧ 0 < (w.extractLsb' 8 4).toNat) ∨
      (wordClass w = 7 ∧ 3 < (w.extractLsb' 8 4).toNat) →
      decode w a = .error .reservedEncoding) ∧
    (w.extractLsb' 8 8 ≠ 0x11 → w.extractLsb' 8 8 ≠ 0x17 → w.extractLsb' 8 8 ≠ 0x1A → w.extractLsb' 8 8 ≠ 0x72 →
      imm8 w ≠ 0 → decode w a = .error .reservedEncoding) ∧
    (w.extractLsb' 8 8 = 0x1A ∨ w.extractLsb' 8 8 = 0x72 →
      w.extractLsb' 1 7 ≠ 0 → decode w a = .error .reservedEncoding)

/-- 95_test_vectors.md L2.1 and R91: a few words and what they stand for. -/
def Obligations.SampleWordsDecodeAsTheTableSays : Prop :=
  decode 0x1A01 { bytes := [0x11], len := 1 } = .ok (.frEncode .data [0x11] 1) ∧
  decode 0x117F {} = .ok (.rbEnq 0x7F) ∧
  decode 0x17FF {} = .ok (.rbPeekn 255) ∧
  decode 0x2400 {} = .ok .btStop ∧
  decode 0x3300 {} = .ok .evBtf ∧
  decode 0x6000 {} = .ok .dmaXfer ∧
  decode 0x7201 {} = .ok (.busShift true) ∧
  decode 0x7202 {} = .error .reservedEncoding

/-! ### Steps and scheduling -/

/-- R141, R227: when the HOST is next and its current word decodes to a host operation, the step is that operation on
the state without the scheduled choice. -/
def Obligations.StepRunsTheHostOperation : Prop :=
  ∀ (s : State) (rest : List Pick) (w : OpWord) (a : Args) (i : Instr),
    unmarked s → s.sch.picks = .host :: rest → hostFetch s.host = some (w, a) → decode w a = .ok i →
    isHostOp i = true → step s = exec i (dropPick s)

/-- R89, R92, R141: a word of the host program that does not decode is refused ReservedEncoding, and a word of class
0x3 to 0x7 is refused NotHostOp. -/
def Obligations.HostRefusesWordsThatAreNotItsOwn : Prop :=
  ∀ (s : State) (rest : List Pick) (w : OpWord) (a : Args),
    unmarked s → s.sch.picks = .host :: rest → hostFetch s.host = some (w, a) →
    (decode w a = .error .reservedEncoding → step s = .refused .reservedEncoding) ∧
    (∀ i, decode w a = .ok i → opClass i ≠ .queue → opClass i ≠ .control → step s = .refused .notHostOp)

/-- R89, R227: when a step label is next, the step is that agent's step if it is enabled; a label that names no
enabled step changes nothing but the schedule (the model's choice, log 6). -/
def Obligations.StepRunsTheLabelledAgent : Prop :=
  ∀ (s : State) (rest : List Pick) (w : OpWord) (i : Instr),
    unmarked s → s.sch.picks = .label w :: rest → decode w {} = .ok i →
    (agentEnabled i (dropPick s) = true → step s = exec i (dropPick s)) ∧
    (agentEnabled i (dropPick s) = false → step s = .next (dropPick s))

/-- A placed word is the next operation to run (the model's interface, log 9): the step after `withFetchWord` is the
decoded operation, on a state with the same block, marks and schedule. A label leaves the host as it was; a host
operation stands at `hpc`, at its first sub-step, with every other entry as before. The launch arguments are the
same, but that for BUS_SHIFT the answer that ACKS gives next is the label's own. -/
def Obligations.PlacedWordIsTheNextOperation : Prop :=
  ∀ (s : State) (w : Nat) (i : Instr),
    unmarked s → decodeTableWord 16 w = some i →
    ∃ t, step (s.withFetchWord 16 w) = exec i t ∧ t.tr = s.tr ∧ t.per = s.per ∧ t.ch = s.ch ∧ t.fr = s.fr ∧
      t.ring = s.ring ∧ t.host.pc = s.host.pc ∧ t.host.log = s.host.log ∧ t.wire = s.wire ∧ t.cpu = s.cpu ∧
      t.sch = s.sch ∧ unmarked t ∧ t.dev.shifts = s.dev.shifts ∧ (opClass i ≠ .bus → t.dev = s.dev) ∧
      (opClass i = .bus → t.dev.wedged = false) ∧
      (isHostOp i = false → t.host = s.host) ∧
      (isHostOp i = true → t.host.micro = none ∧
        t.host.prog[s.host.pc]? = some (.op (BitVec.ofNat 16 w) {}) ∧
        ∀ n, n < s.host.prog.length → n ≠ s.host.pc → t.host.prog[n]? = s.host.prog[n]?) ∧
      (∀ a, i = .busShift a → t.launch = { s.launch with acks := s.launch.acks.set s.dev.shifts a }) ∧
      ((∀ a, i ≠ .busShift a) → t.launch = s.launch)

/-- R35, R211, R212: a step that faults or is refused has no effect but its mark, and "Once either is set it is never
cleared, and no agent steps again". R262: how a run is classified once no agent has an enabled step, and that it has
not ended before. -/
def Obligations.StopsAreMarksAndEndTheRun : Prop :=
  (∀ s : State, unmarked s →
    (∀ f, step s = .fault f → advance s = { s with fault := some f }) ∧
    (∀ r, step s = .refused r → advance s = { s with refused := some r })) ∧
  (∀ (s : State) (f : Fault), s.fault = some f → step s = .fault f ∧ advance s = s) ∧
  (∀ (s : State) (r : Refusal), s.fault = none → s.refused = some r → step s = .refused r ∧ advance s = s) ∧
  (∀ s : State,
    (∀ f, s.fault = some f → runEnd s = some .faulted) ∧
    (∀ r, s.fault = none → s.refused = some r → runEnd s = some .refused) ∧
    (unmarked s → enabledPicks s ≠ [] → runEnd s = none) ∧
    (unmarked s → enabledPicks s = [] → s.host.pc = s.host.prog.length → s.host.micro = none →
      runEnd s = some .completed) ∧
    (unmarked s → enabledPicks s = [] → hostWaits s → runEnd s = some .hung))

/-- R227: the machine's choices are exactly its enabled steps: the host's when it has an operation and does not wait in
BT_WAIT or BT_SETTLE (R143, R145), and every label whose agent's guard holds, a BUS_SHIFT with the answer that ACKS
gives or, without one, either (R194). Without `BUS_LIVE` a bus that has a step may also stop, after which it has none
(R195; log 15). With no schedule given one of the choices is taken, every one of them can be, and it runs as it does
when scheduled (log 5). Without any choice the state stays (log 13). -/
def Obligations.AnyEnabledStepMayBeChosen : Prop :=
  (∀ (i : Instr) (s : State), agentEnabled i s = true ↔ agentMayStep i s) ∧
  (∀ s : State,
    (Pick.host ∈ enabledPicks s ↔ hostFetch s.host ≠ none ∧ ¬ hostWaits s) ∧
    (∀ w, Pick.label w ∈ enabledPicks s ↔ ∃ i, agentMayStep i s ∧ w = encodeWord i) ∧
    (Pick.wedge ∈ enabledPicks s ↔ s.launch.busLive = false ∧ ∃ i, opClass i = .bus ∧ agentMayStep i s)) ∧
  (∀ s : State, s.sch.picks = [] →
    nextPick s = (choiceAt (enabledPicks s) (Config.freePick s.sch.drawn)).map
      (fun p => (p, { s with sch := { s.sch with drawn := s.sch.drawn + 1 } }))) ∧
  (∀ s : State,
    (enabledPicks s ≠ [] → ∀ n, ∃ p, choiceAt (enabledPicks s) n = some p ∧ p ∈ enabledPicks s) ∧
    (∀ p, p ∈ enabledPicks s → ∃ n, choiceAt (enabledPicks s) n = some p)) ∧
  (∀ (s t : State) (p : Pick), unmarked s → s.sch.picks = [] → nextPick s = some (p, t) →
    step s = step { t with sch := { t.sch with picks := [p] } }) ∧
  (∀ (s : State) (rest : List Pick), unmarked s → s.sch.picks = .wedge :: rest →
    (s.launch.busLive = true → step s = .next (dropPick s)) ∧
    (s.launch.busLive = false → step s = .next { dropPick s with dev := { s.dev with wedged := true } })) ∧
  (∀ s : State, unmarked s → s.sch.picks = [] → enabledPicks s = [] → step s = .next s)

/-! ### The queue -/

/-- R110, R226: before RB_CONFIGURE every other queue operation faults NotConfigured, EV_SB's decode too (R244); once
configured, the host's RB_DEQ and FR_DECODE fault ForegroundConsumer (R248). -/
def Obligations.QueuePreconditionsAreChecked : Prop :=
  ∀ s : State,
    (∀ i, s.ring.cfg = false → needsConfigured i → exec i s = .fault .notConfigured) ∧
    (s.ring.cfg = false → s.tr.st = .idle ∨ s.tr.st = .done → s.per.sb = true →
      exec .evSb s = .fault .notConfigured) ∧
    (∀ cap, s.ring.cfg = true → s.cpu.ctx = .foreground →
      exec .rbDeq s = .fault .foregroundConsumer ∧ exec (.frDecode cap) s = .fault .foregroundConsumer)

/-- R111: RB_CONFIGURE, its checks in order, the size it realises, and everything it leaves; then the length `N` and
the cells that its buffer operand stands for, in both forms (log 11). -/
def Obligations.RbConfigureSetsUpTheRing : Prop :=
  ∀ (buf : Buffer) (req : Word) (s : State),
    (2 ^ 31 < req.toNat → exec (.rbConfigure buf req) s = .fault .sizeOverflow) ∧
    (∀ k, req.toNat ≤ 2 ^ 31 → max req.toNat 1 ≤ 2 ^ k → (∀ j, j < k → 2 ^ j < max req.toNat 1) →
      (bufferLen s.ring buf < 2 ^ k → exec (.rbConfigure buf req) s = .fault .backingTooSmall) ∧
      (2 ^ k ≤ bufferLen s.ring buf →
        exec (.rbConfigure buf req) s = .next { s with
          ring := { cfg := true, storage := bufferCells s.ring buf, len := bufferLen s.ring buf,
                    size := BitVec.ofNat 32 (2 ^ k), head := 0, tail := 0 }
          host := hostFinish s.host })) ∧
    (∀ b : Backing, bufferLen s.ring (.given b) = b.len ∧
      (b.wf = true → bufferCells s.ring (.given b) = b.cells)) ∧
    bufferLen s.ring .inUse = s.ring.len ∧ bufferCells s.ring .inUse = s.ring.storage

/-- R112: RB_ENQ fails without a change when full, else stores at `head` and advances it; every other cell and every
other field stays. -/
def Obligations.RbEnqStoresAtHeadUnlessFull : Prop :=
  ∀ (b : Byte) (s : State), s.ring.cfg = true →
    ((s.ring.head + 1) &&& (s.ring.size - 1) = s.ring.tail →
      exec (.rbEnq b) s = .next { s with host := hostFinish (hostLog (.bool false) s.host) }) ∧
    ((s.ring.head + 1) &&& (s.ring.size - 1) ≠ s.ring.tail →
      ∃ m, exec (.rbEnq b) s = .next { s with
          ring := { s.ring with storage := m, head := (s.ring.head + 1) &&& (s.ring.size - 1) }
          host := hostFinish (hostLog (.bool true) s.host) } ∧
        memRead m s.ring.head.toNat = some b ∧
        ∀ j, j ≠ s.ring.head.toNat → memRead m j = memRead s.ring.storage j)

/-- R113, R110: RB_DEQ in interrupt context gives `none` when empty, else reads at `tail` and advances it; the value
goes to the calling arm and nothing is logged (log 8). -/
def Obligations.RbDeqReadsAtTailUnlessEmpty : Prop :=
  ∀ s : State, s.ring.cfg = true → s.cpu.ctx = .interrupt →
    (s.ring.head = s.ring.tail →
      exec .rbDeq s = .next { s with cpu := { s.cpu with armRet := some (.option none) } }) ∧
    (∀ v, s.ring.head ≠ s.ring.tail → memRead s.ring.storage s.ring.tail.toNat = some v →
      exec .rbDeq s = .next { s with
        ring := { s.ring with tail := (s.ring.tail + 1) &&& (s.ring.size - 1) }
        cpu := { s.cpu with armRet := some (.option (some v)) } }) ∧
    (s.ring.head ≠ s.ring.tail → memRead s.ring.storage s.ring.tail.toNat = none →
      exec .rbDeq s = .fault .unwrittenRead)

/-- R116: RB_ENQM step by step: the precheck, one byte a step, the two error results and `Ok`. -/
def Obligations.RbEnqmRunsByteByByte : Prop :=
  ∀ (bytes : List Byte) (s : State), s.ring.cfg = true →
    (hostSub s.host = 0 → ((s.ring.tail - s.ring.head - 1) &&& (s.ring.size - 1)).toNat < bytes.length →
      exec (.rbEnqm bytes) s = .next { s with host := hostFinish (hostLog (.err .notEnoughSpace) s.host) }) ∧
    (hostSub s.host = 0 → bytes.length ≤ ((s.ring.tail - s.ring.head - 1) &&& (s.ring.size - 1)).toNat →
      exec (.rbEnqm bytes) s = .next { s with host := hostNextSub s.host }) ∧
    (∀ i b, hostSub s.host = i + 1 → bytes[i]? = some b →
      (s.ring.head + 1) &&& (s.ring.size - 1) ≠ s.ring.tail →
      ∃ m, exec (.rbEnqm bytes) s = .next { s with
          ring := { s.ring with storage := m, head := (s.ring.head + 1) &&& (s.ring.size - 1) }
          host := hostNextSub s.host } ∧
        memRead m s.ring.head.toNat = some b ∧
        ∀ j, j ≠ s.ring.head.toNat → memRead m j = memRead s.ring.storage j) ∧
    (∀ i b, hostSub s.host = i + 1 → bytes[i]? = some b →
      (s.ring.head + 1) &&& (s.ring.size - 1) = s.ring.tail →
      exec (.rbEnqm bytes) s = .next { s with host := hostFinish (hostLog (.err (.failedAtIndex i)) s.host) }) ∧
    (hostSub s.host = bytes.length + 1 →
      exec (.rbEnqm bytes) s = .next { s with host := hostFinish (hostLog .ok s.host) })

/-- R114, R115, R119, R120: the four observers return their formula and change nothing else. The formula of RB_AVAIL
is the spec's own inference, R114: "The formula is the spec's reading of "masked subtraction" that matches the
capacity facts of §3 [derived: from rule R112 and 10_state.md rule R32]". -/
def Obligations.QueueObserversReturnTheirFormula : Prop :=
  ∀ s : State, s.ring.cfg = true →
    exec .rbAvail s = .next { s with
      host := hostFinish (hostLog (.uint ((s.ring.tail - s.ring.head - 1) &&& (s.ring.size - 1))) s.host) } ∧
    exec .rbFilled s = .next { s with
      host := hostFinish (hostLog (.uint ((s.ring.head - s.ring.tail) &&& (s.ring.size - 1))) s.host) } ∧
    exec .rbIsfull s = .next { s with
      host := hostFinish
        (hostLog (.bool (decide ((s.ring.head + 1) &&& (s.ring.size - 1) = s.ring.tail))) s.host) } ∧
    exec .rbIsempty s = .next { s with
      host := hostFinish (hostLog (.bool (decide (s.ring.head = s.ring.tail))) s.host) }

/-- R117, R118: the peeks return the byte at their index without consuming it, and fault UnwrittenRead on a cell never
written. -/
def Obligations.PeeksReadWithoutConsuming : Prop :=
  ∀ (s : State) (n : Byte), s.ring.cfg = true →
    (∀ v, memRead s.ring.storage s.ring.tail.toNat = some v →
      exec .rbPeek s = .next { s with host := hostFinish (hostLog (.byte v) s.host) }) ∧
    (memRead s.ring.storage s.ring.tail.toNat = none → exec .rbPeek s = .fault .unwrittenRead) ∧
    (∀ v, memRead s.ring.storage ((s.ring.tail + n.setWidth 32) &&& (s.ring.size - 1)).toNat = some v →
      exec (.rbPeekn n) s = .next { s with host := hostFinish (hostLog (.byte v) s.host) }) ∧
    (memRead s.ring.storage ((s.ring.tail + n.setWidth 32) &&& (s.ring.size - 1)).toNat = none →
      exec (.rbPeekn n) s = .fault .unwrittenRead)

/-- R123, R124: FR_ALIGNED tests the byte at `tail` against the tags, FR_SIZE returns the announced length plus one as
a `u8`; both fault UnwrittenRead on a cell never written. -/
def Obligations.FrameProbesReadTheHeader : Prop :=
  ∀ s : State, s.ring.cfg = true →
    (∀ t, memRead s.ring.storage s.ring.tail.toNat = some t →
      exec .frAligned s = .next { s with
        host := hostFinish
          (hostLog (.bool (decide (t = tagOf s.launch .command ∨ t = tagOf s.launch .data))) s.host) }) ∧
    (memRead s.ring.storage s.ring.tail.toNat = none → exec .frAligned s = .fault .unwrittenRead) ∧
    (∀ v, memRead s.ring.storage ((s.ring.tail + 1) &&& (s.ring.size - 1)).toNat = some v →
      exec .frSize s = .next { s with
        host := hostFinish (hostLog (.byte (BitVec.ofNat 8 ((v.toNat + 1) % 256))) s.host) }) ∧
    (memRead s.ring.storage ((s.ring.tail + 1) &&& (s.ring.size - 1)).toNat = none →
      exec .frSize s = .fault .unwrittenRead)

/-- R121: FR_ENCODE step by step: the space check, the tag, the length, the payload bytes, `true`. The result of an
enqueue is not read, so on a full ring, which the space check rules out, a byte step writes nothing and goes on
(log 20). -/
def Obligations.FrEncodeRunsByteByByte : Prop :=
  ∀ (k : Kind) (payload : List Byte) (len : Nat) (s : State),
    len ≤ 255 → len ≤ payload.length → s.ring.cfg = true →
    (hostSub s.host = 0 → ((s.ring.tail - s.ring.head - 1) &&& (s.ring.size - 1)).toNat < len + 2 →
      exec (.frEncode k payload len) s = .next { s with
        host := { s.host with pc := s.host.pc + 1, micro := none, log := s.host.log ++ [.bool false] } }) ∧
    (hostSub s.host = 0 → len + 2 ≤ ((s.ring.tail - s.ring.head - 1) &&& (s.ring.size - 1)).toNat →
      exec (.frEncode k payload len) s = .next { s with host := hostNextSub s.host }) ∧
    (∀ b, (hostSub s.host = 1 ∧ b = tagOf s.launch k) ∨ (hostSub s.host = 2 ∧ b = BitVec.ofNat 8 len) ∨
        (∃ i, i < len ∧ hostSub s.host = 3 + i ∧ payload[i]? = some b) →
      (s.ring.head + 1) &&& (s.ring.size - 1) ≠ s.ring.tail →
      ∃ m, exec (.frEncode k payload len) s = .next { s with
          ring := { s.ring with storage := m, head := (s.ring.head + 1) &&& (s.ring.size - 1) }
          host := hostNextSub s.host } ∧
        memRead m s.ring.head.toNat = some b ∧
        ∀ j, j ≠ s.ring.head.toNat → memRead m j = memRead s.ring.storage j) ∧
    (0 < hostSub s.host → hostSub s.host < 3 + len → (s.ring.head + 1) &&& (s.ring.size - 1) = s.ring.tail →
      exec (.frEncode k payload len) s = .next { s with host := hostNextSub s.host }) ∧
    (hostSub s.host = 3 + len →
      exec (.frEncode k payload len) s = .next { s with host := hostFinish (hostLog (.bool true) s.host) })

/-- R90, R226: FR_ENCODE refuses a length of 256 or more, then a payload shorter than its length, before any other
check. -/
def Obligations.FrEncodeRefusesBadOperandsFirst : Prop :=
  ∀ (k : Kind) (payload : List Byte) (len : Nat) (s : State),
    (256 ≤ len → exec (.frEncode k payload len) s = .refused .lengthTooLarge) ∧
    (len ≤ 255 → payload.length < len → exec (.frEncode k payload len) s = .refused .shortPayload)

/-- R121, R83: FR_ENCODE run to its end with no other agent between appends the whole frame to the queue. -/
def Obligations.FrEncodeQueuesTheWholeFrame : Prop :=
  ∀ (k : Kind) (payload : List Byte) (len : Nat) (s : State),
    len ≤ 255 → len ≤ payload.length → s.ring.cfg = true → RingConfigured s.ring → hostSub s.host = 0 →
    len + 2 ≤ (ringAvail s.ring).toNat →
    ∃ r, execTimes (.frEncode k payload len) (len + 4) s =
        .next { s with ring := r, host := hostFinish (hostLog (.bool true) s.host) } ∧
      queuedBytes r = queuedBytes s.ring ++ frameBytes s.launch k payload len ∧
      r.tail = s.ring.tail ∧ RingConfigured r

/-- R122, R110: FR_DECODE in interrupt context takes a whole frame that stands at `tail`: the tag to scratch[0], the
payload from scratch[1] on, `2 + L` bytes consumed, `Ok(L)` handed to the calling arm (log 8). -/
def Obligations.FrDecodeTakesTheWholeFrame : Prop :=
  ∀ (s : State) (cap : Word) (tag len : Byte) (payload : List Byte) (rest : List (Option Byte)),
    s.ring.cfg = true → RingConfigured s.ring → s.cpu.ctx = .interrupt → payload.length = len.toNat →
    queuedBytes s.ring = (tag :: len :: payload).map some ++ rest → gateAccepts s.launch tag →
    len.toNat + 1 ≤ cap.toNat →
    ∃ m, exec (.frDecode cap) s = .next { s with
        ring := { s.ring with
          tail := (s.ring.tail + 2 + len.setWidth 32) &&& (s.ring.size - 1) }
        fr := { s.fr with scratch := m }
        cpu := { s.cpu with armRet := some (.okLen len) } } ∧
      memRead m 0 = some tag ∧
      (∀ i, i < payload.length → memRead m (1 + i) = payload[i]?) ∧
      (∀ i, payload.length < i → memRead m i = memRead s.fr.scratch i)

/-- R122: the failing paths of FR_DECODE. A misaligned queue and a capacity too small consume nothing; a header cell
never written faults UnwrittenRead; a queue that holds less than the frame is consumed whole, its tag to `scratch[0]`
and its payload bytes to `scratch[1]` onwards, every other cell as before, and the bytes are not restored. -/
def Obligations.FrDecodeFailuresAsStated : Prop :=
  ∀ (s : State) (cap : Word), s.ring.cfg = true → s.cpu.ctx = .interrupt →
    (∀ t, s.launch.alignCheck = .strict → memRead s.ring.storage s.ring.tail.toNat = some t →
      t ≠ tagOf s.launch .command → t ≠ tagOf s.launch .data →
      exec (.frDecode cap) s = .next { s with cpu := { s.cpu with armRet := some (.err .frameMisaligned) } }) ∧
    (s.launch.alignCheck = .strict → memRead s.ring.storage s.ring.tail.toNat = none →
      exec (.frDecode cap) s = .fault .unwrittenRead) ∧
    (gateOpen s.launch s.ring → memRead s.ring.storage ((s.ring.tail + 1) &&& (s.ring.size - 1)).toNat = none →
      exec (.frDecode cap) s = .fault .unwrittenRead) ∧
    (∀ len, gateOpen s.launch s.ring →
      memRead s.ring.storage ((s.ring.tail + 1) &&& (s.ring.size - 1)).toNat = some len →
      cap.toNat < len.toNat + 1 →
      exec (.frDecode cap) s = .next { s with cpu := { s.cpu with armRet := some (.err .capacityTooSmall) } }) ∧
    (∀ len, gateOpen s.launch s.ring → RingConfigured s.ring →
      memRead s.ring.storage ((s.ring.tail + 1) &&& (s.ring.size - 1)).toNat = some len →
      len.toNat + 1 ≤ cap.toNat → (queuedBytes s.ring).length < len.toNat + 2 →
      ∃ m, exec (.frDecode cap) s = .next { s with
        ring := { s.ring with tail := s.ring.head }
        fr := { s.fr with scratch := m }
        cpu := { s.cpu with armRet := some (.err .bufferEmpty) } } ∧
        (∀ b, (queuedBytes s.ring)[0]? = some b → memRead m 0 = b) ∧
        (∀ k b, (queuedBytes s.ring)[2 + k]? = some b → memRead m (1 + k) = b) ∧
        (queuedBytes s.ring = [] → memRead m 0 = memRead s.fr.scratch 0) ∧
        (∀ i, 0 < i → (queuedBytes s.ring).length ≤ i + 1 → memRead m i = memRead s.fr.scratch i))

/-- R126: "FIFO: the bytes that successful deq calls return, in order, are the bytes of the successful enq calls": an
enqueue appends its byte behind the queued ones, and a dequeue takes the first of them. -/
def Obligations.QueueIsFirstInFirstOut : Prop :=
  (∀ (b : Byte) (s t : State), s.ring.cfg = true → RingConfigured s.ring → exec (.rbEnq b) s = .next t →
    (ringFull s.ring = false → queuedBytes t.ring = queuedBytes s.ring ++ [some b]) ∧
    (ringFull s.ring = true → queuedBytes t.ring = queuedBytes s.ring)) ∧
  (∀ (s : State) (b : Byte) (rest : List (Option Byte)), s.ring.cfg = true → RingConfigured s.ring →
    s.cpu.ctx = .interrupt → queuedBytes s.ring = some b :: rest →
    ∃ r, exec .rbDeq s = .next { s with ring := r, cpu := { s.cpu with armRet := some (.option (some b)) } } ∧
      queuedBytes r = rest)

/-- R125, R119, R120: `RB_FILLED + RB_AVAIL = size - 1`; the ring is empty exactly when nothing is filled, and full
exactly when nothing is available. -/
def Obligations.FilledAndAvailableMakeTheCapacity : Prop :=
  ∀ r : Ring, RingConfigured r →
    (ringFilled r).toNat + (ringAvail r).toNat = r.size.toNat - 1 ∧
    (ringEmpty r = true ↔ (ringFilled r).toNat = 0) ∧
    (ringFull r = true ↔ (ringAvail r).toNat = 0)

/-- R126: the round trip. FR_ENCODE on an empty ring, then FR_DECODE with capacity `cap ≥ L + 1`, returns `Ok(L)` and
reproduces the tag and the payload. -/
def Obligations.EncodedFrameDecodesToItself : Prop :=
  ∀ (k : Kind) (payload : List Byte) (len : Nat) (cap : Word) (s t : State),
    len ≤ 255 → len ≤ payload.length → s.ring.cfg = true → RingConfigured s.ring →
    s.ring.head = s.ring.tail → hostSub s.host = 0 → len + 2 ≤ (ringAvail s.ring).toNat → len + 1 ≤ cap.toNat →
    execTimes (.frEncode k payload len) (len + 4) s = .next t →
    ∃ u, exec (.frDecode cap) (enterHandler t) = .next u ∧
      u.cpu.armRet = some (.okLen (BitVec.ofNat 8 len)) ∧
      memRead u.fr.scratch 0 = some (tagOf s.launch k) ∧
      (∀ i, i < len → memRead u.fr.scratch (1 + i) = payload[i]?) ∧
      queuedBytes u.ring = []

/-- R84: the tags and the wire indicators under both settings of TAG_ENC. -/
def Obligations.TagsAndWireIndicators : Prop :=
  ∀ (l : Launch) (t : Byte),
    tagOf l .command = 0x00 ∧
    (l.tagEnc = .wireTags → tagOf l .data = 0x40 ∧ wireInd l t = .ok t) ∧
    (l.tagEnc = .smallTags → tagOf l .data = 0x01 ∧ wireInd l 0x00 = .ok 0x00 ∧ wireInd l 0x01 = .ok 0x40 ∧
      (t ≠ 0x00 → t ≠ 0x01 → wireInd l t = .error .badIndicator))

/-- R81: `addr_byte[7:1] = SLAVE_ADDR[6:0]` and `addr_byte[0] = WRITE_BIT = 0`; a `SLAVE_ADDR` of 128 or more is refused
at launch. -/
def Obligations.AddressByteAndItsRefusal : Prop :=
  (∀ l : Launch, l.slaveAddr < 128 →
    (addrByte l).toNat = 2 * l.slaveAddr ∧ launchState l = State.powerOn l) ∧
  (∀ l : Launch, 128 ≤ l.slaveAddr →
    launchState l = { State.powerOn l with refused := some .badSlaveAddr } ∧
    step (launchState l) = .refused .badSlaveAddr)

/-! ### The host's control operations -/

/-- R140, R240: BT_RESET gives every field of the transport, peripheral, channel and in-flight groups its reset value
and touches no other field. -/
def Obligations.BtResetRestoresTheBlock : Prop :=
  ∀ s : State, exec .btReset s = .next { s with
    tr := { st := .idle, addrCleared := false, complete := false, lastErr := .none }
    fr := { valid := false, curTag := 0x00, curLen := 0, scratch := [] }
    per := { sb := false, addr := false, btf := false, af := false, startReq := false, stopReq := false,
             dmaReqEn := false, phase := .bIdle, dr := none, sh := none }
    ch := { en := false, tcie := false, tc := false, mar := 0, cnt := 0 }
    host := hostFinish s.host }

/-- R142, R249: BT_KICK's two faults in order, and its effect otherwise. -/
def Obligations.BtKickRequestsOneStart : Prop :=
  ∀ s : State,
    ((s.tr.st ≠ .idle ∧ s.tr.st ≠ .done) ∨ s.per.startReq = true ∨ s.per.sb = true →
      exec .btKick s = .fault .kickNotIdle) ∧
    (s.tr.st = .idle ∨ s.tr.st = .done → s.per.startReq = false → s.per.sb = false →
      (s.per.phase ≠ .bIdle → s.per.stopReq = false → exec .btKick s = .fault .kickBeforeStop) ∧
      (s.per.phase = .bIdle ∨ s.per.stopReq = true →
        exec .btKick s = .next { s with
          tr := { s.tr with complete := false }
          per := { s.per with startReq := true }
          host := hostFinish s.host }))

/-- R143, R145: BT_WAIT holds until `complete`; BT_SETTLE holds, with SETTLE_OK, until the last byte has left the data
and shift registers. Neither changes any other state. -/
def Obligations.BtWaitAndBtSettleHold : Prop :=
  ∀ s : State,
    (s.tr.complete = true → exec .btWait s = .next { s with host := hostFinish s.host }) ∧
    (s.tr.complete = false → exec .btWait s = .next s) ∧
    (s.launch.settleOk = true → s.per.dr ≠ none ∨ s.per.sh ≠ none → exec .btSettle s = .next s) ∧
    (s.launch.settleOk = false ∨ (s.per.dr = none ∧ s.per.sh = none) →
      exec .btSettle s = .next { s with host := hostFinish s.host })

/-- R146, R246, R247: BT_STOP's two faults in order, and the request otherwise. -/
def Obligations.BtStopRequestsTheStop : Prop :=
  ∀ s : State,
    (s.tr.complete = false → exec .btStop s = .fault .stopBeforeComplete) ∧
    (s.tr.complete = true → s.per.dr ≠ none ∨ s.per.sh ≠ none → exec .btStop s = .fault .stopBeforeLatched) ∧
    (s.tr.complete = true → s.per.dr = none → s.per.sh = none →
      exec .btStop s = .next { s with per := { s.per with stopReq := true }, host := hostFinish s.host })

/-- R141, R147, R148, R149, R95: how the host reads its program. A word is one operation; WRITE_FRAME is encode, kick,
wait, settle and stop; WRITE_CMD and WRITE_DATA are it with the kind and the length of their bytes; INIT is BT_RESET
and RB_CONFIGURE. `hpc` advances when the last of them completes, and past the last entry there is none. A returned
value is appended to `hlog` (R8, R34). Of `hmicro` (R34; log 12): `none` is the first sub-step of the entry's first
operation, and the next sub-step only counts on. -/
def Obligations.HostProgramIsReadInOrder : Prop :=
  (∀ (h : HostAgent) (v : Value), hostLog v h = { h with log := h.log ++ [v] }) ∧
  (∀ h : HostAgent,
    (h.micro = none → hostOpIndex h = 0 ∧ hostSub h = 0) ∧
    (∀ op sub, h.micro = some { op := op, sub := sub } → hostOpIndex h = op ∧ hostSub h = sub) ∧
    hostNextSub h = { h with micro := some { op := hostOpIndex h, sub := hostSub h + 1 } } ∧
    (h.prog.length ≤ h.pc → hostFetch h = none)) ∧
  ∀ (h : HostAgent) (e : HostEntry), h.prog[h.pc]? = some e →
    (∀ w a, e = .op w a → hostOpIndex h = 0 →
      hostFetch h = some (w, a) ∧ hostFinish h = { h with pc := h.pc + 1, micro := none }) ∧
    (∀ k bytes len n, e = .writeFrame k bytes len ∨ (e = .writeCmd bytes ∧ k = .command ∧ len = bytes.length) ∨
        (e = .writeData bytes ∧ k = .data ∧ len = bytes.length) →
      hostOpIndex h = n →
      hostFetch h = [encode (.frEncode k bytes len), encode .btKick, encode .btWait, encode .btSettle,
        encode .btStop][n]? ∧
      (n < 4 → hostFinish h = { h with micro := some { op := n + 1, sub := 0 } }) ∧
      (n = 4 → hostFinish h = { h with pc := h.pc + 1, micro := none })) ∧
    (∀ buf req n, e = .init buf req → hostOpIndex h = n →
      hostFetch h = [encode .btReset, encode (.rbConfigure buf req)][n]? ∧
      (n = 0 → hostFinish h = { h with micro := some { op := 1, sub := 0 } }) ∧
      (n = 1 → hostFinish h = { h with pc := h.pc + 1, micro := none }))

/-! ### The transport's arms -/

/-- R160: EV_SB, with FR_DECODE(256) as R122 gives it. On a successful decode the frame registers and the address byte
are written and the state is AddressSent; on a failed one the error is recorded, a STOP requested, and the state is
Error. A fault of the decode, and a full data register (R55), are the step's fault. -/
def Obligations.EvSbDecodesTheNextFrame : Prop :=
  ∀ (s : State) (r : Ring) (m : Memory),
    s.tr.st = .idle ∨ s.tr.st = .done → s.per.sb = true → s.ring.cfg = true →
    (∀ tag len, decodeFrame s.launch 256 s.ring s.fr.scratch = .ok ⟨.ok len, r, m⟩ → memRead m 0 = some tag →
      s.per.dr = none →
      exec .evSb s = .next { s with
        ring := r
        fr := { valid := true, curTag := tag, curLen := len, scratch := m }
        per := { s.per with
          dr := some (addrByte s.launch)
          btf := false
          sb := if s.per.phase = .bAddr then false else true }
        tr := { s.tr with addrCleared := false, st := .addressSent }
        cpu := { s.cpu with ctx := .foreground } }) ∧
    (∀ e, decodeFrame s.launch 256 s.ring s.fr.scratch = .ok ⟨.error e, r, m⟩ →
      exec .evSb s = .next { s with
        ring := r
        fr := { s.fr with valid := false, scratch := m }
        per := { s.per with stopReq := true }
        tr := { s.tr with lastErr := e, st := .error }
        cpu := { s.cpu with ctx := .foreground } }) ∧
    (∀ len, decodeFrame s.launch 256 s.ring s.fr.scratch = .ok ⟨.ok len, r, m⟩ → memRead m 0 ≠ none →
      s.per.dr ≠ none → exec .evSb s = .fault .drOverwrite) ∧
    (∀ f, decodeFrame s.launch 256 s.ring s.fr.scratch = .error f → exec .evSb s = .fault f)

/-- R161: EV_ADDR. -/
def Obligations.EvAddrReleasesThePeripheral : Prop :=
  ∀ s : State, s.tr.st = .addressSent → s.tr.addrCleared = false → s.per.addr = true →
    exec .evAddr s = .next { s with
      per := { s.per with addr := false, phase := .bData }
      tr := { s.tr with addrCleared := true }
      cpu := { s.cpu with ctx := .foreground } }

/-- R162: EV_TXE sends the wire indicator of the frame's tag, and faults BadIndicator when it has none. -/
def Obligations.EvTxeSendsTheIndicator : Prop :=
  ∀ s : State, s.tr.st = .addressSent → s.tr.addrCleared = true → s.per.phase = .bData → s.per.dr = none →
    (∀ ind, wireInd s.launch s.fr.curTag = .ok ind →
      exec .evTxe s = .next { s with
        per := { s.per with dr := some ind, btf := false }
        tr := { s.tr with st := .typeByteSent }
        cpu := { s.cpu with ctx := .foreground } }) ∧
    (s.launch.tagEnc = .smallTags → s.fr.curTag ≠ 0x00 → s.fr.curTag ≠ 0x01 →
      exec .evTxe s = .fault .badIndicator)

/-- R163, R182: EV_BTF programs the channel, with an immediate completion only for a zero length under
`ZERO_LEN_TC = Immediate`. -/
def Obligations.EvBtfArmsTheChannel : Prop :=
  ∀ s : State, s.tr.st = .typeByteSent → s.per.btf = true →
    exec .evBtf s = .next { s with
      per := { s.per with dmaReqEn := true }
      ch := { en := true, tcie := true, mar := 1, cnt := s.fr.curLen.toNat,
              tc := decide (s.fr.curLen = 0 ∧ s.launch.zeroLenTc = .immediate) }
      tr := { s.tr with st := .streaming }
      cpu := { s.cpu with ctx := .foreground } }

/-- R164: ER_AF in any state; the channel, the request bit and the completion signal stay. -/
def Obligations.ErAfAbortsTheFrame : Prop :=
  ∀ s : State, s.per.af = true →
    exec .erAf s = .next { s with
      per := { s.per with af := false, stopReq := true }
      fr := { s.fr with valid := false }
      tr := { s.tr with addrCleared := false, lastErr := .busNack, st := .idle }
      cpu := { s.cpu with ctx := .foreground } }

/-- R165: DI_TC in any state. -/
def Obligations.DiTcCompletesTheFrame : Prop :=
  ∀ s : State, s.ch.tc = true → s.ch.tcie = true →
    exec .diTc s = .next { s with
      ch := { s.ch with tc := false, en := false }
      per := { s.per with dmaReqEn := false }
      tr := { s.tr with complete := true, st := .done }
      cpu := { s.cpu with ctx := .foreground } }

/-- R213: at most one EV arm is enabled at any time, and each vector is pending exactly when one of its arms is
enabled. -/
def Obligations.AtMostOneEventArmIsEnabled : Prop :=
  (∀ (s : State) (i j : Instr), i ∈ [Instr.evSb, .evAddr, .evTxe, .evBtf] →
    j ∈ [Instr.evSb, .evAddr, .evTxe, .evBtf] → agentEnabled i s = true → agentEnabled j s = true → i = j) ∧
  (∀ s : State,
    (evPending s = true ↔ ∃ i ∈ [Instr.evSb, .evAddr, .evTxe, .evBtf], agentEnabled i s = true) ∧
    (erPending s = true ↔ agentEnabled .erAf s = true) ∧
    (diPending s = true ↔ agentEnabled .diTc s = true))

/-- R214: a completion and an acknowledge failure both pending may be taken in either order; the last one names the
state, and `complete` is set either way. -/
def Obligations.ErrorAndCompletionInEitherOrder : Prop :=
  ∀ s : State, s.per.af = true → s.ch.tc = true → s.ch.tcie = true →
    (∃ t, execAll [.erAf, .diTc] s = .next t ∧ t.tr.st = .done ∧ t.tr.complete = true ∧ t.tr.lastErr = .busNack) ∧
    (∃ t, execAll [.diTc, .erAf] s = .next t ∧ t.tr.st = .idle ∧ t.tr.complete = true ∧ t.tr.lastErr = .busNack)

/-! ### The burst engine and the bus -/

/-- R180: DMA_XFER moves one byte; `ch_tc` is set on the last. -/
def Obligations.DmaXferMovesOneByte : Prop :=
  ∀ (s : State) (v : Byte), s.ch.en = true → s.per.dmaReqEn = true → s.per.phase = .bData → s.per.dr = none →
    0 < s.ch.cnt →
    (memRead s.fr.scratch s.ch.mar = some v →
      exec .dmaXfer s = .next { s with
        per := { s.per with dr := some v, btf := false }
        ch := { s.ch with mar := s.ch.mar + 1, cnt := s.ch.cnt - 1, tc := s.ch.tc || decide (s.ch.cnt = 1) } }) ∧
    (memRead s.fr.scratch s.ch.mar = none → exec .dmaXfer s = .fault .unwrittenRead)

/-- R190, R191: BUS_START puts a START on the wire; BUS_LOAD moves the data register into the shift register. -/
def Obligations.BusStartAndBusLoad : Prop :=
  ∀ s : State,
    (s.per.startReq = true → s.per.stopReq = false → s.per.phase = .bIdle →
      exec .busStart s = .next { s with
        wire := s.wire ++ [.start]
        per := { s.per with sb := true, phase := .bAddr, startReq := false } }) ∧
    (∀ b, s.per.sh = none → s.per.dr = some b → s.per.phase = .bAddr ∨ s.per.phase = .bData →
      exec .busLoad s = .next { s with per := { s.per with sh := some b, dr := none } })

/-- R192: BUS_SHIFT in the two phases it can run in, for both answers of the device; the answer counts as the next one
of the run (R194). -/
def Obligations.BusShiftSendsTheByte : Prop :=
  ∀ (s : State) (b : Byte), s.per.sh = some b →
    (s.per.phase = .bAddr →
      exec (.busShift true) s = .next { s with
        wire := s.wire ++ [.byte b true]
        per := { s.per with sh := none, addr := true, phase := .bAddrAck }
        dev := { s.dev with shifts := s.dev.shifts + 1 } }) ∧
    (s.per.phase = .bData →
      exec (.busShift true) s = .next { s with
        wire := s.wire ++ [.byte b true]
        per := { s.per with sh := none, btf := if s.per.dr = none then true else s.per.btf }
        dev := { s.dev with shifts := s.dev.shifts + 1 } }) ∧
    (s.per.phase = .bAddr ∨ s.per.phase = .bData →
      exec (.busShift false) s = .next { s with
        wire := s.wire ++ [.byte b false]
        per := { s.per with sh := none, af := true, phase := .bHalted }
        dev := { s.dev with shifts := s.dev.shifts + 1 } })

/-- R193: BUS_STOP; on an idle bus nothing is logged. -/
def Obligations.BusStopEndsTheTransaction : Prop :=
  ∀ s : State, s.per.stopReq = true → s.per.sh = none →
    exec .busStop s = .next { s with
      wire := if s.per.phase = .bIdle then s.wire else s.wire ++ [.stop]
      per := { s.per with phase := .bIdle, sb := false, addr := false, btf := false, dr := none, stopReq := false } }

/-- R196, R169: one whole transaction, every byte acknowledged, each byte shifted before the next is written. From a
requested START with a frame at the head of the queue, the wire gains exactly Start, the address byte, the wire
indicator, the payload and Stop, and the state ends in Done with `complete` set. -/
def Obligations.TransactionCarriesTheFrame : Prop :=
  ∀ (s : State) (tag len ind : Byte) (payload : List Byte) (rest : List (Option Byte)),
    s.tr.st = .idle ∨ s.tr.st = .done → s.per.startReq = true → s.per.stopReq = false → s.per.phase = .bIdle →
    PeripheralOk s.per → s.ring.cfg = true → RingConfigured s.ring → payload.length = len.toNat →
    queuedBytes s.ring = (tag :: len :: payload).map some ++ rest → gateAccepts s.launch tag →
    wireInd s.launch tag = .ok ind → 0 < len.toNat ∨ s.launch.zeroLenTc = .immediate →
    ∃ t, execAll (transactionSteps len.toNat) s = .next t ∧
      t.wire = s.wire ++ [.start, .byte (addrByte s.launch) true, .byte ind true] ++
        payload.map (fun b => WireEvent.byte b true) ++ [.stop] ∧
      t.tr.st = .done ∧ t.tr.complete = true ∧ t.per.phase = .bIdle ∧ queuedBytes t.ring = rest

/-! ### Rules about the whole machine -/

/-- An arm or a step of DMA or BUS whose guard does not hold changes nothing (R8 `hold`; the model's choice, log 6). -/
def Obligations.DisabledAgentsHold : Prop :=
  ∀ s : State,
    (¬ ((s.tr.st = .idle ∨ s.tr.st = .done) ∧ s.per.sb = true) → exec .evSb s = .next s) ∧
    (¬ (s.tr.st = .addressSent ∧ s.tr.addrCleared = false ∧ s.per.addr = true) → exec .evAddr s = .next s) ∧
    (¬ (s.tr.st = .addressSent ∧ s.tr.addrCleared = true ∧ s.per.phase = .bData ∧ s.per.dr = none) →
      exec .evTxe s = .next s) ∧
    (¬ (s.tr.st = .typeByteSent ∧ s.per.btf = true) → exec .evBtf s = .next s) ∧
    (s.per.af = false → exec .erAf s = .next s) ∧
    (¬ (s.ch.tc = true ∧ s.ch.tcie = true) → exec .diTc s = .next s) ∧
    (¬ (s.ch.en = true ∧ s.per.dmaReqEn = true ∧ s.per.phase = .bData ∧ s.per.dr = none ∧ 0 < s.ch.cnt) →
      exec .dmaXfer s = .next s) ∧
    (¬ (s.per.startReq = true ∧ s.per.stopReq = false ∧ s.per.phase = .bIdle) → exec .busStart s = .next s) ∧
    (¬ (s.per.sh = none ∧ s.per.dr ≠ none ∧ (s.per.phase = .bAddr ∨ s.per.phase = .bData)) →
      exec .busLoad s = .next s) ∧
    (∀ a, s.per.sh = none → exec (.busShift a) s = .next s) ∧
    (¬ (s.per.stopReq = true ∧ s.per.sh = none) → exec .busStop s = .next s)

/-- R217: no arm, and no step of DMA or BUS, touches the host: "the host resumes exactly where it was". -/
def Obligations.NoOtherAgentTouchesTheHost : Prop :=
  ∀ (i : Instr) (s t : State), isHostOp i = false → exec i s = .next t → t.host = s.host

/-- R21: only EV_SB, EV_TXE, EV_BTF, ER_AF, DI_TC and BT_RESET write `s.st`, and only EV_SB enters Error. -/
def Obligations.OnlyTheListedOperationsWriteTheState : Prop :=
  ∀ (i : Instr) (s t : State), exec i s = .next t →
    (¬ stateWriters i → t.tr.st = s.tr.st) ∧
    (t.tr.st = .error → s.tr.st = .error ∨ i = .evSb)

/-- R64: only the producer's operations write `head` and the storage, only the consumer's write `tail`, RB_CONFIGURE
writes both; and the consumer's operations run in interrupt context only. -/
def Obligations.ProducerAndConsumerKeepApart : Prop :=
  ∀ (i : Instr) (s t : State), exec i s = .next t →
    (¬ producerOps i → t.ring.head = s.ring.head ∧ t.ring.storage = s.ring.storage) ∧
    (¬ consumerOps i → t.ring.tail = s.ring.tail) ∧
    ((∀ buf req, i ≠ .rbConfigure buf req) → i ≠ .evSb → s.cpu.ctx = .foreground → t.ring.tail = s.ring.tail) ∧
    ((∀ buf req, i ≠ .rbConfigure buf req) →
      t.ring.cfg = s.ring.cfg ∧ t.ring.size = s.ring.size ∧ t.ring.len = s.ring.len)

/-- R33: "Only the BUS agent appends to it": every other operation leaves the wire log, and a bus step only adds at its
end. -/
def Obligations.OnlyTheBusWritesTheWire : Prop :=
  ∀ (i : Instr) (s t : State), exec i s = .next t →
    (opClass i ≠ .bus → t.wire = s.wire) ∧ wireGrows s.wire t.wire

/-- R34, R69: no step writes the host program, and none changes the launch arguments (R6). -/
def Obligations.ProgramAndLaunchAreFixed : Prop :=
  ∀ s t : State, step s = .next t → t.host.prog = s.host.prog ∧ t.launch = s.launch

/-- R31: `last_err` is an observation only: no operation's outcome depends on it, but for `last_err` itself. -/
def Obligations.LastErrIsReadByNoOperation : Prop :=
  ∀ (i : Instr) (s : State) (e : ErrCode),
    forgetLastErr (exec i (withLastErr e s)) = forgetLastErr (exec i s)

/-! ### Invariants -/

/-- R240, R242: the values the spec gives for reset, and the invariants at reset. The values of `size`, `head`, `tail`
and the storage's contents are the model's (logs 3 and 4) and are not claimed here. -/
def Obligations.ResetStateIsAsStated : Prop :=
  State.reset.tr = { st := .idle, addrCleared := false, complete := false, lastErr := .none } ∧
  State.reset.per = { sb := false, addr := false, btf := false, af := false, startReq := false, stopReq := false,
                      dmaReqEn := false, phase := .bIdle, dr := none, sh := none } ∧
  State.reset.ch = { en := false, tcie := false, tc := false, mar := 0, cnt := 0 } ∧
  State.reset.fr = { valid := false, curTag := 0x00, curLen := 0, scratch := [] } ∧
  State.reset.ring.cfg = false ∧ State.reset.ring.storage = State.reset.launch.storage0.cells ∧
  State.reset.host.pc = 0 ∧ State.reset.host.micro = none ∧ State.reset.host.log = [] ∧
  State.reset.wire = [] ∧ unmarked State.reset ∧
  txe State.reset.per = false ∧ evPending State.reset = false ∧ erPending State.reset = false ∧
  diPending State.reset = false ∧ State.reset.launch.slaveAddr < 128 ∧ MachineOk State.reset

/-- R32, R51, R126: every step keeps the ring's invariant: canonical storage inside the backing array, `size` a power
of two, `head` and `tail` inside `[0, size)`, every queued cell written. -/
def Obligations.EveryStepKeepsTheRing : Prop :=
  ∀ s t : State, RingOk s.ring → step s = .next t → RingOk t.ring

/-- R24, R26, R190 to R193: every step keeps which flags and data-path registers can be set in which phase. -/
def Obligations.EveryStepKeepsThePeripheral : Prop :=
  ∀ s t : State, PeripheralOk s.per → step s = .next t → PeripheralOk t.per

/-- R28, R29, R53: every step keeps the channel inside the scratch buffer, and the scratch cells of the frame and of an
armed channel written. -/
def Obligations.EveryStepKeepsChannelAndScratch : Prop :=
  ∀ s t : State, ChannelOk s.ch → ScratchOk s → step s = .next t → ChannelOk t.ch ∧ ScratchOk t

/-- R217, R218, R220: every step begins and ends in foreground context with no value waiting for an arm. -/
def Obligations.EveryStepEndsInTheForeground : Prop :=
  ∀ s t : State, BoundaryOk s → step s = .next t → BoundaryOk t

/-- R55, R113, R180: in a state that meets the invariants, no operation overwrites a full data register, no DMA
transfer reads a scratch cell that was never written, and no dequeue reads such a ring cell. -/
def Obligations.UnreachableFaultsDoNotArise : Prop :=
  ∀ s : State, MachineOk s →
    (∀ i, exec i s ≠ .fault .drOverwrite) ∧
    exec .dmaXfer s ≠ .fault .unwrittenRead ∧
    exec .rbDeq (enterHandler s) ≠ .fault .unwrittenRead
end

