-- ==== Sys2Proof/Laws/Memory.lean ====
section
/-! SUPPORT. Memory: read after write, and every memory operation keeps the canonical form (20_memory.md R51, R53). -/

namespace Sys2Proof.Machine

@[simp] theorem memRead_nil (i : Nat) : memRead [] i = none := rfl

@[simp] theorem memRead_memWrite_same (m : Memory) (i : Nat) (v : Byte) : memRead (memWrite m i v) i = some v := by
  induction m with
  | nil => simp [memWrite, memRead]
  | cons c rest ih =>
    obtain ⟨j, x⟩ := c
    simp only [memWrite]
    split
    · simp [memRead]
    · split <;> simp_all [memRead]

theorem memRead_memWrite_other (m : Memory) (v : Byte) {i j : Nat} (h : j ≠ i) :
    memRead (memWrite m i v) j = memRead m j := by
  induction m with
  | nil => simp [memWrite, memRead, h]
  | cons c rest ih =>
    obtain ⟨k, x⟩ := c
    simp only [memWrite]
    split
    · simp [memRead, h]
    · split
      · subst_vars; simp [memRead, h]
      · simp [memRead, ih]

theorem memRead_memWrite (m : Memory) (i j : Nat) (v : Byte) :
    memRead (memWrite m i v) j = if j = i then some v else memRead m j := by
  split
  · subst_vars; simp
  · exact memRead_memWrite_other m v ‹_›

/-- A written cell stays written whatever is written. -/
theorem memRead_memWrite_isSome {m : Memory} {j : Nat} (i : Nat) (v : Byte) (h : (memRead m j).isSome) :
    (memRead (memWrite m i v) j).isSome := by
  rw [memRead_memWrite]
  split
  · rfl
  · exact h

theorem memRises_memWrite {m : Memory} {lo i : Nat} (v : Byte) (hm : memRises lo m = true) (hi : lo ≤ i) :
    memRises lo (memWrite m i v) = true := by
  induction m generalizing lo with
  | nil => simp [memWrite, memRises, hi]
  | cons c rest ih =>
    obtain ⟨j, x⟩ := c
    simp only [memRises, Bool.and_eq_true, decide_eq_true_eq] at hm
    simp only [memWrite]
    split
    · simp [memRises, hi, hm.2]; omega
    · split
      · simp [memRises, hm.1, hm.2]
      · simp only [memRises, Bool.and_eq_true, decide_eq_true_eq]
        exact ⟨hm.1, ih hm.2 (by omega)⟩

/-- Writing a cell keeps the canonical form. -/
theorem memWrite_wf {m : Memory} (i : Nat) (v : Byte) (hm : Memory.wf m = true) : Memory.wf (memWrite m i v) = true :=
  memRises_memWrite v hm (Nat.zero_le i)

/-- Writing a cell inside the memory's bounds keeps every cell inside them. -/
theorem memBelow_memWrite {n : Nat} {m : Memory} {i : Nat} (v : Byte) (hm : memBelow n m = true) (hi : i < n) :
    memBelow n (memWrite m i v) = true := by
  induction m with
  | nil => simp [memBelow, memWrite, hi]
  | cons c rest ih =>
    obtain ⟨j, x⟩ := c
    simp only [memBelow, List.all_cons, Bool.and_eq_true, decide_eq_true_eq] at hm ih ⊢
    simp only [memWrite]
    split
    · simpa [memBelow, hi] using hm
    · split
      · simpa [memBelow] using hm
      · simpa [memBelow, hm.1] using ih hm.2

theorem backingFold_wf (n : Nat) (cells : List Host.Cell) (m : Memory) (hm : Memory.wf m = true) :
    Memory.wf (cells.foldl (fun m c => if c.1 < n then memWrite m c.1 c.2 else m) m) = true := by
  induction cells generalizing m with
  | nil => exact hm
  | cons c rest ih =>
    simp only [List.foldl_cons]
    split
    · exact ih _ (memWrite_wf _ _ hm)
    · exact ih _ hm

theorem backingFold_below (n : Nat) (cells : List Host.Cell) (m : Memory) (hm : memBelow n m = true) :
    memBelow n (cells.foldl (fun m c => if c.1 < n then memWrite m c.1 c.2 else m) m) = true := by
  induction cells generalizing m with
  | nil => exact hm
  | cons c rest ih =>
    simp only [List.foldl_cons]
    split
    · exact ih _ (memBelow_memWrite _ hm ‹_›)
    · exact ih _ hm

/-- The contents of an array operand are a canonical memory. -/
theorem backingCells_wf (b : Backing) : Memory.wf (backingCells b) = true :=
  backingFold_wf _ _ _ rfl

/-- The contents of an array operand lie inside the array. -/
theorem backingCells_below (b : Backing) : memBelow b.len (backingCells b) = true :=
  backingFold_below _ _ _ rfl

/-- Writing above every listed cell appends. -/
theorem memWrite_above {m : Memory} {i : Nat} (v : Byte) (h : memBelow i m = true) :
    memWrite m i v = m ++ [(i, v)] := by
  induction m with
  | nil => rfl
  | cons c rest ih =>
    obtain ⟨j, x⟩ := c
    simp only [memBelow, List.all_cons, Bool.and_eq_true, decide_eq_true_eq] at h
    have : ¬ i < j := by omega
    have : i ≠ j := by omega
    simp [memWrite, *, ih (by simpa [memBelow] using h.2)]

end Sys2Proof.Machine
end

