-- ==== Sys2Proof/Laws/State.lean ====
section
/-! SUPPORT. The state's small lemmas: for each named update, the groups it leaves alone and the one it writes. -/

namespace Sys2Proof.Machine

@[simp] theorem enterHandler_tr (s : State) : (enterHandler s).tr = s.tr := rfl
@[simp] theorem enterHandler_per (s : State) : (enterHandler s).per = s.per := rfl
@[simp] theorem enterHandler_ch (s : State) : (enterHandler s).ch = s.ch := rfl
@[simp] theorem enterHandler_fr (s : State) : (enterHandler s).fr = s.fr := rfl
@[simp] theorem enterHandler_ring (s : State) : (enterHandler s).ring = s.ring := rfl
@[simp] theorem enterHandler_host (s : State) : (enterHandler s).host = s.host := rfl
@[simp] theorem enterHandler_wire (s : State) : (enterHandler s).wire = s.wire := rfl
@[simp] theorem enterHandler_fault (s : State) : (enterHandler s).fault = s.fault := rfl
@[simp] theorem enterHandler_refused (s : State) : (enterHandler s).refused = s.refused := rfl
@[simp] theorem enterHandler_launch (s : State) : (enterHandler s).launch = s.launch := rfl
@[simp] theorem enterHandler_dev (s : State) : (enterHandler s).dev = s.dev := rfl
@[simp] theorem enterHandler_sch (s : State) : (enterHandler s).sch = s.sch := rfl
@[simp] theorem enterHandler_ctx (s : State) : (enterHandler s).cpu.ctx = .interrupt := rfl
@[simp] theorem enterHandler_armRet (s : State) : (enterHandler s).cpu.armRet = s.cpu.armRet := rfl

@[simp] theorem leaveHandler_tr (s : State) : (leaveHandler s).tr = s.tr := rfl
@[simp] theorem leaveHandler_per (s : State) : (leaveHandler s).per = s.per := rfl
@[simp] theorem leaveHandler_ch (s : State) : (leaveHandler s).ch = s.ch := rfl
@[simp] theorem leaveHandler_fr (s : State) : (leaveHandler s).fr = s.fr := rfl
@[simp] theorem leaveHandler_ring (s : State) : (leaveHandler s).ring = s.ring := rfl
@[simp] theorem leaveHandler_host (s : State) : (leaveHandler s).host = s.host := rfl
@[simp] theorem leaveHandler_wire (s : State) : (leaveHandler s).wire = s.wire := rfl
@[simp] theorem leaveHandler_fault (s : State) : (leaveHandler s).fault = s.fault := rfl
@[simp] theorem leaveHandler_refused (s : State) : (leaveHandler s).refused = s.refused := rfl
@[simp] theorem leaveHandler_launch (s : State) : (leaveHandler s).launch = s.launch := rfl
@[simp] theorem leaveHandler_dev (s : State) : (leaveHandler s).dev = s.dev := rfl
@[simp] theorem leaveHandler_sch (s : State) : (leaveHandler s).sch = s.sch := rfl
@[simp] theorem leaveHandler_ctx (s : State) : (leaveHandler s).cpu.ctx = .foreground := rfl
@[simp] theorem leaveHandler_armRet (s : State) : (leaveHandler s).cpu.armRet = s.cpu.armRet := rfl

@[simp] theorem ringWrite_cfg (r : Ring) (i : Word) (v : Byte) : (ringWrite r i v).cfg = r.cfg := rfl
@[simp] theorem ringWrite_len (r : Ring) (i : Word) (v : Byte) : (ringWrite r i v).len = r.len := rfl
@[simp] theorem ringWrite_size (r : Ring) (i : Word) (v : Byte) : (ringWrite r i v).size = r.size := rfl
@[simp] theorem ringWrite_head (r : Ring) (i : Word) (v : Byte) : (ringWrite r i v).head = r.head := rfl
@[simp] theorem ringWrite_tail (r : Ring) (i : Word) (v : Byte) : (ringWrite r i v).tail = r.tail := rfl
@[simp] theorem ringWrite_storage (r : Ring) (i : Word) (v : Byte) :
    (ringWrite r i v).storage = memWrite r.storage i.toNat v := rfl

@[simp] theorem ringPush_cfg (b : Byte) (r : Ring) : (ringPush b r).cfg = r.cfg := rfl
@[simp] theorem ringPush_len (b : Byte) (r : Ring) : (ringPush b r).len = r.len := rfl
@[simp] theorem ringPush_size (b : Byte) (r : Ring) : (ringPush b r).size = r.size := rfl
@[simp] theorem ringPush_tail (b : Byte) (r : Ring) : (ringPush b r).tail = r.tail := rfl
@[simp] theorem ringPush_head (b : Byte) (r : Ring) : (ringPush b r).head = ringNext r r.head := rfl
@[simp] theorem ringPush_storage (b : Byte) (r : Ring) :
    (ringPush b r).storage = memWrite r.storage r.head.toNat b := rfl

@[simp] theorem hostLog_prog (v : Value) (h : HostAgent) : (hostLog v h).prog = h.prog := rfl
@[simp] theorem hostLog_pc (v : Value) (h : HostAgent) : (hostLog v h).pc = h.pc := rfl
@[simp] theorem hostLog_micro (v : Value) (h : HostAgent) : (hostLog v h).micro = h.micro := rfl
@[simp] theorem hostLog_log (v : Value) (h : HostAgent) : (hostLog v h).log = h.log ++ [v] := rfl

@[simp] theorem hostNextSub_prog (h : HostAgent) : (hostNextSub h).prog = h.prog := rfl
@[simp] theorem hostNextSub_log (h : HostAgent) : (hostNextSub h).log = h.log := rfl
@[simp] theorem hostNextSub_pc (h : HostAgent) : (hostNextSub h).pc = h.pc := rfl
@[simp] theorem hostNextEntry_prog (h : HostAgent) : (hostNextEntry h).prog = h.prog := rfl
@[simp] theorem hostNextEntry_log (h : HostAgent) : (hostNextEntry h).log = h.log := rfl
@[simp] theorem hostNextSub_micro (h : HostAgent) :
    (hostNextSub h).micro = some { op := hostOpIndex h, sub := hostSub h + 1 } := rfl
@[simp] theorem hostNextEntry_pc (h : HostAgent) : (hostNextEntry h).pc = h.pc + 1 := rfl
@[simp] theorem hostNextEntry_micro (h : HostAgent) : (hostNextEntry h).micro = none := rfl

@[simp] theorem hostFinish_prog (h : HostAgent) : (hostFinish h).prog = h.prog := by
  unfold hostFinish; split <;> rfl
@[simp] theorem hostFinish_log (h : HostAgent) : (hostFinish h).log = h.log := by
  unfold hostFinish; split <;> rfl

@[simp] theorem flagsOfDrWrite_addr (p : Peripheral) : (flagsOfDrWrite p).addr = p.addr := rfl
@[simp] theorem flagsOfDrWrite_af (p : Peripheral) : (flagsOfDrWrite p).af = p.af := rfl
@[simp] theorem flagsOfDrWrite_startReq (p : Peripheral) : (flagsOfDrWrite p).startReq = p.startReq := rfl
@[simp] theorem flagsOfDrWrite_stopReq (p : Peripheral) : (flagsOfDrWrite p).stopReq = p.stopReq := rfl
@[simp] theorem flagsOfDrWrite_dmaReqEn (p : Peripheral) : (flagsOfDrWrite p).dmaReqEn = p.dmaReqEn := rfl
@[simp] theorem flagsOfDrWrite_phase (p : Peripheral) : (flagsOfDrWrite p).phase = p.phase := rfl
@[simp] theorem flagsOfDrWrite_dr (p : Peripheral) : (flagsOfDrWrite p).dr = p.dr := rfl
@[simp] theorem flagsOfDrWrite_sh (p : Peripheral) : (flagsOfDrWrite p).sh = p.sh := rfl
@[simp] theorem flagsOfDrWrite_btf (p : Peripheral) : (flagsOfDrWrite p).btf = false := rfl
@[simp] theorem flagsOfDrWrite_sb (p : Peripheral) :
    (flagsOfDrWrite p).sb = if p.phase = .bAddr then false else p.sb := rfl

@[simp] theorem flagsOfStop_af (p : Peripheral) : (flagsOfStop p).af = p.af := rfl
@[simp] theorem flagsOfStop_startReq (p : Peripheral) : (flagsOfStop p).startReq = p.startReq := rfl
@[simp] theorem flagsOfStop_stopReq (p : Peripheral) : (flagsOfStop p).stopReq = p.stopReq := rfl
@[simp] theorem flagsOfStop_dmaReqEn (p : Peripheral) : (flagsOfStop p).dmaReqEn = p.dmaReqEn := rfl
@[simp] theorem flagsOfStop_phase (p : Peripheral) : (flagsOfStop p).phase = p.phase := rfl
@[simp] theorem flagsOfStop_dr (p : Peripheral) : (flagsOfStop p).dr = p.dr := rfl
@[simp] theorem flagsOfStop_sh (p : Peripheral) : (flagsOfStop p).sh = p.sh := rfl

end Sys2Proof.Machine
end

