-- ==== Sys2Proof/Laws/Ops.lean ====
section
/-! SUPPORT. One lemma per shared operation that says once everything it can do; later proofs cite these instead of
unfolding the operations. -/

namespace Sys2Proof.Machine

/-! ### Outcomes -/

theorem ifConfigured_true {s : State} (k : Host.Outcome State Fault Refusal) (h : s.ring.cfg = true) :
    ifConfigured s k = k := by simp [ifConfigured, h]

theorem ifConfigured_false {s : State} (k : Host.Outcome State Fault Refusal) (h : s.ring.cfg = false) :
    ifConfigured s k = .fault .notConfigured := by simp [ifConfigured, h]

/-- A queue operation that goes on has found the ring configured. -/
theorem ifConfigured_next {s t : State} {k : Host.Outcome State Fault Refusal} (h : ifConfigured s k = .next t) :
    s.ring.cfg = true ∧ k = .next t := by
  unfold ifConfigured at h
  split at h
  · exact ⟨‹_›, h⟩
  · cases h

theorem outcomeOf_next {x : Except Fault State} {t : State} (h : outcomeOf x = .next t) : x = .ok t := by
  cases x with
  | ok u => simp only [outcomeOf] at h; cases h; rfl
  | error f => simp [outcomeOf] at h

/-- Everything an arm can do: hold, or run its body in interrupt context and return. -/
theorem takeArm_next {g : Bool} {body : State → Except Fault State} {s t : State} (h : takeArm g body s = .next t) :
    (g = false ∧ t = s) ∨ (g = true ∧ ∃ u, body (enterHandler s) = .ok u ∧ t = leaveHandler u) := by
  unfold takeArm at h
  split at h
  · rename_i hg
    right
    refine ⟨hg, ?_⟩
    cases hb : body (enterHandler s) with
    | ok u =>
      rw [hb] at h
      simp only [Host.Outcome.next.injEq] at h
      exact ⟨u, rfl, h.symm⟩
    | error f => rw [hb] at h; simp at h
  · rename_i hg
    left
    simp only [hold, Host.Outcome.next.injEq] at h
    exact ⟨by simpa using hg, h.symm⟩

theorem takeArm_of_guard {g : Bool} {body : State → Except Fault State} {s u : State} (hg : g = true)
    (hb : body (enterHandler s) = .ok u) : takeArm g body s = .next (leaveHandler u) := by
  simp [takeArm, hg, hb]

theorem takeArm_disabled {g : Bool} (body : State → Except Fault State) (s : State) (hg : g = false) :
    takeArm g body s = .next s := by simp [takeArm, hg, hold]

/-- Everything a step of DMA or BUS can do: hold, or run its body. -/
theorem takeStep_next {g : Bool} {body : State → Except Fault State} {s t : State} (h : takeStep g body s = .next t) :
    (g = false ∧ t = s) ∨ (g = true ∧ body s = .ok t) := by
  unfold takeStep at h
  split at h
  · exact .inr ⟨‹_›, outcomeOf_next h⟩
  · rename_i hg
    simp only [hold, Host.Outcome.next.injEq] at h
    exact .inl ⟨by simpa using hg, h.symm⟩

theorem takeStep_disabled {g : Bool} (body : State → Except Fault State) (s : State) (hg : g = false) :
    takeStep g body s = .next s := by simp [takeStep, hg, hold]

/-! ### The ring, the scratch buffer and the data register -/

theorem ringRead_ok {r : Ring} {i : Word} {v : Byte} : ringRead r i = .ok v ↔ memRead r.storage i.toNat = some v := by
  unfold ringRead
  cases memRead r.storage i.toNat <;> simp

theorem ringRead_error {r : Ring} {i : Word} {f : Fault} (h : ringRead r i = .error f) :
    f = .unwrittenRead ∧ memRead r.storage i.toNat = none := by
  unfold ringRead at h
  cases hm : memRead r.storage i.toNat <;> simp_all

theorem scrRead_ok {m : Memory} {i : Nat} {v : Byte} : scrRead m i = .ok v ↔ memRead m i = some v := by
  unfold scrRead
  cases memRead m i <;> simp

theorem scrRead_error {m : Memory} {i : Nat} {f : Fault} (h : scrRead m i = .error f) :
    f = .unwrittenRead ∧ memRead m i = none := by
  unfold scrRead at h
  cases hm : memRead m i <;> simp_all

/-- Everything an enqueue can do (R112). -/
theorem ringEnq_cases (b : Byte) (r : Ring) :
    (ringFull r = true ∧ ringEnq b r = (false, r)) ∨ (ringFull r = false ∧ ringEnq b r = (true, ringPush b r)) := by
  cases h : ringFull r <;> simp [ringEnq, h]

/-- Everything a dequeue can do (R113). -/
theorem ringDeq_cases (r : Ring) :
    (r.head = r.tail ∧ ringDeq r = .ok (none, r)) ∨
    (∃ v, r.head ≠ r.tail ∧ memRead r.storage r.tail.toNat = some v ∧
      ringDeq r = .ok (some v, { r with tail := ringNext r r.tail })) ∨
    (r.head ≠ r.tail ∧ memRead r.storage r.tail.toNat = none ∧ ringDeq r = .error .unwrittenRead) := by
  by_cases he : r.head = r.tail
  · exact .inl ⟨he, by simp [ringDeq, ringEmpty, he]⟩
  · cases hm : memRead r.storage r.tail.toNat with
    | none => exact .inr (.inr ⟨he, rfl, by simp [ringDeq, ringEmpty, he, ringRead, hm]⟩)
    | some v => exact .inr (.inl ⟨v, he, rfl, by simp [ringDeq, ringEmpty, he, ringRead, hm]⟩)

/-- A dequeue moves nothing but `tail`. -/
theorem ringDeq_frame {r r' : Ring} {v : Option Byte} (h : ringDeq r = .ok (v, r')) :
    r' = { r with tail := r'.tail } := by
  rcases ringDeq_cases r with ⟨_, hd⟩ | ⟨w, _, _, hd⟩ | ⟨_, _, hd⟩ <;> rw [hd] at h <;> cases h <;> rfl

/-- Everything a data register write can do (R55). -/
theorem drWrite_ok {v : Byte} {p q : Peripheral} :
    drWrite v p = .ok q ↔ p.dr = none ∧ q = flagsOfDrWrite { p with dr := some v } := by
  unfold drWrite
  cases hd : p.dr <;> simp [eq_comm]

theorem drWrite_error {v : Byte} {p : Peripheral} {f : Fault} (h : drWrite v p = .error f) :
    f = .drOverwrite ∧ p.dr ≠ none := by
  unfold drWrite at h
  cases hd : p.dr <;> simp_all

/-- Well-formed operands are refused by nothing (R90). -/
theorem frameOperandRefusal_of_wf {payload : List Byte} {len : Nat} (h : frameOperandsWf payload len = true) :
    frameOperandRefusal payload len = none := by
  simp only [frameOperandsWf, Bool.and_eq_true, decide_eq_true_eq] at h
  have h1 : ¬ 256 ≤ len := by omega
  have h2 : ¬ payload.length < len := by omega
  simp [frameOperandRefusal, h1, h2]

/-! ### Reset -/

/-- The storage and the scratch buffer at reset are canonical. -/
theorem reset_memory_wf : Memory.wf State.reset.ring.storage = true ∧ Memory.wf State.reset.fr.scratch = true :=
  ⟨rfl, rfl⟩

/-- Reset is the launch of a run with the free launch arguments: its address is a 7-bit one (R81). -/
theorem reset_eq_launch : State.reset = launchState Config.launch := by
  have h : Config.launch.slaveAddr < 128 := Config.slaveAddr.isLt
  simp [launchState, h, State.reset]

/-! ### Frames -/

/-- The payload loop moves nothing of the ring but `tail` (R122). -/
theorem takePayload_frame {n i : Nat} {r r' : Ring} {m m' : Memory} {all : Bool}
    (h : takePayload n i r m = .ok (all, r', m')) : r' = { r with tail := r'.tail } := by
  induction n generalizing i r m with
  | zero => simp only [takePayload] at h; cases h; rfl
  | succ n ih =>
    simp only [takePayload] at h
    rcases ringDeq_cases r with ⟨_, hd⟩ | ⟨w, _, _, hd⟩ | ⟨_, _, hd⟩ <;> simp only [hd] at h
    · cases h; rfl
    · rw [ih h]
    · cases h

/-- A decode moves nothing of the ring but `tail` (R122, R64). -/
theorem decodeBody_frame {r : Ring} {m : Memory} {d : FrameDecode} (h : decodeBody r m = .ok d) :
    d.ring = { r with tail := d.ring.tail } := by
  unfold decodeBody at h
  cases h1 : ringDeq r with
  | error f => simp [h1] at h
  | ok x =>
    obtain ⟨v1, r1⟩ := x
    have e1 := ringDeq_frame h1
    cases v1 with
    | none => simp only [h1] at h; cases h; exact e1
    | some t =>
      simp only [h1] at h
      cases h2 : ringDeq r1 with
      | error f => simp [h2] at h
      | ok y =>
        obtain ⟨v2, r2⟩ := y
        have e2 := ringDeq_frame h2
        cases v2 with
        | none => simp only [h2] at h; cases h; rw [e2, e1]
        | some len =>
          simp only [h2] at h
          cases h3 : takePayload len.toNat 0 r2 (scrWrite m 0 t) with
          | error f => simp [h3] at h
          | ok z =>
            obtain ⟨all, r3, m3⟩ := z
            have e3 := takePayload_frame h3
            cases all <;> simp only [h3] at h <;> cases h <;> rw [e3, e2, e1]

theorem decodeFrame_frame {l : Launch} {cap : Word} {r : Ring} {m : Memory} {d : FrameDecode}
    (h : decodeFrame l cap r m = .ok d) : d.ring = { r with tail := d.ring.tail } := by
  unfold decodeFrame at h
  cases hg : decodeGate l r with
  | error f => simp [hg] at h
  | ok b =>
    cases b with
    | false => simp only [hg] at h; cases h; rfl
    | true =>
      simp only [hg] at h
      cases hr : ringRead r (ringNext r r.tail) with
      | error f => simp [hr] at h
      | ok v =>
        simp only [hr] at h
        split at h
        · cases h; rfl
        · exact decodeBody_frame h

/-! ### The host's advance -/

/-- The host never rewrites its program (R34, R69). -/
theorem hostFinish_cases (h : HostAgent) :
    (hostOpIndex h + 1 < (hostEntryOps h).length ∧
      hostFinish h = { h with micro := some { op := hostOpIndex h + 1, sub := 0 } }) ∨
    ((hostEntryOps h).length ≤ hostOpIndex h + 1 ∧ hostFinish h = { h with pc := h.pc + 1, micro := none }) := by
  by_cases hl : hostOpIndex h + 1 < (hostEntryOps h).length
  · exact .inl ⟨hl, by simp [hostFinish, hl]⟩
  · exact .inr ⟨by omega, by simp [hostFinish, hl, hostNextEntry]⟩

/-! ### Steps -/

/-- A step that answers a next state starts without a stop mark (R35). -/
theorem step_next {s t : State} (h : step s = .next t) :
    s.fault = none ∧ s.refused = none ∧ runNext s = .next t := by
  unfold step at h
  cases hf : s.fault <;> cases hr : s.refused <;> simp_all

/-- What a step without a stop mark can do (R227): nothing when no agent has a step, or the choice it takes. -/
theorem runNext_cases (s : State) :
    (nextPick s = none ∧ runNext s = .next s) ∨ ∃ p u, nextPick s = some (p, u) ∧ runNext s = runPick p u := by
  unfold runNext
  cases h : nextPick s with
  | none => exact .inl ⟨rfl, rfl⟩
  | some x => exact .inr ⟨x.1, x.2, rfl, rfl⟩

/-- Choosing touches the scheduler's own record only. -/
theorem nextPick_frame {s u : State} {p : Pick} (h : nextPick s = some (p, u)) : u = { s with sch := u.sch } := by
  unfold nextPick at h
  split at h
  · cases h; rfl
  · split at h
    · cases h
    · cases h; rfl

/-- Everything running a choice can do when it answers a next state: one operation, or no step, or the wedge (R227). -/
theorem runPick_next {p : Pick} {s t : State} (h : runPick p s = .next t) :
    (∃ i, exec i s = .next t) ∨ t = s ∨ t = { s with dev := { s.dev with wedged := true } } := by
  cases p with
  | host =>
    simp only [runPick, runHost] at h
    split at h
    · simp only [hold, Host.Outcome.next.injEq] at h; exact .inr (.inl h.symm)
    · split at h
      · cases h
      · split at h
        · exact .inl ⟨_, h⟩
        · cases h
  | label w =>
    simp only [runPick, runLabel] at h
    split at h
    · cases h
    · split at h
      · exact .inl ⟨_, h⟩
      · simp only [hold, Host.Outcome.next.injEq] at h; exact .inr (.inl h.symm)
  | wedge =>
    simp only [runPick, runWedge] at h
    split at h
    · simp only [hold, Host.Outcome.next.injEq] at h; exact .inr (.inl h.symm)
    · simp only [Host.Outcome.next.injEq] at h; exact .inr (.inr h.symm)

/-- An induction over steps, packaged once: a property of states that does not look at the scheduler's record or at
the wedge and that every operation keeps is kept by every step. -/
theorem step_keeps {P : State → Prop} (hsch : ∀ s x, P s → P { s with sch := x })
    (hdev : ∀ s x, P s → P { s with dev := x }) (hexec : ∀ i s t, P s → exec i s = .next t → P t)
    {s t : State} (hs : P s) (h : step s = .next t) : P t := by
  obtain ⟨_, _, hr⟩ := step_next h
  rcases runNext_cases s with ⟨_, hn⟩ | ⟨p, u, hp, hn⟩
  · rw [hn] at hr; cases hr; exact hs
  · rw [hn] at hr
    have hu : P u := by rw [nextPick_frame hp]; exact hsch s _ hs
    rcases runPick_next hr with ⟨i, hi⟩ | rfl | rfl
    · exact hexec i u t hu hi
    · exact hu
    · exact hdev u _ hu

end Sys2Proof.Machine
end

