-- ==== Sys2Proof/Laws/PerInstr.lean ====
section
/-! SUPPORT. Facts about every operation as syntax, one lemma per constructor. WordClass: the word of an operation
carries the number of its agent class in `w[15:12]` (30_encoding.md R88, R89). -/

namespace Sys2Proof.Laws.WordClass

/-- `w[15:12]` of the operation's word is the number of its class (R89). -/
def Statement (i : Instr) : Prop := wordClass (encodeWord i) = classNibble (opClass i)

theorem rbConfigure (buf : Buffer) (req : Word) : Statement (.rbConfigure buf req) := by
  show wordClass (0x1000 : OpWord) = classNibble .queue
  decide

theorem rbEnq (b : Byte) : Statement (.rbEnq b) := by
  revert b; unfold Statement; decide

theorem rbDeq : Statement (.rbDeq) := rfl

theorem rbEnqm (bytes : List Byte) : Statement (.rbEnqm bytes) := by
  show wordClass (0x1300 : OpWord) = classNibble .queue
  decide

theorem rbAvail : Statement (.rbAvail) := rfl

theorem rbFilled : Statement (.rbFilled) := rfl

theorem rbPeek : Statement (.rbPeek) := rfl

theorem rbPeekn (n : Byte) : Statement (.rbPeekn n) := by
  revert n; unfold Statement; decide

theorem rbIsfull : Statement (.rbIsfull) := rfl

theorem rbIsempty : Statement (.rbIsempty) := rfl

theorem frEncode (k : Kind) (payload : List Byte) (len : Nat) : Statement (.frEncode k payload len) := by
  cases k
  · show wordClass (0x1A00 : OpWord) = classNibble .queue
    decide
  · show wordClass (0x1A01 : OpWord) = classNibble .queue
    decide

theorem frAligned : Statement (.frAligned) := rfl

theorem frSize : Statement (.frSize) := rfl

theorem frDecode (cap : Word) : Statement (.frDecode cap) := by
  show wordClass (0x1D00 : OpWord) = classNibble .queue
  decide

theorem btReset : Statement (.btReset) := rfl

theorem btKick : Statement (.btKick) := rfl

theorem btWait : Statement (.btWait) := rfl

theorem btSettle : Statement (.btSettle) := rfl

theorem btStop : Statement (.btStop) := rfl

theorem evSb : Statement (.evSb) := rfl

theorem evAddr : Statement (.evAddr) := rfl

theorem evTxe : Statement (.evTxe) := rfl

theorem evBtf : Statement (.evBtf) := rfl

theorem erAf : Statement (.erAf) := rfl

theorem diTc : Statement (.diTc) := rfl

theorem dmaXfer : Statement (.dmaXfer) := rfl

theorem busStart : Statement (.busStart) := rfl

theorem busLoad : Statement (.busLoad) := rfl

theorem busShift (a : Bool) : Statement (.busShift a) := by
  cases a <;> rfl

theorem busStop : Statement (.busStop) := rfl

end Sys2Proof.Laws.WordClass
end

