-- ==== Sys2Proof/Tests/Slice0.lean ====
section
/-! SUPPORT. The model's own tests: decoding of words written out from the spec's encodings (30_encoding.md R91), the
well-formedness checks, single steps whose results are the spec's own vectors (95_test_vectors.md), and a witness for
the hypotheses of each statement. -/

namespace Sys2Proof.Tests

open Sys2Proof.Machine

/-! ### Decoding: one word for every constructor, bit by bit from R88 and R91 -/

/-- The operation a word decodes to. -/
def decoded (w : OpWord) (a : Args) : Option Instr :=
  match decode w a with
  | .ok i => some i
  | .error .reservedEncoding => none

theorem test_decode_rbConfigure : decoded 0b0001000000000000 { req := 16 } = some (.rbConfigure .inUse 16) := by decide
theorem test_decode_rbEnq : decoded 0b0001000101111111 {} = some (.rbEnq 0x7F) := by decide
theorem test_decode_rbDeq : decoded 0b0001001000000000 {} = some (.rbDeq) := by decide
theorem test_decode_rbEnqm : decoded 0b0001001100000000 { bytes := [1, 2] } = some (.rbEnqm [1, 2]) := by decide
theorem test_decode_rbAvail : decoded 0b0001010000000000 {} = some (.rbAvail) := by decide
theorem test_decode_rbFilled : decoded 0b0001010100000000 {} = some (.rbFilled) := by decide
theorem test_decode_rbPeek : decoded 0b0001011000000000 {} = some (.rbPeek) := by decide
theorem test_decode_rbPeekn : decoded 0b0001011111111111 {} = some (.rbPeekn 255) := by decide
theorem test_decode_rbIsfull : decoded 0b0001100000000000 {} = some (.rbIsfull) := by decide
theorem test_decode_rbIsempty : decoded 0b0001100100000000 {} = some (.rbIsempty) := by decide
theorem test_decode_frEncode_command : decoded 0b0001101000000000 { bytes := [0xAE], len := 1 } = some (.frEncode .command [0xAE] 1) := by decide
theorem test_decode_frEncode_data : decoded 0b0001101000000001 { bytes := [0xAE], len := 1 } = some (.frEncode .data [0xAE] 1) := by decide
theorem test_decode_frAligned : decoded 0b0001101100000000 {} = some (.frAligned) := by decide
theorem test_decode_frSize : decoded 0b0001110000000000 {} = some (.frSize) := by decide
theorem test_decode_frDecode : decoded 0b0001110100000000 { cap := 8 } = some (.frDecode 8) := by decide
theorem test_decode_btReset : decoded 0b0010000000000000 {} = some (.btReset) := by decide
theorem test_decode_btKick : decoded 0b0010000100000000 {} = some (.btKick) := by decide
theorem test_decode_btWait : decoded 0b0010001000000000 {} = some (.btWait) := by decide
theorem test_decode_btSettle : decoded 0b0010001100000000 {} = some (.btSettle) := by decide
theorem test_decode_btStop : decoded 0b0010010000000000 {} = some (.btStop) := by decide
theorem test_decode_evSb : decoded 0b0011000000000000 {} = some (.evSb) := by decide
theorem test_decode_evAddr : decoded 0b0011000100000000 {} = some (.evAddr) := by decide
theorem test_decode_evTxe : decoded 0b0011001000000000 {} = some (.evTxe) := by decide
theorem test_decode_evBtf : decoded 0b0011001100000000 {} = some (.evBtf) := by decide
theorem test_decode_erAf : decoded 0b0100000000000000 {} = some (.erAf) := by decide
theorem test_decode_diTc : decoded 0b0101000000000000 {} = some (.diTc) := by decide
theorem test_decode_dmaXfer : decoded 0b0110000000000000 {} = some (.dmaXfer) := by decide
theorem test_decode_busStart : decoded 0b0111000000000000 {} = some (.busStart) := by decide
theorem test_decode_busLoad : decoded 0b0111000100000000 {} = some (.busLoad) := by decide
theorem test_decode_busShift_nack : decoded 0b0111001000000000 {} = some (.busShift false) := by decide
theorem test_decode_busShift_ack : decoded 0b0111001000000001 {} = some (.busShift true) := by decide
theorem test_decode_busStop : decoded 0b0111001100000000 {} = some (.busStop) := by decide

/-- 95_test_vectors.md L2.1: reserved words. -/
theorem test_decode_reserved :
    ([0x1A02, 0x1001, 0x7202, 0x1E00, 0x2500, 0x3400, 0x6100, 0x0000, 0x8000, 0xFFFF] : List OpWord).all
      (fun w => (decoded w {}).isNone) = true := by decide

theorem test_decodeTableWord : decodeTableWord 16 0x1A01 = some (.frEncode .data [] 0) := by decide

/-! ### Well-formedness refuses what cannot be written down (R90) -/

theorem test_wf_cells_out_of_order : (Instr.rbConfigure (.given ⟨4, [(2, 7), (1, 7)]⟩) 4).wf = false := by decide
theorem test_wf_cell_twice : (Instr.rbConfigure (.given ⟨4, [(2, 7), (2, 8)]⟩) 4).wf = false := by decide
theorem test_wf_cell_outside : (Instr.rbConfigure (.given ⟨4, [(4, 7)]⟩) 4).wf = false := by decide
theorem test_wf_length_too_large : (Instr.frEncode .data (List.replicate 256 0) 256).wf = false := by decide
theorem test_wf_short_payload : (Instr.frEncode .command [1, 2] 3).wf = false := by decide
theorem test_wf_accepts : (Instr.rbConfigure (.given ⟨4, [(1, 7), (3, 8)]⟩) 4).wf = true ∧
    (Instr.frEncode .command [1, 2] 2).wf = true := by decide

/-! ### Small states -/

/-- The launch of 95_test_vectors.md, its ACKS absent. -/
def launch0 : Launch where
  slaveAddr   := 0x3C
  tagEnc      := .wireTags
  alignCheck  := .strict
  settleOk    := true
  settleUs    := 0
  zeroLenTc   := .immediate
  initTable   := []
  prio        := []
  storage0    := { len := 16, cells := [] }
  acks        := []
  busLive     := true
  busInstance := 0
  dmaChannel  := 0

/-- A configured ring over `n` cells. -/
def ringOf (n size head tail : Nat) (cells : Memory) : Ring where
  cfg     := true
  storage := cells
  len     := n
  size    := BitVec.ofNat 32 size
  head    := BitVec.ofNat 32 head
  tail    := BitVec.ofNat 32 tail

/-- An empty ring of size 16. -/
def ring16 : Ring := ringOf 16 16 0 0 []

/-- A full ring of size 4. -/
def ringFull4 : Ring := ringOf 4 4 3 0 [(0, 1), (1, 2), (2, 3)]

/-- A ring with the frame of scenario B at its tail. -/
def ringB : Ring := ringOf 16 16 3 0 [(0, 0x00), (1, 0x01), (2, 0xAE)]

/-- The power-on state with a ring. -/
def withRing (r : Ring) : State := { State.powerOn launch0 with ring := r }

/-- The same with `hmicro` at a sub-step. -/
def atSub (r : Ring) (j : Nat) : State :=
  { withRing r with host := { HostAgent.powerOn with micro := some { op := 0, sub := j } } }

/-- A peripheral in a phase, with its two registers. -/
def perIn (phase : Phase) (dr sh : Option Byte) : Peripheral :=
  { Peripheral.reset with phase := phase, dr := dr, sh := sh }

/-- A state with a transport state and a peripheral. -/
def inState (st : TState) (p : Peripheral) : State :=
  { withRing ringB with tr := { Transport.reset with st := st }, per := p }

/-- The outcome is a next state with a property. -/
def nextHas (o : Host.Outcome State Fault Refusal) (p : State → Bool) : Bool :=
  match o with
  | .next t => p t
  | .fault _ => false
  | .refused _ => false

/-- The outcome is this fault. -/
def faultsWith (o : Host.Outcome State Fault Refusal) (f : Fault) : Bool :=
  match o with
  | .next _ => false
  | .fault g => decide (g = f)
  | .refused _ => false

/-- The outcome is this refusal. -/
def refusedWith (o : Host.Outcome State Fault Refusal) (r : Refusal) : Bool :=
  match o with
  | .next _ => false
  | .fault _ => false
  | .refused q => decide (q = r)

/-- The last result in the host's log. -/
def lastLog (s : State) : Option Value := s.host.log.getLast?

/-! ### Queue operations (95_test_vectors.md L1 and L2.2) -/

/-- Scenario A. -/
theorem test_rbConfigure_rounds_up :
    nextHas (exec (.rbConfigure (.given ⟨16, []⟩) 10) (State.powerOn launch0))
      (fun t => t.ring.size == 16 && t.ring.head == 0 && t.ring.tail == 0 && t.ring.cfg) = true := by decide
theorem test_rbConfigure_faults :
    faultsWith (exec (.rbConfigure (.given ⟨16, []⟩) 17) (State.powerOn launch0)) .backingTooSmall &&
    faultsWith (exec (.rbConfigure (.given ⟨16, []⟩) 0x80000001) (State.powerOn launch0)) .sizeOverflow = true := by
  decide
theorem test_realizedSize_vectors :
    [0, 1, 2, 3, 10, 16, 17, 0x80000000].map realizedSize = [1, 1, 2, 4, 16, 16, 32, 2147483648] := by decide
theorem test_rbEnq_wraps :
    nextHas (exec (.rbEnq 0x55) (withRing (ringOf 4 4 3 1 [(1, 1), (2, 2)])))
      (fun t => memRead t.ring.storage 3 == some 0x55 && t.ring.head == 0 && lastLog t == some (.bool true)) = true := by
  decide
theorem test_rbEnq_full :
    nextHas (exec (.rbEnq 0xA4) (withRing ringFull4))
      (fun t => t.ring == ringFull4 && lastLog t == some (.bool false)) = true := by decide
theorem test_rbDeq_in_interrupt :
    nextHas (exec .rbDeq (enterHandler (withRing (ringOf 4 4 3 2 [(2, 0xAE)]))))
      (fun t => t.cpu.armRet == some (.option (some 0xAE)) && t.ring.tail == 3) = true := by decide
theorem test_rbDeq_foreground : faultsWith (exec .rbDeq (withRing ringB)) .foregroundConsumer = true := by decide
theorem test_rbEnqm_not_enough :
    nextHas (exec (.rbEnqm [1, 2]) (withRing (ringOf 4 4 2 0 [(0, 1), (1, 2)])))
      (fun t => lastLog t == some (.err .notEnoughSpace) && t.ring.head == 2) = true := by decide
theorem test_rbEnqm_ok :
    nextHas (execTimes (.rbEnqm [1, 2, 3]) 5 (withRing (ringOf 8 8 0 0 [])))
      (fun t => lastLog t == some .ok && t.ring.head == 3 && t.host.pc == 1) = true := by decide
theorem test_rbAvail_rbFilled :
    nextHas (execAll [.rbFilled, .rbAvail] (withRing (ringOf 16 16 3 14 [])))
      (fun t => t.host.log == [.uint 5, .uint 10]) = true := by decide
theorem test_rbPeek_stale_and_unwritten :
    nextHas (exec .rbPeek (withRing (ringOf 16 16 3 3 [(3, 0x00)]))) (fun t => lastLog t == some (.byte 0)) &&
    faultsWith (exec .rbPeek (withRing (ringOf 16 16 5 5 []))) .unwrittenRead = true := by decide
theorem test_rbPeekn_wraps :
    nextHas (exec (.rbPeekn 1) (withRing (ringOf 16 16 1 15 [(0, 0x03)])))
      (fun t => lastLog t == some (.byte 3)) = true := by decide
theorem test_rbIsfull_rbIsempty_size_one :
    nextHas (execAll [.rbIsfull, .rbIsempty] (withRing (ringOf 1 1 0 0 [])))
      (fun t => t.host.log == [.bool true, .bool true]) = true := by decide
/-- Scenario B. -/
theorem test_frEncode_scenario_B :
    nextHas (execTimes (.frEncode .command [0xAE] 1) 5 (withRing ring16))
      (fun t => t.ring == ringB && lastLog t == some (.bool true)) = true := by decide
theorem test_frEncode_does_not_fit :
    nextHas (exec (.frEncode .command [1] 1) (withRing (ringOf 16 16 13 0 [])))
      (fun t => lastLog t == some (.bool false) && t.ring.head == 13) &&
    refusedWith (exec (.frEncode .command [1, 2] 3) (State.powerOn launch0)) .shortPayload = true := by decide
theorem test_frAligned_wireTags :
    nextHas (exec .frAligned (withRing (ringOf 4 4 1 0 [(0, 0x40)]))) (fun t => lastLog t == some (.bool true)) &&
    nextHas (exec .frAligned (withRing (ringOf 4 4 1 0 [(0, 0x01)]))) (fun t => lastLog t == some (.bool false)) =
      true := by decide
theorem test_frSize_wraps :
    nextHas (exec .frSize (withRing (ringOf 16 16 3 0 [(0, 0x40), (1, 0xFF)])))
      (fun t => lastLog t == some (.byte 0)) = true := by decide
theorem test_frDecode_scenario_B :
    nextHas (exec (.frDecode 8) (enterHandler (withRing ringB)))
      (fun t => t.cpu.armRet == some (.okLen 1) && t.fr.scratch == [(0, 0x00), (1, 0xAE)] && t.ring.tail == 3) =
      true := by decide
theorem test_frDecode_prefix_is_lost :
    nextHas (exec (.frDecode 256) (enterHandler (withRing (ringOf 16 16 3 0 [(0, 0), (1, 2), (2, 0xAA)]))))
      (fun t => t.cpu.armRet == some (.err .bufferEmpty) && t.ring.tail == 3) = true := by decide

/-! ### Control operations (L2.3) -/

theorem test_btReset_keeps_the_ring :
    nextHas (exec .btReset { withRing ringB with tr := ⟨.error, false, false, .frameMisaligned⟩ })
      (fun t => t.tr == .reset && t.ring == ringB && t.host.pc == 1) = true := by decide
theorem test_btKick_before_stop :
    faultsWith (exec .btKick (inState .done (perIn .bData none none))) .kickBeforeStop &&
    faultsWith (exec .btKick (inState .error .reset)) .kickNotIdle = true := by decide
theorem test_btKick_after_stop_request :
    nextHas (exec .btKick { inState .done { perIn .bData none none with stopReq := true } with
        tr := ⟨.done, true, true, .none⟩ })
      (fun t => !t.tr.complete && t.per.startReq && t.tr.st == .done) = true := by decide
theorem test_btWait_holds :
    nextHas (exec .btWait (withRing ringB)) (fun t => t.host.pc == 0) = true := by decide
theorem test_btSettle_holds :
    nextHas (exec .btSettle (inState .done (perIn .bData none (some 0xAE)))) (fun t => t.host.pc == 0) = true := by
  decide
theorem test_btStop_before_latched :
    faultsWith (exec .btStop { inState .done (perIn .bData none (some 0xAE)) with tr := ⟨.done, true, true, .none⟩ })
      .stopBeforeLatched &&
    faultsWith (exec .btStop (withRing ringB)) .stopBeforeComplete = true := by decide

/-! ### Arms (L2.4) -/

/-- The state of the EV_SB vectors: Idle, SB set, in the address phase. -/
def sbState (r : Ring) : State := { withRing r with per := { perIn .bAddr none none with sb := true } }

theorem test_evSb_sends_the_address :
    nextHas (exec .evSb (sbState ringB))
      (fun t => t.per.dr == some 0x78 && !t.per.sb && t.tr.st == .addressSent && t.fr.curLen == 1 &&
        t.fr.scratch == [(0, 0x00), (1, 0xAE)] && t.ring.tail == 3 && t.cpu.ctx == .foreground) = true := by decide
theorem test_evSb_misaligned :
    nextHas (exec .evSb (sbState (ringOf 4 4 1 0 [(0, 0x99), (1, 0x00)])))
      (fun t => t.tr.st == .error && t.tr.lastErr == .frameMisaligned && t.per.stopReq && t.per.sb &&
        t.ring.tail == 0) = true := by decide
theorem test_evAddr :
    nextHas (exec .evAddr (inState .addressSent { perIn .bAddrAck none none with addr := true }))
      (fun t => !t.per.addr && t.per.phase == .bData && t.tr.addrCleared && t.tr.st == .addressSent) = true := by
  decide
/-- The state of the EV_TXE vectors. -/
def txeState (l : Launch) (tag : Byte) : State :=
  { inState .addressSent (perIn .bData none none) with
    launch := l
    tr := ⟨.addressSent, true, false, .none⟩
    fr := { InFlight.reset with curTag := tag } }

theorem test_evTxe_sends_the_indicator :
    nextHas (exec .evTxe (txeState launch0 0x40))
      (fun t => t.per.dr == some 0x40 && t.tr.st == .typeByteSent) = true := by decide
theorem test_evTxe_bad_indicator :
    faultsWith (exec .evTxe (txeState { launch0 with tagEnc := .smallTags } 0x99)) .badIndicator &&
    nextHas (exec .evTxe (txeState { launch0 with tagEnc := .smallTags } 0x01))
      (fun t => t.per.dr == some 0x40) = true := by decide
/-- The state of the EV_BTF vectors. -/
def btfState (len : Byte) : State :=
  { inState .typeByteSent { perIn .bData none none with btf := true } with
    fr := { InFlight.reset with curLen := len } }

theorem test_evBtf_arms :
    nextHas (exec .evBtf (btfState 3))
      (fun t => t.ch == ⟨true, true, false, 1, 3⟩ && t.per.dmaReqEn && t.per.btf && t.tr.st == .streaming) = true := by
  decide
theorem test_evBtf_zero_length :
    nextHas (exec .evBtf (btfState 0)) (fun t => t.ch.tc && t.ch.cnt == 0) = true := by decide
theorem test_erAf_keeps_the_channel :
    nextHas (exec .erAf { inState .streaming { perIn .bHalted none none with af := true } with
        ch := ⟨true, true, false, 3, 1⟩ })
      (fun t => t.tr.st == .idle && t.per.stopReq && !t.per.af && t.tr.lastErr == .busNack &&
        t.ch == ⟨true, true, false, 3, 1⟩) = true := by decide
theorem test_diTc_in_idle :
    nextHas (exec .diTc { inState .idle .reset with ch := ⟨true, true, true, 2, 0⟩ })
      (fun t => t.tr.st == .done && t.tr.complete && t.ch == ⟨false, true, false, 2, 0⟩) = true := by decide

/-! ### Engine and bus (L2.5, L2.6) -/

/-- The state of the DMA_XFER vectors. -/
def xferState (cnt : Nat) (dr : Option Byte) : State :=
  { inState .streaming { perIn .bData dr none with dmaReqEn := true, btf := dr.isNone } with
    ch := ⟨true, true, false, 1, cnt⟩
    fr := { InFlight.reset with scratch := [(0, 0x00), (1, 0xAE), (2, 0xAF), (3, 0xB0)] } }

theorem test_dmaXfer_last_byte :
    nextHas (exec .dmaXfer (xferState 1 none))
      (fun t => t.per.dr == some 0xAE && t.ch == ⟨true, true, true, 2, 0⟩ && !t.per.btf) = true := by decide
theorem test_dmaXfer_not_enabled :
    nextHas (exec .dmaXfer (xferState 1 (some 0x11))) (fun t => t == xferState 1 (some 0x11)) &&
    nextHas (exec .dmaXfer (xferState 3 none)) (fun t => t.ch == ⟨true, true, false, 2, 2⟩) = true := by decide
theorem test_busStart :
    nextHas (exec .busStart (inState .idle { Peripheral.reset with startReq := true }))
      (fun t => t.wire == [.start] && t.per.sb && t.per.phase == .bAddr && !t.per.startReq) = true := by decide
theorem test_busLoad :
    nextHas (exec .busLoad (inState .addressSent (perIn .bAddr (some 0x78) none)))
      (fun t => t.per.sh == some 0x78 && t.per.dr == none && !txe t.per) = true := by decide
theorem test_busShift_address_nack :
    nextHas (exec (.busShift false) (inState .addressSent (perIn .bAddr none (some 0x78))))
      (fun t => t.wire == [.byte 0x78 false] && t.per.af && t.per.phase == .bHalted) = true := by decide
theorem test_busShift_data_ack :
    nextHas (exec (.busShift true) (inState .streaming (perIn .bData (some 0x22) (some 0x11))))
      (fun t => t.wire == [.byte 0x11 true] && !t.per.btf) &&
    nextHas (exec (.busShift true) (inState .streaming (perIn .bData none (some 0x22)))) (fun t => t.per.btf) =
      true := by decide
theorem test_busStop_drops_the_byte :
    nextHas (exec .busStop (inState .idle { perIn .bHalted (some 0x33) none with stopReq := true }))
      (fun t => t.wire == [.stop] && t.per.dr == none && t.per.phase == .bIdle && !t.per.stopReq) = true := by decide
theorem test_busStop_idle_bus :
    nextHas (exec .busStop (inState .idle { Peripheral.reset with stopReq := true }))
      (fun t => t.wire == [] && !t.per.stopReq) = true := by decide

/-! ### Steps -/

/-- The first step from reset with BT_KICK placed runs it. -/
theorem test_step_from_reset :
    nextHas (step (State.reset.withFetchWord 16 0x2100)) (fun t => t.per.startReq && t.host.pc == 1) = true := by
  decide
/-- L2.1: a handler's word in a host program. -/
theorem test_host_refuses_labels :
    refusedWith (step { withRing ringB with
        host := { HostAgent.powerOn with prog := [.op 0x3000 {}] }, sch := ⟨[.host], 0⟩ }) .notHostOp = true := by
  decide
/-- R227: with one enabled step and no schedule, that step is taken. -/
theorem test_step_takes_the_only_step :
    nextHas (step (inState .idle { Peripheral.reset with startReq := true })) (fun t => t.per.sb) = true := by decide
/-- R194: with ACKS given, the other answer is no step. -/
theorem test_acks_fix_the_answer :
    nextHas (step { inState .addressSent (perIn .bAddr none (some 0x78)) with
        launch := { launch0 with acks := [false] }, sch := ⟨[.label 0x7201], 0⟩ })
      (fun t => t.wire == [] && t.per.sh == some 0x78) = true := by decide
/-- R262: a host that waits on an idle machine hangs; R81: a bad address is refused at launch. -/
theorem test_run_ends :
    runEnd { withRing ringB with host := { HostAgent.powerOn with prog := [.op 0x2200 {}] } } = some .hung ∧
    runEnd (withRing ringB) = some .completed ∧
    runEnd (launchState { launch0 with slaveAddr := 0x80 }) = some .refused := by decide

/-! ### Witnesses: states and operands that meet the hypotheses of the statements, clause by clause -/

theorem written_of {r : Ring} (h : (queuedBytes r).all Option.isSome = true) : ∀ x ∈ queuedBytes r, x.isSome :=
  List.all_eq_true.mp h
theorem ringConfigured_ring16 : RingConfigured ring16 :=
  ⟨⟨4, by decide, by decide⟩, by decide, by decide, by decide, written_of (by decide)⟩
theorem ringConfigured_ringFull4 : RingConfigured ringFull4 :=
  ⟨⟨2, by decide, by decide⟩, by decide, by decide, by decide, written_of (by decide)⟩
theorem ringConfigured_ringB : RingConfigured ringB :=
  ⟨⟨4, by decide, by decide⟩, by decide, by decide, by decide, written_of (by decide)⟩
theorem ringOk_ringB : RingOk ringB := ⟨by decide, by decide, fun _ => ringConfigured_ringB⟩
theorem peripheralOk_reset : PeripheralOk .reset := by constructor <;> decide

/-- Encoding statements. -/
theorem witness_DecodedWord : decode 0x7201 {} = .ok (.busShift true) := rfl
theorem witness_AtMostOneRow : ∃ r, opRows[0]? = some r ∧ (0x1000 : OpWord) &&& r.mask = r.pattern :=
  ⟨_, rfl, by decide⟩
theorem witness_ReservedWords_class :
    wordClass 0x0FFF = 0 ∧ 8 ≤ (wordClass 0x8000).toNat ∧ 8 ≤ (wordClass 0xFFFF).toNat := by decide
theorem witness_ReservedWords_number :
    ([0x1E00, 0x2500, 0x3400, 0x4100, 0x5100, 0x6100, 0x7400] : List OpWord).map
      (fun w => ((wordClass w).toNat, (w.extractLsb' 8 4).toNat)) =
      [(1, 0xE), (2, 5), (3, 4), (4, 1), (5, 1), (6, 1), (7, 4)] := by decide
theorem witness_ReservedWords_immediate :
    imm8 0x1001 ≠ 0 ∧ (0x1001 : OpWord).extractLsb' 8 8 = 0x10 ∧
    (0x1A02 : OpWord).extractLsb' 8 8 = 0x1A ∧ (0x1A02 : OpWord).extractLsb' 1 7 ≠ 0 ∧
    (0x7280 : OpWord).extractLsb' 8 8 = 0x72 ∧ (0x7280 : OpWord).extractLsb' 1 7 ≠ 0 := by decide

/-- A host about to run one word, and next in the schedule. -/
def hostState (w : OpWord) : State :=
  { withRing ringB with host := { HostAgent.powerOn with prog := [.op w {}] }, sch := ⟨[.host], 0⟩ }
/-- A label next in the schedule. -/
def labelState (w : OpWord) : State := { withRing ringB with sch := ⟨[.label w], 0⟩ }

theorem witness_StepRunsTheHostOperation :
    unmarked (hostState 0x1400) ∧ (hostState 0x1400).sch.picks = [.host] ∧
    hostFetch (hostState 0x1400).host = some (0x1400, {}) ∧ decode 0x1400 {} = .ok .rbAvail ∧
    isHostOp .rbAvail = true := ⟨⟨rfl, rfl⟩, rfl, rfl, rfl, rfl⟩
theorem witness_HostRefusesWords_reserved :
    unmarked (hostState 0x2500) ∧ hostFetch (hostState 0x2500).host = some (0x2500, {}) ∧
    decode 0x2500 {} = .error .reservedEncoding := ⟨⟨rfl, rfl⟩, rfl, rfl⟩
theorem witness_HostRefusesWords_notHost :
    unmarked (hostState 0x3000) ∧ hostFetch (hostState 0x3000).host = some (0x3000, {}) ∧
    decode 0x3000 {} = .ok .evSb ∧ opClass .evSb ≠ .queue ∧ opClass .evSb ≠ .control :=
  ⟨⟨rfl, rfl⟩, rfl, rfl, by decide, by decide⟩
theorem witness_StepRunsTheLabelledAgent :
    unmarked (labelState 0x6000) ∧ (labelState 0x6000).sch.picks = [.label 0x6000] ∧
    decode 0x6000 {} = .ok .dmaXfer ∧ agentEnabled .dmaXfer (dropPick (labelState 0x6000)) = false ∧
    agentEnabled .dmaXfer (dropPick { xferState 1 none with sch := ⟨[.label 0x6000], 0⟩ }) = true :=
  ⟨⟨rfl, rfl⟩, rfl, rfl, by decide, by decide⟩
theorem witness_PlacedWord :
    unmarked (withRing ringB) ∧ decodeTableWord 16 0x7201 = some (.busShift true) ∧ opClass (.busShift true) = .bus ∧
    decodeTableWord 16 0x3000 = some .evSb ∧ opClass .evSb ≠ .bus ∧ isHostOp .evSb = false ∧
    decodeTableWord 16 0x1400 = some .rbAvail ∧ isHostOp .rbAvail = true ∧
    0 < (hostState 0x2100).host.prog.length := ⟨⟨rfl, rfl⟩, rfl, rfl, rfl, by decide, rfl, rfl, rfl, by decide⟩
theorem witness_Stops :
    unmarked (hostState 0x1200) ∧ step (hostState 0x1200) = .fault .foregroundConsumer ∧
    step (hostState 0x2500) = .refused .reservedEncoding ∧
    ({ withRing ringB with fault := some .unwrittenRead } : State).fault = some .unwrittenRead ∧
    ({ withRing ringB with refused := some .notHostOp } : State).fault = none := ⟨⟨rfl, rfl⟩, rfl, rfl, rfl, rfl⟩
/-- A host that holds in BT_WAIT while nothing else has a step. -/
def waitState : State :=
  { withRing ringB with host := { HostAgent.powerOn with prog := [.op 0x2200 {}] } }
theorem hostWaits_waitState : hostWaits waitState := ⟨0x2200, {}, rfl, .inl ⟨rfl, rfl⟩⟩
/-- A state whose only step is the START. -/
def startState : State := inState .idle { Peripheral.reset with startReq := true }
/-- The classification of ended runs (R262). -/
theorem witness_RunEnd :
    (unmarked startState ∧ enabledPicks startState ≠ []) ∧
    (unmarked (withRing ringB) ∧ enabledPicks (withRing ringB) = [] ∧
      (withRing ringB).host.pc = (withRing ringB).host.prog.length ∧ (withRing ringB).host.micro = none) ∧
    (unmarked waitState ∧ enabledPicks waitState = [] ∧ hostWaits waitState) :=
  ⟨⟨⟨rfl, rfl⟩, by decide⟩, ⟨⟨rfl, rfl⟩, by decide, rfl, rfl⟩, ⟨⟨rfl, rfl⟩, by decide, hostWaits_waitState⟩⟩
/-- A bus that has a step and may stop, with the stop next in the schedule if `ps` says so. -/
def wedgeState (ps : List Pick) : State :=
  { startState with launch := { launch0 with busLive := false }, sch := ⟨ps, 0⟩ }
theorem witness_AnyEnabledStep :
    startState.sch.picks = [] ∧ nextPick startState = some (.label 0x7000, { startState with sch := ⟨[], 1⟩ }) ∧
    Pick.label 0x7000 ∈ enabledPicks startState ∧ unmarked (withRing ringB) ∧ enabledPicks (withRing ringB) = [] :=
  ⟨rfl, rfl, by decide, ⟨rfl, rfl⟩, by decide⟩
theorem witness_AnyEnabledStep_wedge :
    unmarked (wedgeState [.wedge]) ∧ (wedgeState [.wedge]).sch.picks = [.wedge] ∧
    (wedgeState []).launch.busLive = false ∧ Pick.wedge ∈ enabledPicks (wedgeState []) ∧
    startState.launch.busLive = true := ⟨⟨rfl, rfl⟩, rfl, rfl, by decide, rfl⟩
/-- R195: a bus that has stopped has no step any more. -/
theorem test_wedge_stops_the_bus :
    nextHas (step (wedgeState [.wedge])) (fun t => t.dev.wedged && (enabledPicks t).isEmpty && t.wire == []) = true :=
  by decide
/-- R194: with ACKS the k-th shift has the k-th answer only, and with ACKS used up both. -/
theorem test_acks_choose_the_answer :
    (enabledPicks { inState .addressSent (perIn .bAddr none (some 1)) with
        launch := { launch0 with acks := [true, false] }, dev := ⟨1, false⟩ } = [.label 0x7200]) ∧
    (enabledPicks { inState .addressSent (perIn .bAddr none (some 1)) with
        launch := { launch0 with acks := [true, false] }, dev := ⟨2, false⟩ } = [.label 0x7200, .label 0x7201]) := by
  decide

/-- Queue statements. -/
theorem witness_QueuePreconditions :
    (State.powerOn launch0).ring.cfg = false ∧ needsConfigured (.frEncode .data [] 0) ∧
    ({ State.powerOn launch0 with per := { perIn .bAddr none none with sb := true } } : State).per.sb = true ∧
    (State.powerOn launch0).tr.st = .idle ∧
    (withRing ringB).ring.cfg = true ∧ (withRing ringB).cpu.ctx = .foreground :=
  ⟨rfl, ⟨rfl, by decide, fun _ _ h => nomatch h⟩, rfl, rfl, rfl, rfl⟩
theorem witness_RbConfigure :
    2 ^ 31 < (0x80000001 : Word).toNat ∧ (0x80000000 : Word).toNat ≤ 2 ^ 31 ∧
    max (17 : Word).toNat 1 ≤ 2 ^ 5 ∧ (∀ j, j < 5 → 2 ^ j < max (17 : Word).toNat 1) ∧
    bufferLen ring16 (.given ⟨31, []⟩) < 2 ^ 5 ∧ 2 ^ 5 ≤ bufferLen ring16 (.given ⟨32, []⟩) ∧
    max (0 : Word).toNat 1 ≤ 2 ^ 0 ∧ Backing.wf ⟨4, [(0, 7), (3, 8)]⟩ = true := by decide
theorem witness_RbEnq :
    ringFull4.cfg = true ∧ (ringFull4.head + 1) &&& (ringFull4.size - 1) = ringFull4.tail ∧
    ring16.cfg = true ∧ (ring16.head + 1) &&& (ring16.size - 1) ≠ ring16.tail := by decide
theorem witness_RbDeq :
    (enterHandler (withRing ringB)).cpu.ctx = .interrupt ∧ ring16.head = ring16.tail ∧
    ringB.head ≠ ringB.tail ∧ memRead ringB.storage ringB.tail.toNat = some 0 ∧
    (ringOf 4 4 1 0 []).head ≠ (ringOf 4 4 1 0 []).tail ∧ memRead (ringOf 4 4 1 0 []).storage 0 = none := by decide
theorem witness_RbEnqm :
    hostSub (withRing ringFull4).host = 0 ∧
    ((ringFull4.tail - ringFull4.head - 1) &&& (ringFull4.size - 1)).toNat < [(1 : Byte)].length ∧
    ([] : List Byte).length ≤ ((ringFull4.tail - ringFull4.head - 1) &&& (ringFull4.size - 1)).toNat ∧
    hostSub (atSub ring16 1).host = 0 + 1 ∧ [(1 : Byte)][0]? = some 1 ∧
    (ring16.head + 1) &&& (ring16.size - 1) ≠ ring16.tail ∧
    hostSub (atSub ringFull4 1).host = 0 + 1 ∧ (ringFull4.head + 1) &&& (ringFull4.size - 1) = ringFull4.tail ∧
    hostSub (atSub ring16 2).host = [(1 : Byte)].length + 1 := by decide
theorem witness_QueueObservers : (withRing ringB).ring.cfg = true := rfl
theorem witness_Peeks :
    memRead ringB.storage ringB.tail.toNat = some 0 ∧ memRead ring16.storage ring16.tail.toNat = none ∧
    memRead ringB.storage ((ringB.tail + (2 : Byte).setWidth 32) &&& (ringB.size - 1)).toNat = some 0xAE ∧
    memRead ringB.storage ((ringB.tail + (255 : Byte).setWidth 32) &&& (ringB.size - 1)).toNat = none := by decide
theorem witness_FrameProbes :
    memRead ringB.storage ringB.tail.toNat = some 0 ∧ memRead ring16.storage ring16.tail.toNat = none ∧
    memRead ringB.storage ((ringB.tail + 1) &&& (ringB.size - 1)).toNat = some 1 ∧
    memRead ring16.storage ((ring16.tail + 1) &&& (ring16.size - 1)).toNat = none := by decide
theorem witness_FrEncodeRuns :
    (1 ≤ 255 ∧ 1 ≤ [(0xAE : Byte)].length ∧ ring16.cfg = true ∧ hostSub (withRing ring16).host = 0 ∧
      1 + 2 ≤ ((ring16.tail - ring16.head - 1) &&& (ring16.size - 1)).toNat ∧
      ((ringFull4.tail - ringFull4.head - 1) &&& (ringFull4.size - 1)).toNat < 0 + 2) ∧
    hostSub (atSub ring16 1).host = 1 ∧ hostSub (atSub ring16 2).host = 2 ∧
    (hostSub (atSub ring16 3).host = 3 + 0 ∧ [(0xAE : Byte)][0]? = some 0xAE) ∧
    (ring16.head + 1) &&& (ring16.size - 1) ≠ ring16.tail ∧
    (0 < hostSub (atSub ringFull4 3).host ∧ hostSub (atSub ringFull4 3).host < 3 + 1 ∧
      (ringFull4.head + 1) &&& (ringFull4.size - 1) = ringFull4.tail) ∧
    hostSub (atSub ring16 4).host = 3 + 1 := by decide
theorem witness_FrEncodeRefuses : 256 ≤ 256 ∧ (255 ≤ 255 ∧ ([] : List Byte).length < 255) := by decide
theorem witness_FrEncodeQueues :
    13 ≤ 255 ∧ 13 ≤ (List.replicate 13 (7 : Byte)).length ∧ (withRing ring16).ring.cfg = true ∧
    RingConfigured (withRing ring16).ring ∧ hostSub (withRing ring16).host = 0 ∧
    13 + 2 ≤ (ringAvail (withRing ring16).ring).toNat :=
  ⟨by decide, by decide, rfl, ringConfigured_ring16, rfl, by decide⟩
theorem witness_FrDecodeTakes :
    RingConfigured (enterHandler (withRing ringB)).ring ∧ (enterHandler (withRing ringB)).cpu.ctx = .interrupt ∧
    [(0xAE : Byte)].length = (1 : Byte).toNat ∧
    queuedBytes (enterHandler (withRing ringB)).ring = ([0x00, 0x01, 0xAE] : List Byte).map some ++ [] ∧
    gateAccepts launch0 0x00 ∧ (1 : Byte).toNat + 1 ≤ (2 : Word).toNat :=
  ⟨ringConfigured_ringB, rfl, by decide, by decide, .inr (.inl rfl), by decide⟩
theorem witness_FrDecodeFailures :
    (launch0.alignCheck = .strict ∧ memRead (ringOf 4 4 1 0 [(0, 0x99)]).storage 0 = some 0x99 ∧
      (0x99 : Byte) ≠ tagOf launch0 .command ∧ (0x99 : Byte) ≠ tagOf launch0 .data) ∧
    memRead ring16.storage ring16.tail.toNat = none ∧
    (gateOpen launch0 (ringOf 4 4 1 0 [(0, 0x40)]) ∧
      memRead (ringOf 4 4 1 0 [(0, 0x40)]).storage ((0 + 1 : Word) &&& (4 - 1)).toNat = none) ∧
    (gateOpen launch0 ringB ∧ memRead ringB.storage ((ringB.tail + 1) &&& (ringB.size - 1)).toNat = some 1 ∧
      (1 : Word).toNat < (1 : Byte).toNat + 1) :=
  ⟨by decide, by decide, ⟨.inr ⟨0x40, by decide, .inr (by decide)⟩, by decide⟩,
    ⟨.inr ⟨0x00, by decide, .inl rfl⟩, by decide, by decide⟩⟩
/-- A frame of which the last byte is missing. -/
def ringShort : Ring := ringOf 16 16 3 0 [(0, 0), (1, 2), (2, 0xAA)]
theorem ringConfigured_ringShort : RingConfigured ringShort :=
  ⟨⟨4, by decide, by decide⟩, by decide, by decide, by decide, written_of (by decide)⟩
theorem witness_FrDecodeFailures_short :
    gateOpen { launch0 with alignCheck := .neverGates } ringShort ∧ RingConfigured ringShort ∧
    memRead ringShort.storage ((ringShort.tail + 1) &&& (ringShort.size - 1)).toNat = some 2 ∧
    (2 : Byte).toNat + 1 ≤ (3 : Word).toNat ∧ (queuedBytes ringShort).length < (2 : Byte).toNat + 2 :=
  ⟨.inl rfl, ringConfigured_ringShort, by decide, by decide, by decide⟩
theorem witness_FrDecodeFailures_scratch :
    (queuedBytes ringShort)[0]? = some (some 0) ∧ (queuedBytes ringShort)[2 + 0]? = some (some 0xAA) ∧
    0 < 2 ∧ (queuedBytes ringShort).length ≤ 2 + 1 ∧
    queuedBytes (ringOf 16 16 0 0 [(0, 0x40), (1, 0x00)]) = [] := by decide
theorem witness_FirstInFirstOut :
    (RingConfigured (withRing ring16).ring ∧ (∃ t, exec (.rbEnq 1) (withRing ring16) = .next t) ∧
      ringFull ring16 = false) ∧
    (RingConfigured ringFull4 ∧ (∃ t, exec (.rbEnq 1) (withRing ringFull4) = .next t) ∧ ringFull ringFull4 = true) ∧
    (enterHandler (withRing ringB)).cpu.ctx = .interrupt ∧
    queuedBytes ringB = some 0x00 :: [some 0x01, some 0xAE] :=
  ⟨⟨ringConfigured_ring16, ⟨_, rfl⟩, by decide⟩, ⟨ringConfigured_ringFull4, ⟨_, rfl⟩, by decide⟩, rfl, by decide⟩
/-- The ring of size 1, always full and empty (R125). -/
def ringOne : Ring := ringOf 1 1 0 0 []
theorem ringConfigured_ringOne : RingConfigured ringOne :=
  ⟨⟨0, by decide, by decide⟩, by decide, by decide, by decide, written_of (by decide)⟩
theorem witness_FilledAndAvailable : RingConfigured ringFull4 ∧ RingConfigured ringOne :=
  ⟨ringConfigured_ringFull4, ringConfigured_ringOne⟩
theorem witness_EncodedFrameDecodes :
    RingConfigured (withRing ring16).ring ∧ (withRing ring16).ring.head = (withRing ring16).ring.tail ∧
    1 + 2 ≤ (ringAvail (withRing ring16).ring).toNat ∧ 1 + 1 ≤ (2 : Word).toNat ∧
    ∃ t, execTimes (.frEncode .command [0xAE] 1) (1 + 4) (withRing ring16) = .next t :=
  ⟨ringConfigured_ring16, rfl, by decide, by decide, ⟨_, rfl⟩⟩
theorem witness_TagsAndWireIndicators :
    launch0.tagEnc = .wireTags ∧ ({ launch0 with tagEnc := .smallTags } : Launch).tagEnc = .smallTags ∧
    (0x40 : Byte) ≠ 0x00 ∧ (0x40 : Byte) ≠ 0x01 := by decide
theorem witness_AddressByte :
    ({ launch0 with slaveAddr := 127 } : Launch).slaveAddr < 128 ∧
    128 ≤ ({ launch0 with slaveAddr := 128 } : Launch).slaveAddr := by decide

/-- Control statements. -/
theorem witness_BtKick :
    (inState .error .reset).tr.st ≠ .idle ∧ (inState .error .reset).tr.st ≠ .done ∧
    startState.per.startReq = true ∧ (sbState ringB).per.sb = true ∧
    (inState .done (perIn .bData none none)).tr.st = .done ∧
    (inState .done (perIn .bData none none)).per.phase ≠ .bIdle ∧
    (inState .done (perIn .bData none none)).per.stopReq = false ∧
    (inState .done { perIn .bData none none with stopReq := true }).per.stopReq = true ∧
    (withRing ringB).tr.st = .idle ∧ (withRing ringB).per.startReq = false ∧ (withRing ringB).per.sb = false ∧
    (withRing ringB).per.phase = .bIdle := by decide
/-- A completed transfer with the data path in a given state. -/
def doneState (dr sh : Option Byte) : State :=
  { inState .done (perIn .bData dr sh) with tr := ⟨.done, true, true, .none⟩ }
theorem witness_BtWaitAndBtSettle :
    (doneState none none).tr.complete = true ∧ (withRing ringB).tr.complete = false ∧
    launch0.settleOk = true ∧ (doneState (some 1) none).per.dr ≠ none ∧ (doneState none (some 1)).per.sh ≠ none ∧
    ({ launch0 with settleOk := false } : Launch).settleOk = false ∧
    (doneState none none).per.dr = none ∧ (doneState none none).per.sh = none := by decide
theorem witness_BtStop :
    (withRing ringB).tr.complete = false ∧ (doneState (some 1) none).tr.complete = true ∧
    (doneState (some 1) none).per.dr ≠ none ∧ (doneState none (some 1)).per.sh ≠ none ∧
    (doneState none none).per.dr = none ∧ (doneState none none).per.sh = none := by decide
/-- A host at operation `n` of its first entry. -/
def hostAt (e : HostEntry) (n : Nat) : HostAgent :=
  { HostAgent.powerOn with prog := [e], micro := if n = 0 then none else some { op := n, sub := 0 } }
theorem witness_HostProgram :
    (hostAt (.op 0x2100 {}) 0).prog[0]? = some (.op 0x2100 {}) ∧ hostOpIndex (hostAt (.op 0x2100 {}) 0) = 0 ∧
    hostOpIndex (hostAt (.writeFrame .data [1] 1) 0) = 0 ∧ hostOpIndex (hostAt (.writeCmd [1]) 3) = 3 ∧
    hostOpIndex (hostAt (.writeData [1]) 4) = 4 ∧ hostOpIndex (hostAt (.init .inUse 1) 0) = 0 ∧
    hostOpIndex (hostAt (.init .inUse 1) 1) = 1 ∧ (hostAt (.op 0x2100 {}) 0).micro = none ∧
    (hostAt (.writeCmd [1]) 3).micro = some { op := 3, sub := 0 } ∧
    HostAgent.powerOn.prog.length ≤ HostAgent.powerOn.pc := by decide

/-- Statements about the arms. -/
theorem witness_EvSb_decodes :
    (sbState ringB).tr.st = .idle ∧ (sbState ringB).per.sb = true ∧ (sbState ringB).ring.cfg = true ∧
    decodeFrame launch0 256 ringB [] = .ok ⟨.ok 1, { ringB with tail := 3 }, [(0, 0x00), (1, 0xAE)]⟩ ∧
    memRead [(0, 0x00), (1, 0xAE)] 0 = some 0x00 ∧ (sbState ringB).per.dr = none ∧
    ({ sbState ringB with per := { perIn .bAddr (some 1) none with sb := true } } : State).per.dr ≠ none :=
  ⟨rfl, rfl, rfl, rfl, rfl, rfl, by decide⟩
theorem witness_EvSb_fails :
    decodeFrame launch0 256 (ringOf 4 4 2 0 [(0, 0x99), (1, 0x00)]) [] =
      .ok ⟨.error .frameMisaligned, ringOf 4 4 2 0 [(0, 0x99), (1, 0x00)], []⟩ ∧
    decodeFrame launch0 256 ring16 [] = .error .unwrittenRead := ⟨rfl, rfl⟩
theorem witness_EvAddr :
    (inState .addressSent { perIn .bAddrAck none none with addr := true }).tr.addrCleared = false ∧
    (inState .addressSent { perIn .bAddrAck none none with addr := true }).tr.st = .addressSent ∧
    (inState .addressSent { perIn .bAddrAck none none with addr := true }).per.addr = true := by decide
theorem witness_EvTxe :
    (txeState launch0 0x40).tr.st = .addressSent ∧ (txeState launch0 0x40).tr.addrCleared = true ∧
    (txeState launch0 0x40).per.phase = .bData ∧ (txeState launch0 0x40).per.dr = none ∧
    wireInd launch0 0x40 = .ok 0x40 ∧ (txeState { launch0 with tagEnc := .smallTags } 2).launch.tagEnc = .smallTags ∧
    (txeState { launch0 with tagEnc := .smallTags } 2).fr.curTag ≠ 0x00 ∧
    (txeState { launch0 with tagEnc := .smallTags } 2).fr.curTag ≠ 0x01 :=
  ⟨rfl, rfl, rfl, rfl, rfl, rfl, by decide, by decide⟩
theorem witness_EvBtf : (btfState 0).tr.st = .typeByteSent ∧ (btfState 0).per.btf = true := by decide
/-- An acknowledge failure and a completion, both pending. -/
def bothPending : State :=
  { inState .streaming { perIn .bHalted none none with af := true } with ch := ⟨true, true, true, 2, 0⟩ }
theorem witness_ErAf_DiTc :
    bothPending.per.af = true ∧ bothPending.ch.tc = true ∧ bothPending.ch.tcie = true := by decide
theorem witness_OneEventArm :
    Instr.evSb ∈ [Instr.evSb, .evAddr, .evTxe, .evBtf] ∧ agentEnabled .evSb (sbState ringB) = true ∧
    agentEnabled .evAddr (inState .addressSent { perIn .bAddrAck none none with addr := true }) = true ∧
    agentEnabled .evTxe (txeState launch0 0x40) = true ∧ agentEnabled .evBtf (btfState 0) = true ∧
    evPending (btfState 0) = true ∧ erPending bothPending = true ∧ diPending bothPending = true := by decide

/-- Statements about the engine and the bus. -/
theorem witness_DmaXfer :
    dmaXferGuard (xferState 1 none) = true ∧ 0 < (xferState 1 none).ch.cnt ∧
    memRead (xferState 1 none).fr.scratch (xferState 1 none).ch.mar = some 0xAE ∧
    memRead (btfState 1).fr.scratch 1 = none := by decide
theorem witness_BusStartAndBusLoad :
    startState.per.startReq = true ∧ startState.per.stopReq = false ∧ startState.per.phase = .bIdle ∧
    (perIn .bAddr (some 1) none).sh = none ∧ (perIn .bAddr (some 1) none).dr = some 1 ∧
    (perIn .bData (some 1) none).dr = some 1 := by decide
theorem witness_BusShift :
    (perIn .bAddr none (some 1)).sh = some 1 ∧ (perIn .bAddr none (some 1)).phase = .bAddr ∧
    (perIn .bData none (some 1)).sh = some 1 ∧ (perIn .bData none (some 1)).phase = .bData := by decide
theorem witness_BusStop :
    ({ perIn .bHalted none none with stopReq := true } : Peripheral).stopReq = true ∧
    ({ perIn .bHalted none none with stopReq := true } : Peripheral).sh = none := by decide
theorem witness_Transaction :
    startState.tr.st = .idle ∧ startState.per.startReq = true ∧ startState.per.stopReq = false ∧
    startState.per.phase = .bIdle ∧ PeripheralOk startState.per ∧ startState.ring.cfg = true ∧
    RingConfigured startState.ring ∧ [(0xAE : Byte)].length = (1 : Byte).toNat ∧
    queuedBytes startState.ring = ([0x00, 0x01, 0xAE] : List Byte).map some ++ [] ∧
    gateAccepts launch0 0x00 ∧ wireInd launch0 0x00 = .ok 0x00 ∧
    (0 < (1 : Byte).toNat ∨ launch0.zeroLenTc = .immediate) :=
  ⟨rfl, rfl, rfl, rfl, by constructor <;> decide, rfl, ringConfigured_ringB, by decide, by decide, .inr (.inl rfl),
    rfl, .inl (by decide)⟩
theorem witness_DisabledAgents :
    agentEnabled .evSb (withRing ringB) = false ∧ agentEnabled .evAddr (withRing ringB) = false ∧
    agentEnabled .evTxe (withRing ringB) = false ∧ agentEnabled .evBtf (withRing ringB) = false ∧
    (withRing ringB).per.af = false ∧ diTcGuard (withRing ringB) = false ∧ dmaXferGuard (xferState 0 none) = false ∧
    busStartGuard (withRing ringB) = false ∧ busLoadGuard (withRing ringB) = false ∧
    (withRing ringB).per.sh = none ∧ busStopGuard (withRing ringB) = false := by decide

/-- Statements about the whole machine and the invariants. -/
theorem witness_WholeMachine :
    isHostOp .busStart = false ∧ (∃ t, exec .busStart startState = .next t) ∧ ¬ stateWriters .busStart ∧
    ¬ producerOps .busStart ∧ ¬ consumerOps .busStart ∧ startState.cpu.ctx = .foreground ∧
    opClass .rbAvail ≠ .bus ∧ (∃ t, exec .rbAvail startState = .next t) ∧ (∃ t, step startState = .next t) :=
  ⟨rfl, ⟨_, rfl⟩, id, id, id, rfl, by decide, ⟨_, rfl⟩, ⟨_, rfl⟩⟩
theorem witness_OnlyEvSbEntersError :
    nextHas (exec .evSb (sbState (ringOf 4 4 2 0 [(0, 0x99), (1, 0x00)]))) (fun t => t.tr.st == .error) = true := by
  decide
theorem witness_MachineOk : MachineOk startState ∧ ∃ t, step startState = .next t :=
  ⟨⟨ringOk_ringB, ⟨by decide, by decide⟩,
    ⟨by decide, by decide, fun h => (by rcases h with h | h <;> cases h), fun _ h => absurd h (Nat.not_lt_zero _)⟩,
    by constructor <;> decide, ⟨rfl, rfl⟩⟩, ⟨_, rfl⟩⟩

end Sys2Proof.Tests
end

section
/-! The guards as propositions (R160 to R165, R180, R190 to R193), and what an agent does when its guard fails. -/

namespace Sys2Proof.Machine

/-! ### The guards -/

theorem txe_iff (p : Peripheral) : txe p = true ↔ p.phase = .bData ∧ p.dr = none := by
  simp [txe]

theorem evSbGuard_iff (s : State) :
    evSbGuard s = true ↔ (s.tr.st = .idle ∨ s.tr.st = .done) ∧ s.per.sb = true := by
  simp [evSbGuard]

theorem evAddrGuard_iff (s : State) :
    evAddrGuard s = true ↔ s.tr.st = .addressSent ∧ s.tr.addrCleared = false ∧ s.per.addr = true := by
  simp [evAddrGuard, and_assoc]

theorem evTxeGuard_iff (s : State) :
    evTxeGuard s = true ↔
      s.tr.st = .addressSent ∧ s.tr.addrCleared = true ∧ s.per.phase = .bData ∧ s.per.dr = none := by
  simp [evTxeGuard, txe_iff, and_assoc]

theorem evBtfGuard_iff (s : State) : evBtfGuard s = true ↔ s.tr.st = .typeByteSent ∧ s.per.btf = true := by
  simp [evBtfGuard]

theorem diTcGuard_iff (s : State) : diTcGuard s = true ↔ s.ch.tc = true ∧ s.ch.tcie = true := by
  simp [diTcGuard]

theorem dmaXferGuard_iff (s : State) :
    dmaXferGuard s = true ↔
      s.ch.en = true ∧ s.per.dmaReqEn = true ∧ s.per.phase = .bData ∧ s.per.dr = none ∧ 0 < s.ch.cnt := by
  simp [dmaXferGuard, txe_iff, and_assoc]

theorem busStartGuard_iff (s : State) :
    busStartGuard s = true ↔ s.per.startReq = true ∧ s.per.stopReq = false ∧ s.per.phase = .bIdle := by
  simp [busStartGuard, and_assoc]

theorem busLoadGuard_iff (s : State) :
    busLoadGuard s = true ↔
      s.per.sh = none ∧ s.per.dr ≠ none ∧ (s.per.phase = .bAddr ∨ s.per.phase = .bData) := by
  simp [busLoadGuard, Option.isSome_iff_ne_none, and_assoc]

theorem busShiftGuard_iff (s : State) : busShiftGuard s = true ↔ s.per.sh ≠ none :=
  Option.isSome_iff_ne_none

theorem busStopGuard_iff (s : State) : busStopGuard s = true ↔ s.per.stopReq = true ∧ s.per.sh = none := by
  simp [busStopGuard]

/-! ### Holding -/

/-- An interrupt arm holds where the proposition that its guard decides fails. -/
theorem takeArm_of_not {g : Bool} {P : Prop} (hg : g = true ↔ P) (body : State → Except Fault State) (s : State)
    (h : ¬ P) : takeArm g body s = .next s :=
  takeArm_disabled body s (Bool.eq_false_iff.mpr (mt hg.mp h))

/-- A step of DMA or BUS holds where the proposition that its guard decides fails. -/
theorem takeStep_of_not {g : Bool} {P : Prop} (hg : g = true ↔ P) (body : State → Except Fault State) (s : State)
    (h : ¬ P) : takeStep g body s = .next s :=
  takeStep_disabled body s (Bool.eq_false_iff.mpr (mt hg.mp h))

/-- Settles O48: every arm is `takeArm` and every step of DMA or BUS is `takeStep` of its guard, and both hold where
the guard's proposition fails. -/
theorem disabledAgentsHold : Obligations.DisabledAgentsHold := by
  unfold Obligations.DisabledAgentsHold
  intro s
  refine ⟨?evSb, ?evAddr, ?evTxe, ?evBtf, ?erAf, ?diTc, ?dmaXfer, ?busStart, ?busLoad, ?busShift, ?busStop⟩
  case evSb => exact takeArm_of_not (evSbGuard_iff s) evSbBody s
  case evAddr => exact takeArm_of_not (evAddrGuard_iff s) evAddrBody s
  case evTxe => exact takeArm_of_not (evTxeGuard_iff s) evTxeBody s
  case evBtf => exact takeArm_of_not (evBtfGuard_iff s) evBtfBody s
  case erAf => exact takeArm_disabled erAfBody s
  case diTc => exact takeArm_of_not (diTcGuard_iff s) diTcBody s
  case dmaXfer => exact takeStep_of_not (dmaXferGuard_iff s) dmaXferBody s
  case busStart => exact takeStep_of_not (busStartGuard_iff s) busStartBody s
  case busLoad => exact takeStep_of_not (busLoadGuard_iff s) busLoadBody s
  case busShift => exact fun a h => takeStep_of_not (busShiftGuard_iff s) (busShiftBody a) s (not_not_intro h)
  case busStop => exact takeStep_of_not (busStopGuard_iff s) busStopBody s

end Sys2Proof.Machine
end

section
/-! What an operation can do, said once: if `exec` answers a next state, one of these effects has happened
(40_queue.md to 44_bus_agent.md). The invariants and the frame statements are case analyses over them. -/

namespace Sys2Proof.Machine

/-- The effect of an operation that answers a next state, with what its checks and its guard have established. A host
operation also advances the host, which never rewrites its program (R34). -/
inductive ExecEffect : Instr → State → State → Prop
  /-- `hold`: an agent whose guard fails, BT_WAIT and BT_SETTLE while they wait. -/
  | hold (i : Instr) (s : State) : ExecEffect i s s
  /-- A host operation that only advances the host: an observer of the ring, the end of a wait, a failed check. -/
  | host {i : Instr} {s : State} {h : HostAgent} (hi : isHostOp i = true) (hprog : h.prog = s.host.prog) :
      ExecEffect i s { s with host := h }
  /-- RB_CONFIGURE (R111). -/
  | configure {buf : Buffer} {req : Word} {s : State} {h : HostAgent} (hreq : req.toNat ≤ 2 ^ 31)
      (hfits : realizedSize req ≤ bufferLen s.ring buf) (hprog : h.prog = s.host.prog) :
      ExecEffect (.rbConfigure buf req) s
        { s with ring := ringConfigured s.ring buf (realizedSize req), host := h }
  /-- One byte enqueued, or dropped by a full ring (R112, R116, R121). -/
  | enqueue {i : Instr} (b : Byte) {s : State} {h : HostAgent} (hi : isHostOp i = true) (hprod : producerOps i)
      (hcfg : s.ring.cfg = true) (hprog : h.prog = s.host.prog) :
      ExecEffect i s { s with ring := (ringEnq b s.ring).2, host := h }
  /-- RB_DEQ in interrupt context (R113). -/
  | dequeue {s : State} {v : Option Byte} {r : Ring} (hcfg : s.ring.cfg = true) (hctx : s.cpu.ctx = .interrupt)
      (hdeq : ringDeq s.ring = .ok (v, r)) :
      ExecEffect .rbDeq s { s with ring := r, cpu := { s.cpu with armRet := some (.option v) } }
  /-- FR_DECODE in interrupt context (R122). -/
  | decode {cap : Word} {s : State} {d : FrameDecode} (hcfg : s.ring.cfg = true) (hctx : s.cpu.ctx = .interrupt)
      (hdec : decodeFrame s.launch cap s.ring s.fr.scratch = .ok d) :
      ExecEffect (.frDecode cap) s
        { s with
          ring := d.ring
          fr := { s.fr with scratch := d.scratch }
          cpu := { s.cpu with armRet := some (decodeValue d.res) } }
  /-- BT_RESET (R140). -/
  | reset {s : State} {h : HostAgent} (hprog : h.prog = s.host.prog) :
      ExecEffect .btReset s { blockReset s with host := h }
  /-- BT_KICK (R142). -/
  | kick {s : State} {h : HostAgent} (hidle : kickNotIdle s = false) (hstop : kickBeforeStop s = false)
      (hprog : h.prog = s.host.prog) :
      ExecEffect .btKick s
        { s with tr := { s.tr with complete := false }, per := { s.per with startReq := true }, host := h }
  /-- BT_STOP (R146). -/
  | requestStop {s : State} {h : HostAgent} (hdone : s.tr.complete = true) (hlatched : byteInFlight s.per = false)
      (hprog : h.prog = s.host.prog) :
      ExecEffect .btStop s { s with per := { s.per with stopReq := true }, host := h }
  /-- EV_SB with a frame decoded (R160). -/
  | evSbOk {s : State} {len tag : Byte} {r : Ring} {m : Memory} (hguard : evSbGuard s = true)
      (hcfg : s.ring.cfg = true)
      (hdec : decodeFrame s.launch 256 s.ring s.fr.scratch = .ok ⟨.ok len, r, m⟩) (htag : memRead m 0 = some tag)
      (hdr : s.per.dr = none) :
      ExecEffect .evSb s
        { s with
          ring := r
          fr := { valid := true, curTag := tag, curLen := len, scratch := m }
          per := flagsOfDrWrite { s.per with dr := some (addrByte s.launch) }
          tr := { s.tr with addrCleared := false, st := .addressSent }
          cpu := { s.cpu with ctx := .foreground } }
  /-- EV_SB after a failed decode (R160). -/
  | evSbErr {s : State} {e : ErrCode} {r : Ring} {m : Memory} (hguard : evSbGuard s = true)
      (hcfg : s.ring.cfg = true)
      (hdec : decodeFrame s.launch 256 s.ring s.fr.scratch = .ok ⟨.error e, r, m⟩) :
      ExecEffect .evSb s
        { s with
          ring := r
          fr := { s.fr with scratch := m, valid := false }
          per := { s.per with stopReq := true }
          tr := { s.tr with lastErr := e, st := .error }
          cpu := { s.cpu with ctx := .foreground } }
  /-- EV_ADDR (R161). -/
  | evAddr {s : State} (hguard : evAddrGuard s = true) :
      ExecEffect .evAddr s
        { s with
          per := { s.per with addr := false, phase := .bData }
          tr := { s.tr with addrCleared := true }
          cpu := { s.cpu with ctx := .foreground } }
  /-- EV_TXE (R162). -/
  | evTxe {s : State} {ind : Byte} (hguard : evTxeGuard s = true) (hind : wireInd s.launch s.fr.curTag = .ok ind) :
      ExecEffect .evTxe s
        { s with
          per := flagsOfDrWrite { s.per with dr := some ind }
          tr := { s.tr with st := .typeByteSent }
          cpu := { s.cpu with ctx := .foreground } }
  /-- EV_BTF (R163). -/
  | evBtf {s : State} (hguard : evBtfGuard s = true) :
      ExecEffect .evBtf s
        { s with
          per := { s.per with dmaReqEn := true }
          ch := armedChannel s.launch.zeroLenTc s.fr.curLen
          tr := { s.tr with st := .streaming }
          cpu := { s.cpu with ctx := .foreground } }
  /-- ER_AF (R164). -/
  | erAf {s : State} (hguard : erAfGuard s = true) :
      ExecEffect .erAf s
        { s with
          per := { s.per with af := false, stopReq := true }
          fr := { s.fr with valid := false }
          tr := { s.tr with addrCleared := false, lastErr := .busNack, st := .idle }
          cpu := { s.cpu with ctx := .foreground } }
  /-- DI_TC (R165). -/
  | diTc {s : State} (hguard : diTcGuard s = true) :
      ExecEffect .diTc s
        { s with
          ch := { s.ch with tc := false, en := false }
          per := { s.per with dmaReqEn := false }
          tr := { s.tr with complete := true, st := .done }
          cpu := { s.cpu with ctx := .foreground } }
  /-- DMA_XFER (R180). -/
  | dmaXfer {s : State} {v : Byte} (hguard : dmaXferGuard s = true) (hread : memRead s.fr.scratch s.ch.mar = some v) :
      ExecEffect .dmaXfer s
        { s with per := flagsOfDrWrite { s.per with dr := some v }, ch := channelAfterXfer s.ch }
  /-- BUS_START (R190). -/
  | busStart {s : State} (hguard : busStartGuard s = true) :
      ExecEffect .busStart s
        { s with
          wire := s.wire ++ [.start]
          per := { s.per with sb := true, phase := .bAddr, startReq := false } }
  /-- BUS_LOAD (R191). -/
  | busLoad {s : State} (hguard : busLoadGuard s = true) :
      ExecEffect .busLoad s { s with per := { s.per with sh := s.per.dr, dr := none } }
  /-- BUS_SHIFT (R192). -/
  | busShift {a : Bool} {s : State} {b : Byte} (hsh : s.per.sh = some b) :
      ExecEffect (.busShift a) s
        { s with
          wire := s.wire ++ [.byte b a]
          per := flagsOfAnswer a { s.per with sh := none }
          dev := { s.dev with shifts := s.dev.shifts + 1 } }
  /-- BUS_STOP (R193). -/
  | busStop {s : State} (hguard : busStopGuard s = true) :
      ExecEffect .busStop s
        { s with
          wire := wireAfterStop s
          per := { flagsOfStop s.per with phase := .bIdle, dr := none, stopReq := false } }

/-! ### The host's endings -/

/-- `t` is `s` with its host advanced, the program unchanged: every ending of a host operation. -/
def HostAdvanced (s t : State) : Prop := ∃ h : HostAgent, h.prog = s.host.prog ∧ t = { s with host := h }

theorem hold_next {s t : State} (h : hold s = .next t) : t = s := by cases h; rfl

theorem finishOp_next {s t : State} (h : finishOp s = .next t) : HostAdvanced s t := by
  cases h; exact ⟨_, hostFinish_prog _, rfl⟩

theorem returnOp_next {v : Value} {s t : State} (h : returnOp v s = .next t) : HostAdvanced s t := by
  cases h; exact ⟨_, by simp, rfl⟩

theorem abandonOp_next {v : Value} {s t : State} (h : abandonOp v s = .next t) : HostAdvanced s t := by
  cases h; exact ⟨_, by simp, rfl⟩

theorem subStep_next {s t : State} (h : subStep s = .next t) : HostAdvanced s t := by
  cases h; exact ⟨_, hostNextSub_prog _, rfl⟩

theorem returnRead_next {x : Except Fault Value} {s t : State} (h : returnRead x s = .next t) :
    HostAdvanced s t := by
  cases x with
  | ok v => exact returnOp_next h
  | error f => cases h

/-- An operation that only advances the host. -/
theorem HostAdvanced.effect {s t : State} (h : HostAdvanced s t) {i : Instr} (hi : isHostOp i = true) :
    ExecEffect i s t := by
  obtain ⟨h', hprog, rfl⟩ := h
  exact .host hi hprog

/-! ### One operation each -/

theorem execRbConfigure_effect {buf : Buffer} {req : Word} {s t : State}
    (h : execRbConfigure buf req s = .next t) : ExecEffect (.rbConfigure buf req) s t := by
  unfold execRbConfigure at h
  split at h
  · cases h
  · split at h
    · cases h
    · obtain ⟨h', hprog, rfl⟩ := finishOp_next h
      exact .configure (by omega) (by omega) hprog

theorem execRbEnq_effect {b : Byte} {s t : State} (h : execRbEnq b s = .next t) : ExecEffect (.rbEnq b) s t := by
  obtain ⟨hcfg, h⟩ := ifConfigured_next h
  obtain ⟨h', hprog, rfl⟩ := returnOp_next h
  exact .enqueue b rfl trivial hcfg hprog

theorem execRbDeq_effect {s t : State} (h : execRbDeq s = .next t) : ExecEffect .rbDeq s t := by
  obtain ⟨hcfg, h⟩ := ifConfigured_next h
  split at h
  · cases h
  · rename_i hctx
    split at h
    · cases h
    · rename_i hdeq
      cases h
      exact .dequeue hcfg hctx hdeq

theorem execRbEnqm_effect {bytes : List Byte} {s t : State} (h : execRbEnqm bytes s = .next t) :
    ExecEffect (.rbEnqm bytes) s t := by
  obtain ⟨hcfg, h⟩ := ifConfigured_next h
  split at h
  · split at h
    · exact (returnOp_next h).effect rfl
    · exact (subStep_next h).effect rfl
  · split at h
    · exact (returnOp_next h).effect rfl
    · rename_i b _
      split at h
      · exact (returnOp_next h).effect rfl
      · rename_i r henq
        obtain ⟨h', hprog, rfl⟩ := subStep_next h
        have hr : r = (ringEnq b s.ring).2 := by rw [henq]
        rw [hr]
        exact .enqueue b rfl trivial hcfg hprog

theorem encodeSteps_effect {k : Kind} {payload : List Byte} {len : Nat} {s t : State} (hcfg : s.ring.cfg = true)
    (h : encodeSteps k payload len s = .next t) : ExecEffect (.frEncode k payload len) s t := by
  unfold encodeSteps at h
  split at h
  · split at h
    · exact (abandonOp_next h).effect rfl
    · exact (subStep_next h).effect rfl
  · split at h
    · exact (returnOp_next h).effect rfl
    · obtain ⟨h', hprog, rfl⟩ := subStep_next h
      exact .enqueue _ rfl trivial hcfg hprog

theorem execFrEncode_effect {k : Kind} {payload : List Byte} {len : Nat} {s t : State}
    (h : execFrEncode k payload len s = .next t) : ExecEffect (.frEncode k payload len) s t := by
  unfold execFrEncode at h
  split at h
  · cases h
  · obtain ⟨hcfg, h⟩ := ifConfigured_next h
    exact encodeSteps_effect hcfg h

theorem execFrDecode_effect {cap : Word} {s t : State} (h : execFrDecode cap s = .next t) :
    ExecEffect (.frDecode cap) s t := by
  obtain ⟨hcfg, h⟩ := ifConfigured_next h
  split at h
  · cases h
  · rename_i hctx
    split at h
    · cases h
    · rename_i hdec
      cases h
      exact .decode hcfg hctx hdec

theorem execBtReset_effect {s t : State} (h : execBtReset s = .next t) : ExecEffect .btReset s t := by
  obtain ⟨h', hprog, rfl⟩ := finishOp_next h
  exact .reset hprog

theorem execBtKick_effect {s t : State} (h : execBtKick s = .next t) : ExecEffect .btKick s t := by
  unfold execBtKick at h
  split at h
  · cases h
  · rename_i hidle
    split at h
    · cases h
    · rename_i hstop
      obtain ⟨h', hprog, rfl⟩ := finishOp_next h
      exact .kick (Bool.eq_false_iff.mpr hidle) (Bool.eq_false_iff.mpr hstop) hprog

theorem execBtWait_effect {s t : State} (h : execBtWait s = .next t) : ExecEffect .btWait s t := by
  unfold execBtWait at h
  split at h
  · exact (finishOp_next h).effect rfl
  · rw [hold_next h]; exact .hold _ _

theorem execBtSettle_effect {s t : State} (h : execBtSettle s = .next t) : ExecEffect .btSettle s t := by
  unfold execBtSettle at h
  split at h
  · rw [hold_next h]; exact .hold _ _
  · exact (finishOp_next h).effect rfl

theorem execBtStop_effect {s t : State} (h : execBtStop s = .next t) : ExecEffect .btStop s t := by
  unfold execBtStop at h
  split at h
  · cases h
  · rename_i hdone
    split at h
    · cases h
    · rename_i hlatched
      obtain ⟨h', hprog, rfl⟩ := finishOp_next h
      exact .requestStop (by simpa using hdone) (Bool.eq_false_iff.mpr hlatched) hprog

/-- An arm holds, or has the effect of its body, run in interrupt context and left again (R217, R218). -/
theorem takeArm_effect {i : Instr} {g : Bool} {body : State → Except Fault State} {s t : State}
    (h : takeArm g body s = .next t)
    (hbody : ∀ u, g = true → body (enterHandler s) = .ok u → ExecEffect i s (leaveHandler u)) :
    ExecEffect i s t := by
  obtain ⟨_, rfl⟩ | ⟨hg, u, hu, rfl⟩ := takeArm_next h
  · exact .hold _ _
  · exact hbody u hg hu

/-- A step of DMA or BUS holds, or has the effect of its body. -/
theorem takeStep_effect {i : Instr} {g : Bool} {body : State → Except Fault State} {s t : State}
    (h : takeStep g body s = .next t) (hbody : g = true → body s = .ok t → ExecEffect i s t) :
    ExecEffect i s t := by
  obtain ⟨_, rfl⟩ | ⟨hg, ht⟩ := takeStep_next h
  · exact .hold _ _
  · exact hbody hg ht

/-- EV_SB's success path reads the tag from the scratch buffer and fills an empty data register (R160). -/
theorem evSbOk_ok {len : Byte} {s u : State} (h : evSbOk len s = .ok u) :
    ∃ tag, memRead s.fr.scratch 0 = some tag ∧ s.per.dr = none ∧
      u = { s with
        fr := { s.fr with curTag := tag, curLen := len, valid := true }
        per := flagsOfDrWrite { s.per with dr := some (addrByte s.launch) }
        tr := { s.tr with addrCleared := false, st := .addressSent } } := by
  unfold evSbOk at h
  split at h
  · cases h
  · rename_i tag htag
    split at h
    · cases h
    · rename_i p hp
      obtain ⟨hdr, rfl⟩ := drWrite_ok.mp hp
      cases h
      exact ⟨tag, scrRead_ok.mp htag, hdr, rfl⟩

theorem execEvSb_effect {s t : State} (h : execEvSb s = .next t) : ExecEffect .evSb s t := by
  refine takeArm_effect h fun u hg hu => ?_
  unfold evSbBody at hu
  split at hu
  · rename_i hcfg
    split at hu
    · cases hu
    · rename_i hdec
      obtain ⟨tag, htag, hdr, rfl⟩ := evSbOk_ok hu
      exact .evSbOk hg hcfg hdec htag hdr
    · rename_i hdec
      cases hu
      exact .evSbErr hg hcfg hdec
  · cases hu

theorem execEvTxe_effect {s t : State} (h : execEvTxe s = .next t) : ExecEffect .evTxe s t := by
  refine takeArm_effect h fun u hg hu => ?_
  unfold evTxeBody at hu
  split at hu
  · cases hu
  · rename_i hind
    split at hu
    · cases hu
    · rename_i hp
      obtain ⟨_, rfl⟩ := drWrite_ok.mp hp
      cases hu
      exact .evTxe hg hind

theorem execDmaXfer_effect {s t : State} (h : execDmaXfer s = .next t) : ExecEffect .dmaXfer s t := by
  refine takeStep_effect h fun hg hu => ?_
  unfold dmaXferBody at hu
  split at hu
  · cases hu
  · rename_i hread
    split at hu
    · cases hu
    · rename_i hp
      obtain ⟨_, rfl⟩ := drWrite_ok.mp hp
      cases hu
      exact .dmaXfer hg (scrRead_ok.mp hread)

theorem execBusShift_effect {a : Bool} {s t : State} (h : execBusShift a s = .next t) :
    ExecEffect (.busShift a) s t := by
  refine takeStep_effect h fun _ hu => ?_
  unfold busShiftBody at hu
  split at hu
  · cases hu; exact .hold _ _
  · rename_i hsh
    cases hu
    exact .busShift hsh

/-- What every operation can do. -/
theorem exec_effect {i : Instr} {s t : State} (h : exec i s = .next t) : ExecEffect i s t := by
  cases i with
  | rbConfigure buf req => exact execRbConfigure_effect h
  | rbEnq b => exact execRbEnq_effect h
  | rbDeq => exact execRbDeq_effect h
  | rbEnqm bytes => exact execRbEnqm_effect h
  | rbAvail => exact (returnOp_next (ifConfigured_next h).2).effect rfl
  | rbFilled => exact (returnOp_next (ifConfigured_next h).2).effect rfl
  | rbPeek => exact (returnRead_next (ifConfigured_next h).2).effect rfl
  | rbPeekn n => exact (returnRead_next (ifConfigured_next h).2).effect rfl
  | rbIsfull => exact (returnOp_next (ifConfigured_next h).2).effect rfl
  | rbIsempty => exact (returnOp_next (ifConfigured_next h).2).effect rfl
  | frEncode k payload len => exact execFrEncode_effect h
  | frAligned => exact (returnRead_next (ifConfigured_next h).2).effect rfl
  | frSize => exact (returnRead_next (ifConfigured_next h).2).effect rfl
  | frDecode cap => exact execFrDecode_effect h
  | btReset => exact execBtReset_effect h
  | btKick => exact execBtKick_effect h
  | btWait => exact execBtWait_effect h
  | btSettle => exact execBtSettle_effect h
  | btStop => exact execBtStop_effect h
  | evSb => exact execEvSb_effect h
  | evAddr => exact takeArm_effect (body := evAddrBody) h fun u hg hu => by cases hu; exact .evAddr hg
  | evTxe => exact execEvTxe_effect h
  | evBtf => exact takeArm_effect (body := evBtfBody) h fun u hg hu => by cases hu; exact .evBtf hg
  | erAf => exact takeArm_effect (body := erAfBody) h fun u hg hu => by cases hu; exact .erAf hg
  | diTc => exact takeArm_effect (body := diTcBody) h fun u hg hu => by cases hu; exact .diTc hg
  | dmaXfer => exact execDmaXfer_effect h
  | busStart => exact takeStep_effect h fun hg hu => by cases hu; exact .busStart hg
  | busLoad => exact takeStep_effect h fun hg hu => by cases hu; exact .busLoad hg
  | busShift a => exact execBusShift_effect h
  | busStop => exact takeStep_effect h fun hg hu => by cases hu; exact .busStop hg

end Sys2Proof.Machine
end

section
/-! What only some operations may write (10_state.md R21, R33, R34, R69). -/

namespace Sys2Proof.Machine

/-! ### The transport state, the wire log, the program -/

/-- An operation outside R21's list leaves `st` alone. -/
theorem ExecEffect.st_eq {i : Instr} {s t : State} (h : ExecEffect i s t) (hi : ¬ stateWriters i) :
    t.tr.st = s.tr.st := by
  cases h with
  | reset | evSbOk | evSbErr | evTxe | evBtf | erAf | diTc => exact absurd trivial hi
  | _ => rfl

/-- Only EV_SB's failed decode enters Error (R160). -/
theorem ExecEffect.enters_error {i : Instr} {s t : State} (h : ExecEffect i s t) (ht : t.tr.st = .error) :
    s.tr.st = .error ∨ i = .evSb := by
  cases h with
  | reset | evTxe | evBtf | erAf | diTc => cases ht
  | evSbOk | evSbErr => exact .inr rfl
  | _ => exact .inl ht

/-- Settles O50: a case analysis over the effects of `exec_effect`. -/
theorem onlyTheListedOperationsWriteTheState : Obligations.OnlyTheListedOperationsWriteTheState := by
  unfold Obligations.OnlyTheListedOperationsWriteTheState
  exact fun i s t h => ⟨(exec_effect h).st_eq, (exec_effect h).enters_error⟩

/-- An operation of another agent than BUS leaves the wire log alone. -/
theorem ExecEffect.wire_eq {i : Instr} {s t : State} (h : ExecEffect i s t) (hi : opClass i ≠ .bus) :
    t.wire = s.wire := by
  cases h with
  | busStart | busShift | busStop => exact absurd rfl hi
  | _ => rfl

/-- A STOP adds one event at the end of the wire log, or none on an idle bus (R193). -/
theorem wireGrows_wireAfterStop (s : State) : wireGrows s.wire (wireAfterStop s) := by
  unfold wireAfterStop
  split
  · exact ⟨[], (List.append_nil _).symm⟩
  all_goals exact ⟨[.stop], rfl⟩

theorem ExecEffect.wire_grows {i : Instr} {s t : State} (h : ExecEffect i s t) : wireGrows s.wire t.wire := by
  cases h with
  | busStart | busShift => exact ⟨[_], rfl⟩
  | busStop => exact wireGrows_wireAfterStop s
  | _ => exact ⟨[], (List.append_nil _).symm⟩

/-- Settles O52: a case analysis over the effects of `exec_effect`. -/
theorem onlyTheBusWritesTheWire : Obligations.OnlyTheBusWritesTheWire := by
  unfold Obligations.OnlyTheBusWritesTheWire
  exact fun i s t h => ⟨(exec_effect h).wire_eq, (exec_effect h).wire_grows⟩

/-- No operation writes the host program or the launch arguments. -/
theorem ExecEffect.program_and_launch {i : Instr} {s t : State} (h : ExecEffect i s t) :
    t.host.prog = s.host.prog ∧ t.launch = s.launch := by
  cases h with
  | host _ hprog | configure _ _ hprog | enqueue _ _ _ _ hprog | reset hprog | kick _ _ hprog
  | requestStop _ _ hprog => exact ⟨hprog, rfl⟩
  | _ => exact ⟨rfl, rfl⟩

/-- Settles O53: the program and the launch arguments are no part of the scheduler's record or of the wedge, and no
operation writes them. -/
theorem programAndLaunchAreFixed : Obligations.ProgramAndLaunchAreFixed := by
  unfold Obligations.ProgramAndLaunchAreFixed
  intro s t h
  refine step_keeps (P := fun u => u.host.prog = s.host.prog ∧ u.launch = s.launch)
    (fun _ _ hu => hu) (fun _ _ hu => hu) (fun i u v hu hv => ?_) ⟨rfl, rfl⟩ h
  obtain ⟨hprog, hlaunch⟩ := (exec_effect hv).program_and_launch
  exact ⟨hprog.trans hu.1, hlaunch.trans hu.2⟩

end Sys2Proof.Machine
end

section
/-! `last_err` is read by no operation (R31): each operation's checks and results are the same with another
`last_err`, and what it writes forgets the old one or keeps it. -/

namespace Sys2Proof.Machine

@[simp] theorem withLastErr_per (e : ErrCode) (s : State) : (withLastErr e s).per = s.per := rfl
@[simp] theorem withLastErr_ch (e : ErrCode) (s : State) : (withLastErr e s).ch = s.ch := rfl
@[simp] theorem withLastErr_fr (e : ErrCode) (s : State) : (withLastErr e s).fr = s.fr := rfl
@[simp] theorem withLastErr_ring (e : ErrCode) (s : State) : (withLastErr e s).ring = s.ring := rfl
@[simp] theorem withLastErr_host (e : ErrCode) (s : State) : (withLastErr e s).host = s.host := rfl
@[simp] theorem withLastErr_launch (e : ErrCode) (s : State) : (withLastErr e s).launch = s.launch := rfl
@[simp] theorem withLastErr_cpu (e : ErrCode) (s : State) : (withLastErr e s).cpu = s.cpu := rfl

/-- An operation whose outcome does not depend on `last_err`. -/
def IgnoresLastErr (f : State → Host.Outcome State Fault Refusal) : Prop :=
  ∀ e s, forgetLastErr (f (withLastErr e s)) = forgetLastErr (f s)

/-! ### The shared operations -/

theorem forgetLastErr_ite {c : Prop} [Decidable c] {x x' y y' : Host.Outcome State Fault Refusal}
    (hx : forgetLastErr x = forgetLastErr x') (hy : forgetLastErr y = forgetLastErr y') :
    forgetLastErr (if c then x else y) = forgetLastErr (if c then x' else y') := by
  split
  · exact hx
  · exact hy

theorem forgetLastErr_ifConfigured {e : ErrCode} {s : State} {k k' : Host.Outcome State Fault Refusal}
    (hk : forgetLastErr k = forgetLastErr k') :
    forgetLastErr (ifConfigured (withLastErr e s) k) = forgetLastErr (ifConfigured s k') :=
  forgetLastErr_ite hk rfl

theorem returnRead_ignoresLastErr (x : Except Fault Value) : IgnoresLastErr (returnRead x) := by
  intro e s
  cases x <;> rfl

/-- Leaving the handler keeps an agreement but for `last_err`. -/
theorem forgetLastErr_leaveHandler {t u : State} (h : forgetLastErr (.next t) = forgetLastErr (.next u)) :
    forgetLastErr (.next (leaveHandler t)) = forgetLastErr (.next (leaveHandler u)) := by
  simp only [forgetLastErr, Host.Outcome.next.injEq] at h ⊢
  exact congrArg leaveHandler h

theorem takeArm_ignoresLastErr {g : State → Bool} {body : State → Except Fault State}
    (hbody : IgnoresLastErr fun s => outcomeOf (body s))
    (hg : ∀ e s, g (withLastErr e s) = g s := by intros; rfl) :
    IgnoresLastErr fun s => takeArm (g s) body s := by
  intro e s
  have hb : forgetLastErr (outcomeOf (body (enterHandler (withLastErr e s)))) =
      forgetLastErr (outcomeOf (body (enterHandler s))) := hbody e (enterHandler s)
  simp only [takeArm, hg]
  refine forgetLastErr_ite ?_ rfl
  cases hx : body (enterHandler (withLastErr e s)) with
  | error f =>
    cases hy : body (enterHandler s) with
    | error f' => rw [hx, hy] at hb; exact hb
    | ok u => rw [hx, hy] at hb; cases hb
  | ok t =>
    cases hy : body (enterHandler s) with
    | error f' => rw [hx, hy] at hb; cases hb
    | ok u => rw [hx, hy] at hb; exact forgetLastErr_leaveHandler hb

theorem takeStep_ignoresLastErr {g : State → Bool} {body : State → Except Fault State}
    (hbody : IgnoresLastErr fun s => outcomeOf (body s))
    (hg : ∀ e s, g (withLastErr e s) = g s := by intros; rfl) :
    IgnoresLastErr fun s => takeStep (g s) body s := by
  intro e s
  simp only [takeStep, hg]
  exact forgetLastErr_ite (hbody e s) rfl

/-! ### The operations with a choice that is no check -/

theorem execRbDeq_ignoresLastErr : IgnoresLastErr execRbDeq := by
  refine fun e s => forgetLastErr_ifConfigured ?_
  simp only [withLastErr_cpu, withLastErr_ring]
  cases s.cpu.ctx with
  | foreground => rfl
  | interrupt => cases ringDeq s.ring <;> rfl

theorem execRbEnqm_ignoresLastErr (bytes : List Byte) : IgnoresLastErr (execRbEnqm bytes) := by
  refine fun e s => forgetLastErr_ifConfigured (forgetLastErr_ite (forgetLastErr_ite rfl rfl) ?_)
  simp only [withLastErr_host, withLastErr_ring]
  cases bytes[hostSub s.host - 1]? with
  | none => rfl
  | some b =>
    dsimp only
    obtain ⟨_, hr⟩ | ⟨_, hr⟩ := ringEnq_cases b s.ring <;> rw [hr] <;> rfl

theorem execFrEncode_ignoresLastErr (k : Kind) (payload : List Byte) (len : Nat) :
    IgnoresLastErr (execFrEncode k payload len) := by
  intro e s
  unfold execFrEncode
  cases frameOperandRefusal payload len with
  | some r => rfl
  | none =>
    refine forgetLastErr_ifConfigured (forgetLastErr_ite (forgetLastErr_ite rfl rfl) ?_)
    simp only [withLastErr_launch, withLastErr_host]
    cases encodeByte s.launch k payload len (hostSub s.host) <;> rfl

theorem execFrDecode_ignoresLastErr (cap : Word) : IgnoresLastErr (execFrDecode cap) := by
  refine fun e s => forgetLastErr_ifConfigured ?_
  simp only [withLastErr_cpu, withLastErr_ring, withLastErr_launch, withLastErr_fr]
  cases s.cpu.ctx with
  | foreground => rfl
  | interrupt => cases decodeFrame s.launch cap s.ring s.fr.scratch <;> rfl

theorem evSbOk_ignoresLastErr (len : Byte) : IgnoresLastErr fun s => outcomeOf (evSbOk len s) := by
  intro e s
  simp only [evSbOk, withLastErr_fr, withLastErr_launch, withLastErr_per]
  cases scrRead s.fr.scratch 0 with
  | error f => rfl
  | ok tag =>
    dsimp only
    cases drWrite (addrByte s.launch) s.per <;> rfl

theorem evSbBody_ignoresLastErr : IgnoresLastErr fun s => outcomeOf (evSbBody s) := by
  intro e s
  cases hcfg : s.ring.cfg with
  | false => simp [evSbBody, hcfg, outcomeOf, forgetLastErr]
  | true =>
    simp only [evSbBody, withLastErr_ring, withLastErr_launch, withLastErr_fr, hcfg, if_true]
    cases decodeFrame s.launch 256 s.ring s.fr.scratch with
    | error f => rfl
    | ok d =>
      obtain ⟨res, r, m⟩ := d
      cases res with
      | error e' => rfl
      | ok len => exact evSbOk_ignoresLastErr len e { s with ring := r, fr := { s.fr with scratch := m } }

theorem evTxeBody_ignoresLastErr : IgnoresLastErr fun s => outcomeOf (evTxeBody s) := by
  intro e s
  simp only [evTxeBody, withLastErr_fr, withLastErr_launch, withLastErr_per]
  cases wireInd s.launch s.fr.curTag with
  | error f => rfl
  | ok ind =>
    dsimp only
    cases drWrite ind s.per <;> rfl

theorem dmaXferBody_ignoresLastErr : IgnoresLastErr fun s => outcomeOf (dmaXferBody s) := by
  intro e s
  simp only [dmaXferBody, withLastErr_fr, withLastErr_ch, withLastErr_per]
  cases scrRead s.fr.scratch s.ch.mar with
  | error f => rfl
  | ok v =>
    dsimp only
    cases drWrite v s.per <;> rfl

theorem busShiftBody_ignoresLastErr (a : Bool) : IgnoresLastErr fun s => outcomeOf (busShiftBody a s) := by
  intro e s
  simp only [busShiftBody, withLastErr_per]
  cases s.per.sh <;> rfl

theorem exec_ignoresLastErr (i : Instr) : IgnoresLastErr (exec i) := by
  intro e s
  cases i with
  | rbConfigure buf req => exact forgetLastErr_ite rfl (forgetLastErr_ite rfl rfl)
  | rbEnq | rbAvail | rbFilled | rbIsfull | rbIsempty => exact forgetLastErr_ifConfigured rfl
  | rbDeq => exact execRbDeq_ignoresLastErr e s
  | rbEnqm bytes => exact execRbEnqm_ignoresLastErr bytes e s
  | rbPeek | rbPeekn | frAligned | frSize =>
    exact forgetLastErr_ifConfigured (returnRead_ignoresLastErr _ e s)
  | frEncode k payload len => exact execFrEncode_ignoresLastErr k payload len e s
  | frDecode cap => exact execFrDecode_ignoresLastErr cap e s
  | btReset => rfl
  | btKick => exact forgetLastErr_ite rfl (forgetLastErr_ite rfl rfl)
  | btWait => exact forgetLastErr_ite rfl rfl
  | btSettle => exact forgetLastErr_ite rfl rfl
  | btStop => exact forgetLastErr_ite rfl (forgetLastErr_ite rfl rfl)
  | evSb => exact (takeArm_ignoresLastErr (g := evSbGuard) evSbBody_ignoresLastErr) e s
  | evAddr => exact (takeArm_ignoresLastErr (g := evAddrGuard) (body := evAddrBody) (fun _ _ => rfl)) e s
  | evTxe => exact (takeArm_ignoresLastErr (g := evTxeGuard) evTxeBody_ignoresLastErr) e s
  | evBtf => exact (takeArm_ignoresLastErr (g := evBtfGuard) (body := evBtfBody) (fun _ _ => rfl)) e s
  | erAf => exact (takeArm_ignoresLastErr (g := erAfGuard) (body := erAfBody) (fun _ _ => rfl)) e s
  | diTc => exact (takeArm_ignoresLastErr (g := diTcGuard) (body := diTcBody) (fun _ _ => rfl)) e s
  | dmaXfer => exact (takeStep_ignoresLastErr (g := dmaXferGuard) dmaXferBody_ignoresLastErr) e s
  | busStart => exact (takeStep_ignoresLastErr (g := busStartGuard) (body := busStartBody) (fun _ _ => rfl)) e s
  | busLoad => exact (takeStep_ignoresLastErr (g := busLoadGuard) (body := busLoadBody) (fun _ _ => rfl)) e s
  | busShift a => exact (takeStep_ignoresLastErr (g := busShiftGuard) (busShiftBody_ignoresLastErr a)) e s
  | busStop => exact (takeStep_ignoresLastErr (g := busStopGuard) (body := busStopBody) (fun _ _ => rfl)) e s

/-- Settles O54: every operation of the dispatch ignores `last_err`. -/
theorem lastErrIsReadByNoOperation : Obligations.LastErrIsReadByNoOperation := by
  unfold Obligations.LastErrIsReadByNoOperation
  exact fun i s e => exec_ignoresLastErr i e s

end Sys2Proof.Machine
end

section
/-! Stops and the end of a run (10_state.md R35, 60_exceptions.md R211, R212, 70_reset_and_hazards.md R262). -/

namespace Sys2Proof.Machine

theorem step_of_fault {s : State} {f : Fault} (h : s.fault = some f) : step s = .fault f := by
  simp [step, h]

theorem step_of_refused {s : State} {r : Refusal} (hf : s.fault = none) (h : s.refused = some r) :
    step s = .refused r := by
  simp [step, hf, h]

theorem advance_of_fault {s : State} {f : Fault} (h : step s = .fault f) :
    advance s = { s with fault := some f } := by
  rw [advance, h]; rfl

theorem advance_of_refused {s : State} {r : Refusal} (h : step s = .refused r) :
    advance s = { s with refused := some r } := by
  rw [advance, h]; rfl

/-- A host that waits has an entry of its program before it. -/
theorem hostFinished_of_hostWaits {s : State} (h : hostWaits s) : hostFinished s.host = false := by
  obtain ⟨w, a, hfetch, _⟩ := h
  have hpc : s.host.pc < s.host.prog.length := by
    by_contra hge
    have hops : hostEntryOps s.host = [] := by
      simp [hostEntryOps, List.getElem?_eq_none (Nat.le_of_not_lt hge)]
    simp [hostFetch, hops] at hfetch
  simp [hostFinished, hpc]

theorem runEnd_of_unmarked {s : State} (h : unmarked s) :
    runEnd s = if !(enabledPicks s).isEmpty then none
      else if hostFinished s.host then some .completed else some .hung := by
  simp [runEnd, h.1, h.2]

/-- Settles O10: the marks are what `markStop` adds, a marked state answers its mark, and `runEnd` reads the marks,
then the choices, then whether the host has finished. -/
theorem stopsAreMarksAndEndTheRun : Obligations.StopsAreMarksAndEndTheRun := by
  unfold Obligations.StopsAreMarksAndEndTheRun
  refine ⟨fun s _ => ⟨fun f => advance_of_fault, fun r => advance_of_refused⟩, fun s f hf => ?faulted,
    fun s r hf hr => ?refused, fun s => ⟨fun f hf => ?endFaulted, fun r hf hr => ?endRefused, fun hu he => ?running,
      fun hu he hpc hmicro => ?completed, fun hu he hw => ?hung⟩⟩
  case faulted => exact ⟨step_of_fault hf, by rw [advance_of_fault (step_of_fault hf), ← hf]⟩
  case refused => exact ⟨step_of_refused hf hr, by rw [advance_of_refused (step_of_refused hf hr), ← hr]⟩
  case endFaulted => simp [runEnd, hf]
  case endRefused => simp [runEnd, hf, hr]
  case running => simp [runEnd_of_unmarked hu, he]
  case completed => simp [runEnd_of_unmarked hu, he, hostFinished, hpc, hmicro]
  case hung => simp [runEnd_of_unmarked hu, he, hostFinished_of_hostWaits hw]

end Sys2Proof.Machine
end

section
/-! The peripheral's invariant (10_state.md R24, R26; 44_bus_agent.md R190 to R193): one lemma for each way in which
the peripheral is written. -/

namespace Sys2Proof.Machine

theorem PeripheralOk.reset : PeripheralOk .reset := by constructor <;> decide

/-! ### Flags that cannot be set -/

theorem PeripheralOk.sb_eq_false {p : Peripheral} (hp : PeripheralOk p)
    (h : p.phase ≠ .bAddr ∨ p.dr ≠ none ∨ p.sh ≠ none) : p.sb = false := by
  by_contra hsb
  obtain ⟨hphase, hdr, hsh⟩ := hp.start (Bool.eq_true_of_not_eq_false hsb)
  simp [hphase, hdr, hsh] at h

theorem PeripheralOk.addr_eq_false {p : Peripheral} (hp : PeripheralOk p) (h : p.phase ≠ .bAddrAck) :
    p.addr = false :=
  Bool.eq_false_iff.mpr (mt hp.matched h)

theorem PeripheralOk.btf_eq_false {p : Peripheral} (hp : PeripheralOk p)
    (h : p.phase ≠ .bData ∨ p.dr ≠ none ∨ p.sh ≠ none) : p.btf = false := by
  by_contra hbtf
  obtain ⟨hphase, hdr, hsh⟩ := hp.finished (Bool.eq_true_of_not_eq_false hbtf)
  simp [hphase, hdr, hsh] at h

/-! ### The writes -/

/-- The invariant does not speak of AF and of the three request bits. -/
theorem PeripheralOk.setRequests {p : Peripheral} (hp : PeripheralOk p) (af start stop dma : Bool) :
    PeripheralOk { p with af := af, startReq := start, stopReq := stop, dmaReqEn := dma } :=
  ⟨hp.idle, hp.start, hp.address, hp.acked, hp.matched, hp.finished, hp.halted⟩

/-- A data register write (R55) in the address phase with nothing shifting, or in the data phase. -/
theorem PeripheralOk.writeDr {p : Peripheral} (hp : PeripheralOk p) (v : Byte)
    (hphase : p.phase = .bAddr ∧ p.sh = none ∨ p.phase = .bData) :
    PeripheralOk (flagsOfDrWrite { p with dr := some v }) := by
  obtain ⟨haddr, hsh⟩ | hdata := hphase
  · have hmatched := hp.addr_eq_false (by simp [haddr])
    constructor <;> simp [haddr, hsh, hmatched]
  · have hsb := hp.sb_eq_false (by simp [hdata])
    have hmatched := hp.addr_eq_false (by simp [hdata])
    constructor <;> simp [hdata, hsb, hmatched]

/-- The status read of EV_ADDR (R161). -/
theorem PeripheralOk.releaseAddr {p : Peripheral} (hp : PeripheralOk p) (haddr : p.addr = true) :
    PeripheralOk { p with addr := false, phase := .bData } := by
  have hphase := hp.matched haddr
  have hsb := hp.sb_eq_false (by simp [hphase])
  have hbtf := hp.btf_eq_false (by simp [hphase])
  constructor <;> simp [hsb, hbtf]

/-- A START on an idle bus (R190). -/
theorem PeripheralOk.busStart {p : Peripheral} (hp : PeripheralOk p) (hphase : p.phase = .bIdle) :
    PeripheralOk { p with sb := true, phase := .bAddr, startReq := false } := by
  have hempty := hp.idle hphase
  have hmatched := hp.addr_eq_false (by simp [hphase])
  have hbtf := hp.btf_eq_false (by simp [hphase])
  constructor <;> simp [hempty, hmatched, hbtf]

/-- A full data register moves into the shift register (R191). -/
theorem PeripheralOk.busLoad {p : Peripheral} (hp : PeripheralOk p) (hdr : p.dr ≠ none)
    (hphase : p.phase = .bAddr ∨ p.phase = .bData) : PeripheralOk { p with sh := p.dr, dr := none } := by
  have hsb := hp.sb_eq_false (.inr (.inl hdr))
  have hbtf := hp.btf_eq_false (.inr (.inl hdr))
  obtain hphase | hphase := hphase
  all_goals
    have hmatched := hp.addr_eq_false (by simp [hphase])
    constructor <;> simp [hphase, hsb, hbtf, hmatched]

/-- A byte shifts only in the address phase, with the data register empty, or in the data phase. -/
theorem PeripheralOk.shifting {p : Peripheral} (hp : PeripheralOk p) (hsh : p.sh ≠ none) :
    p.phase = .bAddr ∧ p.dr = none ∨ p.phase = .bData := by
  cases hphase : p.phase with
  | bIdle => exact absurd (hp.idle hphase).2 hsh
  | bAddr => exact .inl ⟨rfl, (hp.address hphase).resolve_right hsh⟩
  | bAddrAck => exact absurd (hp.acked hphase).2 hsh
  | bData => exact .inr rfl
  | bHalted => exact absurd (hp.halted hphase) hsh

/-- A byte has been shifted and answered (R192). -/
theorem PeripheralOk.busShift {p : Peripheral} (hp : PeripheralOk p) (hsh : p.sh ≠ none) (a : Bool) :
    PeripheralOk (flagsOfAnswer a { p with sh := none }) := by
  have hsb := hp.sb_eq_false (.inr (.inr hsh))
  have hbtf := hp.btf_eq_false (.inr (.inr hsh))
  obtain ⟨hphase, hdr⟩ | hphase := hp.shifting hsh
  all_goals have hmatched := hp.addr_eq_false (by simp [hphase])
  · cases a <;> constructor <;> simp [flagsOfAnswer, flagsOfAck, flagsOfNack, hphase, hdr, hsb, hbtf, hmatched]
  · cases a <;> constructor <;>
      simp [flagsOfAnswer, flagsOfAck, flagsOfNack, dataPathEmpty, hphase, hsb, hbtf, hmatched]

/-- A STOP with nothing shifting (R193). -/
theorem PeripheralOk.busStop {p : Peripheral} (hsh : p.sh = none) :
    PeripheralOk { flagsOfStop p with phase := .bIdle, dr := none, stopReq := false } := by
  constructor <;> simp [flagsOfStop, hsh]

/-! ### Every operation and every step -/

theorem ExecEffect.peripheralOk {i : Instr} {s t : State} (h : ExecEffect i s t) (hp : PeripheralOk s.per) :
    PeripheralOk t.per := by
  cases h with
  | reset => exact .reset
  | kick | requestStop | evSbErr | evBtf | erAf | diTc => exact hp.setRequests _ _ _ _
  | evSbOk hguard =>
    obtain ⟨_, hsb⟩ := (evSbGuard_iff s).mp hguard
    obtain ⟨hphase, _, hsh⟩ := hp.start hsb
    exact hp.writeDr _ (.inl ⟨hphase, hsh⟩)
  | evAddr hguard =>
    obtain ⟨_, _, haddr⟩ := (evAddrGuard_iff s).mp hguard
    exact hp.releaseAddr haddr
  | evTxe hguard =>
    obtain ⟨_, _, hphase, _⟩ := (evTxeGuard_iff s).mp hguard
    exact hp.writeDr _ (.inr hphase)
  | dmaXfer hguard =>
    obtain ⟨_, _, hphase, _, _⟩ := (dmaXferGuard_iff s).mp hguard
    exact hp.writeDr _ (.inr hphase)
  | busStart hguard =>
    obtain ⟨_, _, hphase⟩ := (busStartGuard_iff s).mp hguard
    exact hp.busStart hphase
  | busLoad hguard =>
    obtain ⟨_, hdr, hphase⟩ := (busLoadGuard_iff s).mp hguard
    exact hp.busLoad hdr hphase
  | busShift hsh => exact hp.busShift (by simp [hsh]) _
  | busStop hguard => exact .busStop ((busStopGuard_iff s).mp hguard).2
  | _ => exact hp

/-- Settles O57: every write of the peripheral keeps the invariant, and the scheduler's record and the wedge are no
part of it. -/
theorem everyStepKeepsThePeripheral : Obligations.EveryStepKeepsThePeripheral := by
  unfold Obligations.EveryStepKeepsThePeripheral
  exact fun s t => step_keeps (P := fun u => PeripheralOk u.per) (fun _ _ hu => hu) (fun _ _ hu => hu)
    (fun _ _ _ hu h => (exec_effect h).peripheralOk hu)

end Sys2Proof.Machine
end

section
/-! The ring's invariant (10_state.md R32; 40_queue.md R111 to R113, R126). A configured ring's masks are remainders by
its size; enqueue and dequeue are then arithmetic on indices below the size. -/

namespace Sys2Proof.Machine

/-! ### The size RB_CONFIGURE realises -/

theorem ceilPow2From_eq (n k x : Nat) : ∃ j, j ≤ n ∧ ceilPow2From n k x = 2 ^ (k + j) := by
  induction n generalizing k with
  | zero => exact ⟨0, le_rfl, rfl⟩
  | succ n ih =>
    by_cases h : x ≤ 2 ^ k
    · exact ⟨0, Nat.zero_le _, by simp [ceilPow2From, h]⟩
    · obtain ⟨j, hj, he⟩ := ih (k + 1)
      exact ⟨j + 1, by omega, by simp [ceilPow2From, h, he]; ring⟩

theorem realizedSize_eq (req : Word) : ∃ k, k < 32 ∧ realizedSize req = 2 ^ k := by
  obtain ⟨j, hj, he⟩ := ceilPow2From_eq 31 0 (max req.toNat 1)
  exact ⟨j, by omega, by simpa [realizedSize] using he⟩

/-! ### Masks are remainders -/

theorem RingConfigured.size_pos {r : Ring} (hr : RingConfigured r) : 0 < r.size.toNat := by
  obtain ⟨k, _, hsize⟩ := hr.pow2
  rw [hsize]; positivity

theorem RingConfigured.size_dvd {r : Ring} (hr : RingConfigured r) : r.size.toNat ∣ 2 ^ 32 := by
  obtain ⟨k, hk, hsize⟩ := hr.pow2
  rw [hsize]; exact Nat.pow_dvd_pow 2 (by omega)

theorem RingConfigured.toNat_and_ringMask {r : Ring} (hr : RingConfigured r) (i : Word) :
    (i &&& ringMask r).toNat = i.toNat % r.size.toNat := by
  obtain ⟨k, hk, hsize⟩ := hr.pow2
  have hmask : (ringMask r).toNat = 2 ^ k - 1 := by
    have hpos := hr.size_pos
    have hone : (1 : Word) ≤ r.size := by rw [BitVec.le_def]; exact hpos
    rw [ringMask, BitVec.toNat_sub_of_le hone, hsize]; rfl
  rw [BitVec.toNat_and, hmask, Nat.and_two_pow_sub_one_eq_mod, hsize]

theorem RingConfigured.toNat_ringNext {r : Ring} (hr : RingConfigured r) (i : Word) :
    (ringNext r i).toNat = (i.toNat + 1) % r.size.toNat := by
  rw [ringNext, hr.toNat_and_ringMask, BitVec.toNat_add, Nat.mod_mod_of_dvd _ hr.size_dvd]; rfl

theorem RingConfigured.toNat_queuedIndex {r : Ring} (hr : RingConfigured r) (j : Nat) :
    (queuedIndex r j).toNat = (r.tail.toNat + j) % r.size.toNat := by
  rw [queuedIndex, hr.toNat_and_ringMask, BitVec.toNat_add, BitVec.toNat_ofNat, Nat.add_mod_mod,
    Nat.mod_mod_of_dvd _ hr.size_dvd]

/-- A remainder of a sum that wraps at most once. -/
theorem mod_eq_ite_of_lt_two_mul {a n : Nat} (h : a < 2 * n) : a % n = if a < n then a else a - n := by
  split
  · exact Nat.mod_eq_of_lt ‹_›
  · rw [Nat.mod_eq_sub_mod (by omega), Nat.mod_eq_of_lt (by omega)]

/-- The masked distance from `t` up to `h`: W-bit subtraction wraps at a multiple of the size. -/
theorem RingConfigured.toNat_sub_and_ringMask {r : Ring} (hr : RingConfigured r) {h t : Word}
    (hh : h.toNat < r.size.toNat) (ht : t.toNat < r.size.toNat) :
    ((h - t) &&& ringMask r).toNat =
      if t.toNat ≤ h.toNat then h.toNat - t.toNat else r.size.toNat + h.toNat - t.toNat := by
  obtain ⟨q, hq⟩ := hr.size_dvd
  obtain ⟨q, rfl⟩ : ∃ p, q = p + 1 := Nat.exists_eq_succ_of_ne_zero (by rintro rfl; simp at hq)
  have hwrap : 2 ^ 32 - t.toNat + h.toNat = r.size.toNat + h.toNat - t.toNat + r.size.toNat * q := by
    rw [hq, Nat.mul_succ]; omega
  rw [hr.toNat_and_ringMask, BitVec.toNat_sub, Nat.mod_mod_of_dvd _ hr.size_dvd, hwrap,
    Nat.add_mul_mod_self_left, mod_eq_ite_of_lt_two_mul (by omega)]
  split <;> split <;> omega

/-! ### Indices below the size -/

theorem RingConfigured.ringNext_lt {r : Ring} (hr : RingConfigured r) (i : Word) :
    (ringNext r i).toNat < r.size.toNat := by
  rw [hr.toNat_ringNext]; exact Nat.mod_lt _ hr.size_pos

theorem RingConfigured.toNat_ringNext_of_lt {r : Ring} (hr : RingConfigured r) {i : Word}
    (hi : i.toNat < r.size.toNat) :
    (ringNext r i).toNat = if i.toNat + 1 < r.size.toNat then i.toNat + 1 else 0 := by
  rw [hr.toNat_ringNext, mod_eq_ite_of_lt_two_mul (by omega)]
  split <;> omega

theorem RingConfigured.toNat_ringFilled {r : Ring} (hr : RingConfigured r) :
    (ringFilled r).toNat =
      if r.tail.toNat ≤ r.head.toNat then r.head.toNat - r.tail.toNat
      else r.size.toNat + r.head.toNat - r.tail.toNat :=
  hr.toNat_sub_and_ringMask hr.headIn hr.tailIn

/-- The cell after the last queued one is the one at `head`. -/
theorem RingConfigured.queuedIndex_filled {r : Ring} (hr : RingConfigured r) :
    (queuedIndex r (ringFilled r).toNat).toNat = r.head.toNat := by
  have ht := hr.tailIn
  have hh := hr.headIn
  rw [hr.toNat_queuedIndex, hr.toNat_ringFilled]
  split <;> rw [mod_eq_ite_of_lt_two_mul (by omega)] <;> split <;> omega

/-! ### The queued cells -/

/-- Every queued cell was written (R113), by position in the queue. -/
theorem queuedBytes_written_iff (r : Ring) :
    (∀ x ∈ queuedBytes r, x.isSome) ↔
      ∀ j, j < (ringFilled r).toNat → (memRead r.storage (queuedIndex r j).toNat).isSome := by
  simp [queuedBytes]

/-! ### Enqueue (R112) -/

theorem RingConfigured.ringFilled_ringPush {r : Ring} (hr : RingConfigured r) (b : Byte)
    (hfull : ringFull r = false) : (ringFilled (ringPush b r)).toNat = (ringFilled r).toNat + 1 := by
  have ht := hr.tailIn
  have hh := hr.headIn
  have hnext := hr.toNat_ringNext_of_lt hh
  have hroom : (ringNext r r.head).toNat ≠ r.tail.toNat := by
    simpa [ringFull, ← BitVec.toNat_inj] using hfull
  have hpush : (ringFilled (ringPush b r)).toNat =
      if r.tail.toNat ≤ (ringNext r r.head).toNat then (ringNext r r.head).toNat - r.tail.toNat
      else r.size.toNat + (ringNext r r.head).toNat - r.tail.toNat :=
    hr.toNat_sub_and_ringMask (hr.ringNext_lt _) ht
  rw [hpush, hr.toNat_ringFilled]
  split at hnext <;> split <;> split <;> omega

/-- A push writes the cell after the queued ones and leaves them written. -/
theorem RingConfigured.push {r : Ring} (hr : RingConfigured r) (b : Byte) (hfull : ringFull r = false) :
    RingConfigured (ringPush b r) where
  pow2 := hr.pow2
  fits := hr.fits
  headIn := hr.ringNext_lt _
  tailIn := hr.tailIn
  written := by
    rw [queuedBytes_written_iff, hr.ringFilled_ringPush b hfull]
    intro j hj
    obtain hlt | rfl := Nat.lt_succ_iff_lt_or_eq.mp hj
    · exact memRead_memWrite_isSome _ _ ((queuedBytes_written_iff r).mp hr.written j hlt)
    · have hlast : (queuedIndex (ringPush b r) (ringFilled r).toNat).toNat = r.head.toNat := hr.queuedIndex_filled
      rw [ringPush_storage, hlast, memRead_memWrite_same]
      rfl

theorem RingOk.enq {r : Ring} (hr : RingOk r) (hcfg : r.cfg = true) (b : Byte) : RingOk (ringEnq b r).2 := by
  obtain ⟨_, henq⟩ | ⟨hfull, henq⟩ := ringEnq_cases b r
  · rw [henq]; exact hr
  · rw [henq]
    have hc := hr.configured hcfg
    exact ⟨memWrite_wf _ _ hr.canonical, memBelow_memWrite _ hr.inside (hc.headIn.trans_le hc.fits),
      fun _ => hc.push b hfull⟩

/-! ### Dequeue (R113) -/

theorem RingConfigured.ringFilled_advanceTail {r : Ring} (hr : RingConfigured r) (hne : r.head ≠ r.tail) :
    (ringFilled { r with tail := ringNext r r.tail }).toNat + 1 = (ringFilled r).toNat := by
  have ht := hr.tailIn
  have hh := hr.headIn
  have hnext := hr.toNat_ringNext_of_lt ht
  have hne' : r.head.toNat ≠ r.tail.toNat := mt BitVec.eq_of_toNat_eq hne
  have hdeq : (ringFilled { r with tail := ringNext r r.tail }).toNat =
      if (ringNext r r.tail).toNat ≤ r.head.toNat then r.head.toNat - (ringNext r r.tail).toNat
      else r.size.toNat + r.head.toNat - (ringNext r r.tail).toNat :=
    hr.toNat_sub_and_ringMask hh (hr.ringNext_lt _)
  rw [hdeq, hr.toNat_ringFilled]
  split at hnext <;> split <;> split <;> omega

/-- Taking the first byte leaves the others at the positions before theirs. -/
theorem RingConfigured.queuedIndex_advanceTail {r : Ring} (hr : RingConfigured r) (j : Nat) :
    ((ringNext r r.tail + BitVec.ofNat 32 j) &&& ringMask r).toNat = (queuedIndex r (j + 1)).toNat := by
  rw [hr.toNat_and_ringMask, hr.toNat_queuedIndex, BitVec.toNat_add, BitVec.toNat_ofNat, Nat.add_mod_mod,
    Nat.mod_mod_of_dvd _ hr.size_dvd, hr.toNat_ringNext, Nat.mod_add_mod, Nat.add_right_comm, Nat.add_assoc]

theorem RingConfigured.advanceTail {r : Ring} (hr : RingConfigured r) (hne : r.head ≠ r.tail) :
    RingConfigured { r with tail := ringNext r r.tail } where
  pow2 := hr.pow2
  fits := hr.fits
  headIn := hr.headIn
  tailIn := hr.ringNext_lt _
  written := by
    rw [queuedBytes_written_iff]
    intro j hj
    have hfilled := hr.ringFilled_advanceTail hne
    have hindex : (queuedIndex { r with tail := ringNext r r.tail } j).toNat = (queuedIndex r (j + 1)).toNat :=
      hr.queuedIndex_advanceTail j
    rw [hindex]
    exact (queuedBytes_written_iff r).mp hr.written (j + 1) (by omega)

theorem RingOk.deq {r r' : Ring} {v : Option Byte} (hr : RingOk r) (h : ringDeq r = .ok (v, r')) : RingOk r' := by
  obtain ⟨_, hd⟩ | ⟨w, hne, _, hd⟩ | ⟨_, _, hd⟩ := ringDeq_cases r <;> rw [hd] at h <;> cases h
  · exact hr
  · exact ⟨hr.canonical, hr.inside, fun hcfg => (hr.configured hcfg).advanceTail hne⟩

/-! ### RB_CONFIGURE (R111) -/

theorem ringFilled_ringConfigured (r : Ring) (buf : Buffer) (sz : Nat) :
    (ringFilled (ringConfigured r buf sz)).toNat = 0 := by
  simp [ringFilled, ringConfigured]

theorem RingOk.configure {r : Ring} (hr : RingOk r) {buf : Buffer} {req : Word}
    (hfits : realizedSize req ≤ bufferLen r buf) : RingOk (ringConfigured r buf (realizedSize req)) := by
  obtain ⟨k, hk, hsize⟩ := realizedSize_eq req
  have hsz : (BitVec.ofNat 32 (realizedSize req)).toNat = 2 ^ k := by
    rw [hsize, BitVec.toNat_ofNat, Nat.mod_eq_of_lt (Nat.pow_lt_pow_right (by omega) hk)]
  have hpos : 0 < (BitVec.ofNat 32 (realizedSize req)).toNat := by rw [hsz]; positivity
  have hcells : Memory.wf (bufferCells r buf) = true ∧ memBelow (bufferLen r buf) (bufferCells r buf) = true := by
    cases buf with
    | given b => exact ⟨backingCells_wf b, backingCells_below b⟩
    | inUse => exact ⟨hr.canonical, hr.inside⟩
  refine ⟨hcells.1, hcells.2, fun _ => ⟨⟨k, hk, hsz⟩, ?_, hpos, hpos, ?_⟩⟩
  · exact (hsz.trans hsize.symm).trans_le hfits
  · rw [queuedBytes_written_iff, ringFilled_ringConfigured]
    exact fun j hj => absurd hj (Nat.not_lt_zero j)

end Sys2Proof.Machine
end

section
/-! What a frame decode does to the ring and to the scratch buffer (40_queue.md R122): it dequeues, it writes scratch
cells below 256, and when it succeeds the tag and the whole payload are written. -/

namespace Sys2Proof.Machine

/-! ### A property that every dequeue and every scratch write keeps -/

section
variable {P : Ring → Memory → Prop}
  (hdeq : ∀ {r m v r'}, P r m → ringDeq r = .ok (v, r') → P r' m)
  (hscr : ∀ {r m} (i : Nat) (v : Byte), i < Config.scratchLen → P r m → P r (scrWrite m i v))
include hdeq hscr

theorem takePayload_keeps {n i : Nat} {r r' : Ring} {m m' : Memory} {all : Bool} (hn : i + n < Config.scratchLen)
    (hP : P r m) (h : takePayload n i r m = .ok (all, r', m')) : P r' m' := by
  induction n generalizing i r m with
  | zero => cases h; exact hP
  | succ n ih =>
    unfold takePayload at h
    split at h
    · cases h
    · rename_i hd
      cases h
      exact hdeq hP hd
    · rename_i hd
      exact ih (by omega) (hscr _ _ (by omega) (hdeq hP hd)) h

theorem decodeBody_keeps {r : Ring} {m : Memory} {d : FrameDecode} (hP : P r m) (h : decodeBody r m = .ok d) :
    P d.ring d.scratch := by
  unfold decodeBody at h
  split at h
  · cases h
  · rename_i hd
    cases h
    exact hdeq hP hd
  · rename_i tag _ hd
    have hP1 := hscr 0 tag (by decide) (hdeq hP hd)
    split at h
    · cases h
    · rename_i hd'
      cases h
      exact hdeq hP1 hd'
    · rename_i len _ hd'
      have hlen : 0 + len.toNat < Config.scratchLen := by simpa [Config.scratchLen] using len.isLt
      have hP2 := hdeq hP1 hd'
      split at h
      · cases h
      · rename_i hp
        cases h
        exact takePayload_keeps (P := P) hdeq hscr hlen hP2 hp
      · rename_i hp
        cases h
        exact takePayload_keeps (P := P) hdeq hscr hlen hP2 hp

end

/-- A decode fails at its checks and changes nothing, or goes on to its dequeues. -/
theorem decodeFrame_cases {l : Launch} {cap : Word} {r : Ring} {m : Memory} {d : FrameDecode}
    (h : decodeFrame l cap r m = .ok d) : (∃ e, d = ⟨.error e, r, m⟩) ∨ decodeBody r m = .ok d := by
  unfold decodeFrame at h
  split at h
  · cases h
  · cases h; exact .inl ⟨_, rfl⟩
  · split at h
    · cases h
    · split at h
      · cases h; exact .inl ⟨_, rfl⟩
      · exact .inr h

theorem decodeFrame_keeps {P : Ring → Memory → Prop}
    (hdeq : ∀ {r m v r'}, P r m → ringDeq r = .ok (v, r') → P r' m)
    (hscr : ∀ {r m} (i : Nat) (v : Byte), i < Config.scratchLen → P r m → P r (scrWrite m i v))
    {l : Launch} {cap : Word} {r : Ring} {m : Memory} {d : FrameDecode} (hP : P r m)
    (h : decodeFrame l cap r m = .ok d) : P d.ring d.scratch := by
  obtain ⟨e, rfl⟩ | hbody := decodeFrame_cases h
  · exact hP
  · exact decodeBody_keeps (P := P) hdeq hscr hP hbody

/-- A decode keeps the ring's invariant. -/
theorem RingOk.decoded {l : Launch} {cap : Word} {r : Ring} {m : Memory} {d : FrameDecode} (hr : RingOk r)
    (h : decodeFrame l cap r m = .ok d) : RingOk d.ring :=
  decodeFrame_keeps (P := fun r _ => RingOk r) RingOk.deq (fun _ _ _ hr => hr) hr h

/-! ### The scratch buffer -/

/-- `m'` is a scratch buffer in which every cell written in `m` is written. -/
structure ScratchExtends (m m' : Memory) : Prop where
  canonical : Memory.wf m' = true
  inside    : memBelow Config.scratchLen m' = true
  written   : ∀ i, scratchWritten m i → scratchWritten m' i

theorem ScratchExtends.write {m m' : Memory} (h : ScratchExtends m m') (i : Nat) (v : Byte)
    (hi : i < Config.scratchLen) : ScratchExtends m (scrWrite m' i v) :=
  ⟨memWrite_wf i v h.canonical, memBelow_memWrite v h.inside hi,
    fun j hj => memRead_memWrite_isSome i v (h.written j hj)⟩

theorem decodeFrame_scratchExtends {l : Launch} {cap : Word} {r : Ring} {m : Memory} {d : FrameDecode}
    (hwf : Memory.wf m = true) (hin : memBelow Config.scratchLen m = true) (h : decodeFrame l cap r m = .ok d) :
    ScratchExtends m d.scratch :=
  decodeFrame_keeps (P := fun _ m' => ScratchExtends m m') (fun hm _ => hm) (fun i v hi hm => hm.write i v hi)
    ⟨hwf, hin, fun _ hi => hi⟩ h

/-- A payload loop that takes all its bytes has written their cells. -/
theorem takePayload_written {n i j : Nat} {r r' : Ring} {m m' : Memory}
    (h : takePayload n i r m = .ok (true, r', m')) (hj : scratchWritten m j ∨ i < j ∧ j ≤ i + n) :
    scratchWritten m' j := by
  induction n generalizing i r m with
  | zero =>
    cases h
    exact hj.resolve_right (by omega)
  | succ n ih =>
    unfold takePayload at h
    split at h
    · cases h
    · cases h
    · rename_i v _ _
      refine ih h ?_
      obtain hw | hrange := hj
      · exact .inl (memRead_memWrite_isSome _ _ hw)
      · by_cases hfirst : j = 1 + i
        · left; simp [scratchWritten, scrWrite, hfirst]
        · right; omega

/-- A decode that succeeds has written the tag and the whole payload (R122, R160). -/
theorem decodeFrame_written {l : Launch} {cap : Word} {r r' : Ring} {m m' : Memory} {len : Byte}
    (h : decodeFrame l cap r m = .ok ⟨.ok len, r', m'⟩) {i : Nat} (hi : i ≤ len.toNat) : scratchWritten m' i := by
  obtain ⟨e, he⟩ | hbody := decodeFrame_cases h
  · cases he
  unfold decodeBody at hbody
  split at hbody
  · cases hbody
  · cases hbody
  · rename_i tag _ _
    split at hbody
    · cases hbody
    · cases hbody
    · split at hbody
      · cases hbody
      · cases hbody
      · rename_i hp
        cases hbody
        refine takePayload_written hp ?_
        by_cases htag : i = 0
        · left; simp [scratchWritten, scrWrite, htag]
        · right; omega

end Sys2Proof.Machine
end

section
/-! The ring, and the channel with the scratch buffer: every operation and every step keeps their invariants. -/

namespace Sys2Proof.Machine

theorem ExecEffect.ringOk {i : Instr} {s t : State} (h : ExecEffect i s t) (hr : RingOk s.ring) : RingOk t.ring := by
  cases h with
  | configure _ hfits => exact hr.configure hfits
  | enqueue b _ _ hcfg => exact hr.enq hcfg b
  | dequeue _ _ hdeq => exact hr.deq hdeq
  | decode _ _ hdec | evSbOk _ _ hdec | evSbErr _ _ hdec => exact hr.decoded hdec
  | _ => exact hr

/-- Settles O56: RB_CONFIGURE, an enqueue, a dequeue and a frame decode each keep the ring's invariant, and nothing
else writes the ring. -/
theorem everyStepKeepsTheRing : Obligations.EveryStepKeepsTheRing := by
  unfold Obligations.EveryStepKeepsTheRing
  exact fun s t => step_keeps (P := fun u => RingOk u.ring) (fun _ _ hu => hu) (fun _ _ hu => hu)
    (fun _ _ _ hu h => (exec_effect h).ringOk hu)

/-! ### The channel and the scratch buffer -/

theorem ChannelOk.reset : ChannelOk .reset := ⟨by decide, by decide⟩

theorem ExecEffect.channelOk {i : Instr} {s t : State} (h : ExecEffect i s t) (hc : ChannelOk s.ch) :
    ChannelOk t.ch := by
  cases h with
  | reset => exact .reset
  | evBtf =>
    have hlen := s.fr.curLen.isLt
    exact ⟨by simp only [armedChannel]; omega, by simp only [armedChannel]; omega⟩
  | diTc => exact ⟨hc.inside, hc.count⟩
  | dmaXfer hguard =>
    obtain ⟨_, _, _, _, hcnt⟩ := (dmaXferGuard_iff s).mp hguard
    have hin := hc.inside
    have hcount := hc.count
    exact ⟨by simp only [channelAfterXfer]; omega, by simp only [channelAfterXfer]; omega⟩
  | _ => exact hc

/-- A decode extends the scratch buffer, so the bytes the channel has still to move stay written. -/
theorem ScratchOk.decoded {s : State} (hs : ScratchOk s) {cap : Word} {d : FrameDecode}
    (hdec : decodeFrame s.launch cap s.ring s.fr.scratch = .ok d) : ScratchExtends s.fr.scratch d.scratch :=
  decodeFrame_scratchExtends hs.canonical hs.inside hdec

theorem ExecEffect.scratchOk {i : Instr} {s t : State} (h : ExecEffect i s t) (hs : ScratchOk s) : ScratchOk t := by
  cases h with
  | decode _ _ hdec =>
    have hext := hs.decoded hdec
    exact ⟨hext.canonical, hext.inside, fun hst i hi => hext.written i (hs.frame hst i hi),
      fun j hj => hext.written _ (hs.channel j hj)⟩
  | reset =>
    exact ⟨rfl, rfl, fun hst => by simp [blockReset, Transport.reset] at hst,
      fun _ hj => absurd hj (Nat.not_lt_zero _)⟩
  | evSbOk _ _ hdec =>
    have hext := hs.decoded hdec
    exact ⟨hext.canonical, hext.inside, fun _ _ => decodeFrame_written hdec,
      fun j hj => hext.written _ (hs.channel j hj)⟩
  | evSbErr _ _ hdec =>
    have hext := hs.decoded hdec
    exact ⟨hext.canonical, hext.inside, fun hst => by simp at hst, fun j hj => hext.written _ (hs.channel j hj)⟩
  | evTxe hguard =>
    obtain ⟨hsent, _⟩ := (evTxeGuard_iff s).mp hguard
    exact ⟨hs.canonical, hs.inside, fun _ => hs.frame (.inl hsent), hs.channel⟩
  | evBtf hguard =>
    obtain ⟨hsent, _⟩ := (evBtfGuard_iff s).mp hguard
    refine ⟨hs.canonical, hs.inside, fun hst => by simp at hst, fun j hj => ?_⟩
    have hpayload : 1 + j ≤ s.fr.curLen.toNat := by simp only [armedChannel] at hj; omega
    exact hs.frame (.inr hsent) _ hpayload
  | erAf | diTc => exact ⟨hs.canonical, hs.inside, fun hst => by simp at hst, hs.channel⟩
  | dmaXfer =>
    refine ⟨hs.canonical, hs.inside, hs.frame, fun j hj => ?_⟩
    have hlater := hs.channel (1 + j) (by simp only [channelAfterXfer] at hj; omega)
    simpa [channelAfterXfer, Nat.add_assoc] using hlater
  | _ => exact ⟨hs.canonical, hs.inside, hs.frame, hs.channel⟩

/-- Settles O58: EV_SB's decode writes the frame, EV_BTF arms the channel over it, DMA_XFER moves along it, and no
decode in between erases a written cell. -/
theorem everyStepKeepsChannelAndScratch : Obligations.EveryStepKeepsChannelAndScratch := by
  unfold Obligations.EveryStepKeepsChannelAndScratch
  intro s t hc hs
  refine step_keeps (P := fun u => ChannelOk u.ch ∧ ScratchOk u) ?sch ?dev ?exec ⟨hc, hs⟩
  case sch => exact fun u _ ⟨hc, hs⟩ => ⟨hc, hs.canonical, hs.inside, hs.frame, hs.channel⟩
  case dev => exact fun u _ ⟨hc, hs⟩ => ⟨hc, hs.canonical, hs.inside, hs.frame, hs.channel⟩
  case exec => exact fun _ _ _ ⟨hc, hs⟩ h => ⟨(exec_effect h).channelOk hc, (exec_effect h).scratchOk hs⟩

end Sys2Proof.Machine
end

section
/-! Who writes which field of the ring (20_memory.md R64; 40_queue.md R110): an enqueue moves `head` and writes the
storage, a dequeue and a frame decode move `tail`, and only RB_CONFIGURE writes the rest. -/

namespace Sys2Proof.Machine

/-- An enqueue moves nothing of the ring but `head` and the storage (R112). -/
theorem ringEnq_frame (b : Byte) (r : Ring) :
    (ringEnq b r).2 = { r with head := (ringEnq b r).2.head, storage := (ringEnq b r).2.storage } := by
  obtain ⟨_, henq⟩ | ⟨_, henq⟩ := ringEnq_cases b r
  · rw [henq]
  · rw [henq]; rfl

/-- Everything an operation can do to the ring: nothing, configure it, enqueue a byte, or move `tail`; the last in
interrupt context or by EV_SB, which enters it. -/
theorem ExecEffect.ring_cases {i : Instr} {s t : State} (h : ExecEffect i s t) :
    t.ring = s.ring ∨
    (∃ buf req, i = .rbConfigure buf req) ∨
    (producerOps i ∧ ∃ b, t.ring = (ringEnq b s.ring).2) ∨
    (consumerOps i ∧ (i = .evSb ∨ s.cpu.ctx = .interrupt) ∧ t.ring = { s.ring with tail := t.ring.tail }) := by
  cases h with
  | configure => exact .inr (.inl ⟨_, _, rfl⟩)
  | enqueue b _ hprod => exact .inr (.inr (.inl ⟨hprod, b, rfl⟩))
  | dequeue _ hctx hdeq => exact .inr (.inr (.inr ⟨trivial, .inr hctx, ringDeq_frame hdeq⟩))
  | decode _ hctx hdec => exact .inr (.inr (.inr ⟨trivial, .inr hctx, decodeFrame_frame hdec⟩))
  | evSbOk _ _ hdec | evSbErr _ _ hdec => exact .inr (.inr (.inr ⟨trivial, .inl rfl, decodeFrame_frame hdec⟩))
  | _ => exact .inl rfl

/-- Settles O51: in each of the four cases of `ExecEffect.ring_cases` the fields of the other side stay. -/
theorem producerAndConsumerKeepApart : Obligations.ProducerAndConsumerKeepApart := by
  unfold Obligations.ProducerAndConsumerKeepApart
  intro i s t h
  obtain hsame | ⟨buf, req, rfl⟩ | ⟨hprod, b, henq⟩ | ⟨hcons, hwho, htail⟩ := (exec_effect h).ring_cases
  · simp [hsame]
  · exact ⟨fun hi => absurd trivial hi, fun hi => absurd trivial hi, fun hi => absurd rfl (hi buf req),
      fun hi => absurd rfl (hi buf req)⟩
  · rw [henq, ringEnq_frame]
    exact ⟨fun hi => absurd hprod hi, fun _ => rfl, fun _ _ _ => rfl, fun _ => ⟨rfl, rfl, rfl⟩⟩
  · rw [htail]
    refine ⟨fun _ => ⟨rfl, rfl⟩, fun hi => absurd hcons hi, fun _ hsb hfore => ?_, fun _ => ⟨rfl, rfl, rfl⟩⟩
    obtain rfl | hint := hwho
    · exact absurd rfl hsb
    · rw [hfore] at hint; cases hint

end Sys2Proof.Machine
end

section
/-! Faults that no reachable state raises (20_memory.md R55; 40_queue.md R113; 43_burst_engine.md R180). First where a
fault comes from: reading a cell raises UnwrittenRead, and only a write of a full data register raises DrOverwrite. -/

namespace Sys2Proof.Machine

/-! ### The faults of the shared operations -/

theorem ringDeq_error {r : Ring} {f : Fault} (h : ringDeq r = .error f) :
    f = .unwrittenRead ∧ r.head ≠ r.tail ∧ memRead r.storage r.tail.toNat = none := by
  obtain ⟨_, hd⟩ | ⟨_, _, _, hd⟩ | ⟨hne, hread, hd⟩ := ringDeq_cases r <;> rw [hd] at h <;> cases h
  exact ⟨rfl, hne, hread⟩

theorem takePayload_error {n i : Nat} {r : Ring} {m : Memory} {f : Fault} (h : takePayload n i r m = .error f) :
    f = .unwrittenRead := by
  induction n generalizing i r m with
  | zero => cases h
  | succ n ih =>
    unfold takePayload at h
    split at h
    · rename_i hd
      cases h
      exact (ringDeq_error hd).1
    · cases h
    · exact ih h

theorem decodeBody_error {r : Ring} {m : Memory} {f : Fault} (h : decodeBody r m = .error f) :
    f = .unwrittenRead := by
  unfold decodeBody at h
  split at h
  · rename_i hd
    cases h
    exact (ringDeq_error hd).1
  · cases h
  · split at h
    · rename_i hd
      cases h
      exact (ringDeq_error hd).1
    · cases h
    · split at h
      · rename_i hp
        cases h
        exact takePayload_error hp
      · cases h
      · cases h

theorem ringAligned_error {l : Launch} {r : Ring} {f : Fault} (h : ringAligned l r = .error f) :
    f = .unwrittenRead := by
  unfold ringAligned at h
  split at h
  · rename_i hr
    cases h
    exact (ringRead_error hr).1
  · cases h

theorem decodeGate_error {l : Launch} {r : Ring} {f : Fault} (h : decodeGate l r = .error f) :
    f = .unwrittenRead := by
  unfold decodeGate at h
  split at h
  · exact ringAligned_error h
  · cases h

theorem decodeFrame_error {l : Launch} {cap : Word} {r : Ring} {m : Memory} {f : Fault}
    (h : decodeFrame l cap r m = .error f) : f = .unwrittenRead := by
  unfold decodeFrame at h
  split at h
  · rename_i hg
    cases h
    exact decodeGate_error hg
  · cases h
  · split at h
    · rename_i hr
      cases h
      exact (ringRead_error hr).1
    · split at h
      · cases h
      · exact decodeBody_error h

theorem wireInd_error {l : Launch} {tag : Byte} {f : Fault} (h : wireInd l tag = .error f) : f = .badIndicator := by
  unfold wireInd at h
  split at h
  · cases h
  · split at h
    · cases h
    · split at h
      · cases h
      · cases h; rfl

/-- A queue operation's fault is NotConfigured, or comes after the check of R110. -/
theorem ifConfigured_fault {s : State} {k : Host.Outcome State Fault Refusal} {f : Fault}
    (h : ifConfigured s k = .fault f) : f = .notConfigured ∨ s.ring.cfg = true ∧ k = .fault f := by
  unfold ifConfigured at h
  split at h
  · exact .inr ⟨‹_›, h⟩
  · cases h; exact .inl rfl

/-- A value computed from a read faults as the read does. -/
theorem returnRead_map_fault {α : Type} {x : Except Fault α} {g : α → Value} {s : State} {f : Fault}
    (h : returnRead (x.map g) s = .fault f) : x = .error f := by
  cases x with
  | ok v => cases h
  | error f' => cases h; rfl

/-- An arm faults when its guard holds and its body faults. -/
theorem takeArm_fault {g : Bool} {body : State → Except Fault State} {s : State} {f : Fault}
    (h : takeArm g body s = .fault f) : g = true ∧ body (enterHandler s) = .error f := by
  unfold takeArm at h
  split at h
  · split at h
    · cases h
    · rename_i hbody
      cases h
      exact ⟨‹_›, hbody⟩
  · cases h

/-- A step of DMA or BUS faults when its guard holds and its body faults. -/
theorem takeStep_fault {g : Bool} {body : State → Except Fault State} {s : State} {f : Fault}
    (h : takeStep g body s = .fault f) : g = true ∧ body s = .error f := by
  unfold takeStep outcomeOf at h
  split at h
  · split at h
    · cases h
    · rename_i hbody
      cases h
      exact ⟨‹_›, hbody⟩
  · cases h

/-! ### The faults of the operations -/

theorem execRbConfigure_fault {buf : Buffer} {req : Word} {s : State} {f : Fault}
    (h : execRbConfigure buf req s = .fault f) : f = .sizeOverflow ∨ f = .backingTooSmall := by
  unfold execRbConfigure at h
  split at h
  · cases h; exact .inl rfl
  · split at h
    · cases h; exact .inr rfl
    · cases h

theorem execRbDeq_fault {s : State} {f : Fault} (h : execRbDeq s = .fault f) :
    f = .notConfigured ∨ f = .foregroundConsumer ∨ s.ring.cfg = true ∧ ringDeq s.ring = .error f := by
  obtain hf | ⟨hcfg, h⟩ := ifConfigured_fault h
  · exact .inl hf
  · right
    split at h
    · cases h; exact .inl rfl
    · split at h
      · rename_i hdeq
        cases h
        exact .inr ⟨hcfg, hdeq⟩
      · cases h

theorem execRbEnqm_fault {bytes : List Byte} {s : State} {f : Fault} (h : execRbEnqm bytes s = .fault f) :
    f = .notConfigured := by
  obtain hf | ⟨_, h⟩ := ifConfigured_fault h
  · exact hf
  · split at h
    · split at h <;> cases h
    · split at h
      · cases h
      · split at h <;> cases h

theorem encodeSteps_ne_fault (k : Kind) (payload : List Byte) (len : Nat) (s : State) (f : Fault) :
    encodeSteps k payload len s ≠ .fault f := by
  intro h
  unfold encodeSteps at h
  split at h <;> split at h <;> cases h

theorem execFrEncode_fault {k : Kind} {payload : List Byte} {len : Nat} {s : State} {f : Fault}
    (h : execFrEncode k payload len s = .fault f) : f = .notConfigured := by
  unfold execFrEncode at h
  split at h
  · cases h
  · obtain hf | ⟨_, h⟩ := ifConfigured_fault h
    · exact hf
    · exact absurd h (encodeSteps_ne_fault _ _ _ _ _)

theorem execFrDecode_fault {cap : Word} {s : State} {f : Fault} (h : execFrDecode cap s = .fault f) :
    f = .notConfigured ∨ f = .foregroundConsumer ∨ f = .unwrittenRead := by
  obtain hf | ⟨_, h⟩ := ifConfigured_fault h
  · exact .inl hf
  · right
    split at h
    · cases h; exact .inl rfl
    · split at h
      · rename_i hdec
        cases h
        exact .inr (decodeFrame_error hdec)
      · cases h

/-- The observers of the ring that return what they read (R117, R118, R123, R124). -/
theorem observer_fault {α : Type} {x : Except Fault α} {g : α → Value} {s : State} {f : Fault}
    (hx : ∀ f', x = .error f' → f' = .unwrittenRead) (h : ifConfigured s (returnRead (x.map g) s) = .fault f) :
    f = .notConfigured ∨ f = .unwrittenRead := by
  obtain hf | ⟨_, h⟩ := ifConfigured_fault h
  · exact .inl hf
  · exact .inr (hx f (returnRead_map_fault h))

/-- The queue operations that only return a value once the ring is configured. -/
theorem ifConfigured_returnOp_fault {v : Value} {s t : State} {f : Fault}
    (h : ifConfigured s (returnOp v t) = .fault f) : f = .notConfigured := by
  obtain hf | ⟨_, h⟩ := ifConfigured_fault h
  · exact hf
  · cases h

theorem execBtKick_fault {s : State} {f : Fault} (h : execBtKick s = .fault f) :
    f = .kickNotIdle ∨ f = .kickBeforeStop := by
  unfold execBtKick at h
  split at h
  · cases h; exact .inl rfl
  · split at h
    · cases h; exact .inr rfl
    · cases h

theorem execBtStop_fault {s : State} {f : Fault} (h : execBtStop s = .fault f) :
    f = .stopBeforeComplete ∨ f = .stopBeforeLatched := by
  unfold execBtStop at h
  split at h
  · cases h; exact .inl rfl
  · split at h
    · cases h; exact .inr rfl
    · cases h

theorem evSbOk_error {len : Byte} {s : State} {f : Fault} (h : evSbOk len s = .error f) :
    f = .unwrittenRead ∨ f = .drOverwrite ∧ s.per.dr ≠ none := by
  unfold evSbOk at h
  split at h
  · rename_i hread
    cases h
    exact .inl (scrRead_error hread).1
  · split at h
    · rename_i hwrite
      cases h
      exact .inr (drWrite_error hwrite)
    · cases h

theorem evSbBody_error {s : State} {f : Fault} (h : evSbBody s = .error f) :
    f = .notConfigured ∨ f = .unwrittenRead ∨ f = .drOverwrite ∧ s.per.dr ≠ none := by
  unfold evSbBody at h
  split at h
  · right
    split at h
    · rename_i hdec
      cases h
      exact .inl (decodeFrame_error hdec)
    · have hcont := evSbOk_error h
      exact hcont
    · cases h
  · cases h; exact .inl rfl

theorem evTxeBody_error {s : State} {f : Fault} (h : evTxeBody s = .error f) :
    f = .badIndicator ∨ f = .drOverwrite ∧ s.per.dr ≠ none := by
  unfold evTxeBody at h
  split at h
  · rename_i hind
    cases h
    exact .inl (wireInd_error hind)
  · split at h
    · rename_i hwrite
      cases h
      exact .inr (drWrite_error hwrite)
    · cases h

theorem dmaXferBody_error {s : State} {f : Fault} (h : dmaXferBody s = .error f) :
    f = .unwrittenRead ∧ memRead s.fr.scratch s.ch.mar = none ∨ f = .drOverwrite ∧ s.per.dr ≠ none := by
  unfold dmaXferBody at h
  split at h
  · rename_i hread
    cases h
    exact .inl (scrRead_error hread)
  · split at h
    · rename_i hwrite
      cases h
      exact .inr (drWrite_error hwrite)
    · cases h

theorem busShiftBody_ne_error (a : Bool) (s : State) (f : Fault) : busShiftBody a s ≠ .error f := by
  intro h
  unfold busShiftBody at h
  split at h <;> cases h

/-! ### Where they cannot arise -/

/-- DrOverwrite comes from EV_SB, EV_TXE or DMA_XFER, each behind its guard, on a full data register (R55). -/
theorem exec_drOverwrite {i : Instr} {s : State} (h : exec i s = .fault .drOverwrite) :
    s.per.dr ≠ none ∧ (evSbGuard s = true ∨ evTxeGuard s = true ∨ dmaXferGuard s = true) := by
  cases i with
  | rbConfigure buf req => obtain hf | hf := execRbConfigure_fault h <;> cases hf
  | rbEnq | rbAvail | rbFilled | rbIsfull | rbIsempty => cases ifConfigured_returnOp_fault h
  | rbDeq =>
    obtain hf | hf | ⟨_, hdeq⟩ := execRbDeq_fault h
    · cases hf
    · cases hf
    · cases (ringDeq_error hdeq).1
  | rbEnqm bytes => cases execRbEnqm_fault h
  | rbPeek | rbPeekn | frSize => obtain hf | hf := observer_fault (fun _ hr => (ringRead_error hr).1) h <;> cases hf
  | frEncode k payload len => cases execFrEncode_fault h
  | frAligned => obtain hf | hf := observer_fault (fun _ => ringAligned_error) h <;> cases hf
  | frDecode cap => obtain hf | hf | hf := execFrDecode_fault h <;> cases hf
  | btReset => cases h
  | btKick => obtain hf | hf := execBtKick_fault h <;> cases hf
  | btWait =>
    simp only [exec, execBtWait] at h
    split at h <;> cases h
  | btSettle =>
    simp only [exec, execBtSettle] at h
    split at h <;> cases h
  | btStop => obtain hf | hf := execBtStop_fault h <;> cases hf
  | evSb =>
    obtain ⟨hg, hbody⟩ := takeArm_fault h
    obtain hf | hf | ⟨_, hdr⟩ := evSbBody_error hbody
    · cases hf
    · cases hf
    · exact ⟨hdr, .inl hg⟩
  | evAddr => cases (takeArm_fault (body := evAddrBody) h).2
  | evTxe =>
    obtain ⟨hg, hbody⟩ := takeArm_fault h
    obtain hf | ⟨_, hdr⟩ := evTxeBody_error hbody
    · cases hf
    · exact ⟨hdr, .inr (.inl hg)⟩
  | evBtf => cases (takeArm_fault (body := evBtfBody) h).2
  | erAf => cases (takeArm_fault (body := erAfBody) h).2
  | diTc => cases (takeArm_fault (body := diTcBody) h).2
  | dmaXfer =>
    obtain ⟨hg, hbody⟩ := takeStep_fault h
    obtain ⟨hf, _⟩ | ⟨_, hdr⟩ := dmaXferBody_error hbody
    · cases hf
    · exact ⟨hdr, .inr (.inr hg)⟩
  | busStart => cases (takeStep_fault (body := busStartBody) h).2
  | busLoad => cases (takeStep_fault (body := busLoadBody) h).2
  | busShift a => exact absurd (takeStep_fault h).2 (busShiftBody_ne_error a s _)
  | busStop => cases (takeStep_fault (body := busStopBody) h).2

/-- Each guard before a data register write says that the register is empty: EV_SB's by the peripheral's invariant, the
other two by TXE. -/
theorem PeripheralOk.exec_ne_drOverwrite {s : State} (hp : PeripheralOk s.per) (i : Instr) :
    exec i s ≠ .fault .drOverwrite := by
  intro h
  obtain ⟨hdr, hsb | htxe | hdma⟩ := exec_drOverwrite h
  · obtain ⟨_, hsb⟩ := (evSbGuard_iff s).mp hsb
    obtain ⟨_, hempty, _⟩ := hp.start hsb
    exact hdr hempty
  · obtain ⟨_, _, _, hempty⟩ := (evTxeGuard_iff s).mp htxe
    exact hdr hempty
  · obtain ⟨_, _, _, hempty, _⟩ := (dmaXferGuard_iff s).mp hdma
    exact hdr hempty

/-- The channel's next byte is written while its count is positive. -/
theorem ScratchOk.dmaXfer_ne_unwrittenRead {s : State} (hs : ScratchOk s) :
    exec .dmaXfer s ≠ .fault .unwrittenRead := by
  intro h
  obtain ⟨hg, hbody⟩ := takeStep_fault h
  obtain ⟨_, hread⟩ | ⟨hf, _⟩ := dmaXferBody_error hbody
  · obtain ⟨_, _, _, _, hcnt⟩ := (dmaXferGuard_iff s).mp hg
    have hwritten := hs.channel 0 hcnt
    simp [scratchWritten, hread] at hwritten
  · cases hf

/-- The first byte of a queue that is not empty is written (R113). -/
theorem RingConfigured.tail_written {r : Ring} (hr : RingConfigured r) (hne : r.head ≠ r.tail) :
    (memRead r.storage r.tail.toNat).isSome := by
  have hfilled := hr.ringFilled_advanceTail hne
  have hfirst := (queuedBytes_written_iff r).mp hr.written 0 (by omega)
  rwa [hr.toNat_queuedIndex, Nat.add_zero, Nat.mod_eq_of_lt hr.tailIn] at hfirst

theorem RingOk.rbDeq_ne_unwrittenRead {s : State} (hr : RingOk s.ring) : exec .rbDeq s ≠ .fault .unwrittenRead := by
  intro h
  obtain hf | hf | ⟨hcfg, hdeq⟩ := execRbDeq_fault h
  · cases hf
  · cases hf
  · obtain ⟨_, hne, hread⟩ := ringDeq_error hdeq
    have hwritten := (hr.configured hcfg).tail_written hne
    simp [hread] at hwritten

/-- Settles O60: the peripheral's, the scratch buffer's and the ring's invariants each shut out one of the faults;
taking an interrupt leaves the ring alone. -/
theorem unreachableFaultsDoNotArise : Obligations.UnreachableFaultsDoNotArise := by
  unfold Obligations.UnreachableFaultsDoNotArise
  intro s hs
  have hring : RingOk (enterHandler s).ring := hs.ring
  exact ⟨hs.peripheral.exec_ne_drOverwrite, hs.scratch.dmaXfer_ne_unwrittenRead, hring.rbDeq_ne_unwrittenRead⟩

end Sys2Proof.Machine
end

section
/-! The opcode map as a table of rows (30_encoding.md R91 to R93): a word has at most one row, a row says what its words
decode to, and the encoder gives an operation's word back. -/

namespace Sys2Proof

/-! ### Rows -/

theorem rowMatches_iff (w : OpWord) (r : OpRow) : rowMatches w r = true ↔ w &&& r.mask = r.pattern := by
  simp [rowMatches]

/-- Two rows that demand different values of a bit both look at have no word in common. -/
theorem masked_conflict {w m m' p p' : OpWord} (hw : w &&& m = p) (hw' : w &&& m' = p') : p &&& m' = p' &&& m := by
  subst hw hw'
  rw [BitVec.and_assoc, BitVec.and_assoc, BitVec.and_comm m m']

/-- R93's disjointness, read off the table: any two rows demand different values of some bit both look at. -/
theorem opRows_conflict : opRows.Pairwise fun r r' => r.pattern &&& r'.mask ≠ r'.pattern &&& r.mask := by
  decide

/-- Settles O3: of two rows at different positions the table's conflict shuts out a common word. -/
theorem atMostOneRowMatches : Obligations.AtMostOneRowMatches := by
  unfold Obligations.AtMostOneRowMatches
  intro w p q r r' hp hq hw hw'
  obtain ⟨hpl, rfl⟩ := List.getElem?_eq_some_iff.mp hp
  obtain ⟨hql, rfl⟩ := List.getElem?_eq_some_iff.mp hq
  have hconflict := List.pairwise_iff_getElem.mp opRows_conflict
  obtain hlt | heq | hgt := Nat.lt_trichotomy p q
  · exact absurd (masked_conflict hw hw') (hconflict p q hpl hql hlt)
  · exact heq
  · exact absurd (masked_conflict hw' hw) (hconflict q p hql hpl hgt)

/-! ### Decoding by rows -/

/-- Everything a word that decodes says: it has a row, and the row builds the operation. -/
theorem decode_ok {w : OpWord} {a : Args} {i : Instr} (h : decode w a = .ok i) :
    ∃ r ∈ opRows, w &&& r.mask = r.pattern ∧ r.build w a = i := by
  unfold decode at h
  cases hf : opRows.find? (rowMatches w) with
  | none => simp [hf] at h
  | some r =>
    simp only [hf, Except.ok.injEq] at h
    exact ⟨r, List.mem_of_find?_eq_some hf, (rowMatches_iff w r).mp (List.find?_some hf), h⟩

/-- A word without a row is rejected (R92). -/
theorem decode_reserved {w : OpWord} (a : Args) (h : ∀ r ∈ opRows, w &&& r.mask ≠ r.pattern) :
    decode w a = .error .reservedEncoding := by
  have hnone : opRows.find? (rowMatches w) = none :=
    List.find?_eq_none.mpr fun r hr hm => h r hr ((rowMatches_iff w r).mp hm)
  simp [decode, hnone]

/-- The row at any position decodes its words, because a word has no other row. -/
theorem decode_of_row {p : Nat} {r : OpRow} {w : OpWord} (a : Args) (hp : opRows[p]? = some r)
    (hw : w &&& r.mask = r.pattern) : decode w a = .ok (r.build w a) := by
  cases hf : opRows.find? (rowMatches w) with
  | none => exact absurd ((rowMatches_iff w r).mpr hw) (List.find?_eq_none.mp hf r (List.mem_of_getElem? hp))
  | some r' =>
    obtain ⟨q, hq⟩ := List.getElem?_of_mem (List.mem_of_find?_eq_some hf)
    have hpq := atMostOneRowMatches w p q r r' hp hq hw ((rowMatches_iff w r').mp (List.find?_some hf))
    have hrr : r' = r := by simpa [hpq, hq] using hp
    simp [decode, hf, hrr]

/-! ### Fields of a word (R88) -/

@[simp] theorem kindOfBit_bitOfKind (k : Kind) : kindOfBit (bitOfKind k) = k := by cases k <;> rfl
@[simp] theorem bitOfKind_kindOfBit (b : Bool) : bitOfKind (kindOfBit b) = b := by cases b <;> rfl

theorem setWidth_imm8 (w : OpWord) : (imm8 w).setWidth 16 = w &&& 0x00FF := by
  apply BitVec.eq_of_toNat_eq
  simp [imm8, Nat.and_two_pow_sub_one_eq_mod w.toNat 8]
  omega

theorem imm8_setWidth (b : Byte) : imm8 (b.setWidth 16) = b := by
  apply BitVec.eq_of_toNat_eq
  simp [imm8]
  omega

theorem setWidth_immBit (w : OpWord) : (BitVec.ofBool (immBit w)).setWidth 16 = w &&& 1 :=
  BitVec.and_one_eq_setWidth_ofBool_getLsbD.symm

theorem immBit_setWidth (b : Bool) : immBit ((BitVec.ofBool b).setWidth 16) = b := by cases b <;> rfl

theorem setWidth_and_opByte (b : Byte) : b.setWidth 16 &&& 0xFF00 = (0 : OpWord) := by
  rw [← imm8_setWidth b, setWidth_imm8, BitVec.and_assoc]
  exact BitVec.and_zero

theorem setWidth_and_clearBit (b : Bool) : (BitVec.ofBool b).setWidth 16 &&& 0xFFFE = (0 : OpWord) := by
  cases b <;> decide

/-- A format B operation carries its immediate beside the operation byte. -/
theorem imm8_or_setWidth {p : OpWord} (hp : p &&& 0xFF00 = p) (b : Byte) : imm8 (p ||| b.setWidth 16) = b := by
  have hempty : imm8 p = 0 := by rw [← hp]; simp [imm8, BitVec.extractLsb'_and]
  have hor : imm8 (p ||| b.setWidth 16) = imm8 p ||| imm8 (b.setWidth 16) := BitVec.extractLsb'_or
  rw [hor, hempty, imm8_setWidth]
  exact BitVec.zero_or

/-- A format K or A operation carries its bit beside the operation byte. -/
theorem immBit_or_setWidth {p : OpWord} (hp : p &&& 0xFFFE = p) (b : Bool) :
    immBit (p ||| (BitVec.ofBool b).setWidth 16) = b := by
  have hempty : immBit p = false := by rw [← hp]; simp [immBit]
  have hor : immBit (p ||| (BitVec.ofBool b).setWidth 16) = (immBit p || immBit ((BitVec.ofBool b).setWidth 16)) :=
    BitVec.getLsbD_or
  rw [hor, hempty, immBit_setWidth, Bool.false_or]

/-! ### Decoding what the encoder writes, one lemma per format (R88) -/

/-- A pattern with bits that its row does not look at is a word of the row. -/
theorem pattern_or_and_mask {p v m : OpWord} (hp : p &&& m = p) (hv : v &&& m = 0) : (p ||| v) &&& m = p := by
  rw [BitVec.and_or_distrib_right, hp, hv]
  exact BitVec.or_zero

theorem decode_formatN {n : Nat} {p : OpWord} {op : Args → Instr} (a : Args)
    (hrow : opRows[n]? = some ⟨p, 0xFFFF, fun _ a => op a⟩) : decode p a = .ok (op a) :=
  decode_of_row a hrow BitVec.and_allOnes

theorem decode_formatB {n : Nat} {p : OpWord} {op : Byte → Instr} (a : Args)
    (hrow : opRows[n]? = some ⟨p, 0xFF00, fun w _ => op (imm8 w)⟩) (hp : p &&& 0xFF00 = p) (b : Byte) :
    decode (p ||| b.setWidth 16) a = .ok (op b) := by
  have h := decode_of_row a hrow (pattern_or_and_mask hp (setWidth_and_opByte b))
  simpa only [imm8_or_setWidth hp] using h

/-- Formats K and A. -/
theorem decode_formatBit {n : Nat} {p : OpWord} {op : Bool → Args → Instr} (a : Args)
    (hrow : opRows[n]? = some ⟨p, 0xFFFE, fun w a => op (immBit w) a⟩) (hp : p &&& 0xFFFE = p) (b : Bool) :
    decode (p ||| (BitVec.ofBool b).setWidth 16) a = .ok (op b a) := by
  have h := decode_of_row a hrow (pattern_or_and_mask hp (setWidth_and_clearBit b))
  simpa only [immBit_or_setWidth hp] using h

/-- Settles O1: an operation with operands in its word is of the row at its position, decoded by its format; so is one
with operands outside the word; for the others the table is run on the one word. -/
theorem decodeOfEncodeIsTheOperation : Obligations.DecodeOfEncodeIsTheOperation := by
  unfold Obligations.DecodeOfEncodeIsTheOperation
  intro i
  cases i with
  | rbConfigure => exact decode_formatN (n := 0) _ rfl
  | rbEnq b => exact decode_formatB (n := 1) {} rfl rfl b
  | rbEnqm => exact decode_formatN (n := 3) _ rfl
  | rbPeekn n => exact decode_formatB (n := 7) {} rfl rfl n
  | frEncode k payload len =>
    have h := decode_formatBit (n := 10) (op := fun b a => .frEncode (kindOfBit b) a.bytes a.len)
      { bytes := payload, len := len } rfl rfl (bitOfKind k)
    rwa [kindOfBit_bitOfKind] at h
  | frDecode => exact decode_formatN (n := 13) _ rfl
  | busShift a => exact decode_formatBit (n := 28) (op := fun b _ => .busShift b) {} rfl rfl a
  | _ => rfl

/-! ### Encoding what was decoded -/

/-- An operation's word is its row's pattern with the bits of the word that the row does not look at. -/
theorem encodeWord_build (w : OpWord) (a : Args) :
    ∀ r ∈ opRows, encodeWord (r.build w a) = r.pattern ||| (w &&& ~~~r.mask) := by
  simp [opRows, queueRows, controlRows, labelRows, encodeWord, setWidth_imm8, setWidth_immBit]

/-- Settles O2: the row's pattern gives the bits that the row looks at, the operands give the others. -/
theorem decodedWordIsTheWordOfTheOperation : Obligations.DecodedWordIsTheWordOfTheOperation := by
  unfold Obligations.DecodedWordIsTheWordOfTheOperation
  intro w a i h
  obtain ⟨r, hr, hw, rfl⟩ := decode_ok h
  calc encodeWord (r.build w a)
      = (w &&& r.mask) ||| (w &&& ~~~r.mask) := by rw [encodeWord_build w a r hr, hw]
    _ = w := by rw [← BitVec.and_or_distrib_left, BitVec.or_not_self, BitVec.and_allOnes]

/-! ### Reserved words (R92) -/

/-- A field that a row looks at whole is the row's own. -/
theorem field_of_row {w m p : OpWord} {start len : Nat} (hw : w &&& m = p)
    (hm : m.extractLsb' start len = BitVec.allOnes len) : w.extractLsb' start len = p.extractLsb' start len := by
  rw [← hw, BitVec.extractLsb'_and, hm, BitVec.and_allOnes]

/-- Every row looks at the whole operation byte: at the class and at the operation number. -/
theorem opRows_masks : ∀ r ∈ opRows, r.mask.extractLsb' 12 4 = BitVec.allOnes 4 ∧
    r.mask.extractLsb' 8 4 = BitVec.allOnes 4 ∧ r.mask.extractLsb' 8 8 = BitVec.allOnes 8 := by
  decide

/-- So a word of a row has the row's class, operation number and operation byte. -/
theorem opByte_of_row {w : OpWord} {r : OpRow} (hr : r ∈ opRows) (hw : w &&& r.mask = r.pattern) :
    wordClass w = wordClass r.pattern ∧ w.extractLsb' 8 4 = r.pattern.extractLsb' 8 4 ∧
      w.extractLsb' 8 8 = r.pattern.extractLsb' 8 8 := by
  obtain ⟨hclass, hnum, hbyte⟩ := opRows_masks r hr
  exact ⟨field_of_row hw hclass, field_of_row hw hnum, field_of_row hw hbyte⟩

/-- The operation numbers that a class does not list. -/
abbrev UnlistedNumber (c n : BitVec 4) : Prop :=
  (c = 1 ∧ 0xD < n.toNat) ∨ (c = 2 ∧ 4 < n.toNat) ∨ (c = 3 ∧ 3 < n.toNat) ∨ (c = 4 ∧ 0 < n.toNat) ∨
    (c = 5 ∧ 0 < n.toNat) ∨ (c = 6 ∧ 0 < n.toNat) ∨ (c = 7 ∧ 3 < n.toNat)

theorem opRows_classes : ∀ r ∈ opRows, ¬ (wordClass r.pattern = 0 ∨ 8 ≤ (wordClass r.pattern).toNat) := by
  decide

theorem opRows_numbers : ∀ r ∈ opRows, ¬ UnlistedNumber (wordClass r.pattern) (r.pattern.extractLsb' 8 4) := by
  decide

theorem opRows_formatN : ∀ r ∈ opRows, r.pattern.extractLsb' 8 8 ≠ 0x11 → r.pattern.extractLsb' 8 8 ≠ 0x17 →
    r.pattern.extractLsb' 8 8 ≠ 0x1A → r.pattern.extractLsb' 8 8 ≠ 0x72 →
    r.mask.extractLsb' 0 8 = BitVec.allOnes 8 ∧ r.pattern.extractLsb' 0 8 = 0 := by
  decide

theorem opRows_formatBit : ∀ r ∈ opRows, r.pattern.extractLsb' 8 8 = 0x1A ∨ r.pattern.extractLsb' 8 8 = 0x72 →
    r.mask.extractLsb' 1 7 = BitVec.allOnes 7 ∧ r.pattern.extractLsb' 1 7 = 0 := by
  decide

/-- Settles O4: a word of a row would have the row's class, number and fixed immediate bits, and the table has no row
with the reserved ones. -/
theorem reservedWordsAreRejected : Obligations.ReservedWordsAreRejected := by
  unfold Obligations.ReservedWordsAreRejected
  refine fun w a => ⟨fun h => decode_reserved a fun r hr hw => ?reservedClass,
    fun h => decode_reserved a fun r hr hw => ?unlisted,
    fun h11 h17 h1A h72 himm => decode_reserved a fun r hr hw => ?formatN,
    fun hop himm => decode_reserved a fun r hr hw => ?formatBit⟩ <;>
    obtain ⟨hclass, hnum, hbyte⟩ := opByte_of_row hr hw
  case reservedClass =>
    rw [hclass] at h
    exact opRows_classes r hr h
  case unlisted =>
    rw [hclass, hnum] at h
    exact opRows_numbers r hr h
  case formatN =>
    rw [hbyte] at h11 h17 h1A h72
    obtain ⟨hmask, hzero⟩ := opRows_formatN r hr h11 h17 h1A h72
    exact himm ((field_of_row hw hmask).trans hzero)
  case formatBit =>
    rw [hbyte] at hop
    obtain ⟨hmask, hzero⟩ := opRows_formatBit r hr hop
    exact himm ((field_of_row hw hmask).trans hzero)

/-- Settles O5: the table run on each word. -/
theorem sampleWordsDecodeAsTheTableSays : Obligations.SampleWordsDecodeAsTheTableSays := by
  unfold Obligations.SampleWordsDecodeAsTheTableSays
  exact ⟨rfl, rfl, rfl, rfl, rfl, rfl, rfl, rfl⟩

end Sys2Proof
end

section
/-! A step that the schedule names (60_exceptions.md R227, 30_encoding.md R89). -/

namespace Sys2Proof.Machine

/-- An unmarked machine runs the choice that its schedule names next. -/
theorem step_of_scheduled {s : State} {p : Pick} {rest : List Pick} (hu : unmarked s) (hp : s.sch.picks = p :: rest) :
    step s = runPick p (dropPick s) := by
  obtain ⟨hf, hr⟩ := hu
  simp [step, hf, hr, runNext, nextPick, dropPick, hp]

/-- A step of the host on a word that does not decode (R92, R141). -/
theorem runHost_of_error {s : State} {w : OpWord} {a : Args} {e : DecodeError} (hf : hostFetch s.host = some (w, a))
    (hd : decode w a = .error e) : runHost s = .refused .reservedEncoding := by
  simp [runHost, hf, hd]

/-- A step of the host on a word that decodes (R89, R141). -/
theorem runHost_of_ok {s : State} {w : OpWord} {a : Args} {i : Instr} (hf : hostFetch s.host = some (w, a))
    (hd : decode w a = .ok i) : runHost s = if isHostOp i then exec i s else .refused .notHostOp := by
  simp [runHost, hf, hd]

/-- A step by label (R89). -/
theorem runLabel_of_ok {s : State} {w : OpWord} {i : Instr} (hd : decode w {} = .ok i) :
    runLabel w s = if agentEnabled i s then exec i s else hold s := by
  simp only [runLabel, hd]

theorem isHostOp_iff (i : Instr) : isHostOp i = true ↔ opClass i = .queue ∨ opClass i = .control := by
  unfold isHostOp
  cases opClass i <;> simp

/-- Settles O7: the step is the host's on its current word, and only queue and control operations are the host's. -/
theorem hostRefusesWordsThatAreNotItsOwn : Obligations.HostRefusesWordsThatAreNotItsOwn := by
  unfold Obligations.HostRefusesWordsThatAreNotItsOwn
  intro s rest w a hu hp hf
  have hstep : step s = runHost (dropPick s) := step_of_scheduled hu hp
  have hnow : hostFetch (dropPick s).host = some (w, a) := hf
  refine ⟨fun hd => ?reserved, fun i hd hq hc => ?notHost⟩
  case reserved => rw [hstep, runHost_of_error hnow hd]
  case notHost =>
    have hi : ¬ isHostOp i = true := by simp [isHostOp_iff, hq, hc]
    rw [hstep, runHost_of_ok hnow hd, if_neg hi]

/-- Settles O8: the step is the label's, which runs its operation if the agent is enabled and holds if not. -/
theorem stepRunsTheLabelledAgent : Obligations.StepRunsTheLabelledAgent := by
  unfold Obligations.StepRunsTheLabelledAgent
  intro s rest w i hu hp hd
  have hstep : step s = if agentEnabled i (dropPick s) then exec i (dropPick s) else hold (dropPick s) :=
    (step_of_scheduled hu hp).trans (runLabel_of_ok hd)
  refine ⟨fun he => ?enabled, fun he => ?disabled⟩
  case enabled => rw [hstep, if_pos he]
  case disabled => simp [hstep, he, hold]

end Sys2Proof.Machine
end

section
/-! Refused operands, the bytes of a frame on the wire and the launch (30_encoding.md R81, R84, R90). -/

namespace Sys2Proof.Machine

theorem frameOperandRefusal_of_long (payload : List Byte) {len : Nat} (h : 256 ≤ len) :
    frameOperandRefusal payload len = some .lengthTooLarge := by
  simp [frameOperandRefusal, h]

theorem frameOperandRefusal_of_short {payload : List Byte} {len : Nat} (hlen : len ≤ 255) (h : payload.length < len) :
    frameOperandRefusal payload len = some .shortPayload := by
  have hlegal : ¬ 256 ≤ len := by omega
  simp [frameOperandRefusal, hlegal, h]

/-- Operands that are refused are refused in every state (R226). -/
theorem exec_frEncode_refused {payload : List Byte} {len : Nat} {r : Refusal}
    (h : frameOperandRefusal payload len = some r) (k : Kind) (s : State) :
    exec (.frEncode k payload len) s = .refused r := by
  simp [exec, execFrEncode, h]

/-- Settles O21: the operands are refused before the state is looked at. -/
theorem frEncodeRefusesBadOperandsFirst : Obligations.FrEncodeRefusesBadOperandsFirst := by
  unfold Obligations.FrEncodeRefusesBadOperandsFirst
  exact fun k payload len s => ⟨fun h => exec_frEncode_refused (frameOperandRefusal_of_long payload h) k s,
    fun hlen h => exec_frEncode_refused (frameOperandRefusal_of_short hlen h) k s⟩

/-- Settles O28: by the setting of TAG_ENC. -/
theorem tagsAndWireIndicators : Obligations.TagsAndWireIndicators := by
  unfold Obligations.TagsAndWireIndicators
  refine fun l t => ⟨rfl, fun henc => ?wireTags, fun henc => ?smallTags⟩
  case wireTags => simp [tagOf, wireInd, henc]
  case smallTags =>
    refine ⟨by simp [tagOf, henc], by simp [wireInd, henc], by simp [wireInd, henc], fun h0 h1 => ?_⟩
    simp only [wireInd, henc, if_neg h0, if_neg h1]

/-- R81's shift doubles a 7-bit address without losing a bit. -/
theorem addrByte_toNat {l : Launch} (h : l.slaveAddr < 128) : (addrByte l).toNat = 2 * l.slaveAddr := by
  simp [addrByte, Config.writeBit, Nat.shiftLeft_eq]
  omega

theorem launchState_of_lt {l : Launch} (h : l.slaveAddr < 128) : launchState l = State.powerOn l := by
  simp [launchState, h]

theorem launchState_of_ge {l : Launch} (h : 128 ≤ l.slaveAddr) :
    launchState l = { State.powerOn l with refused := some .badSlaveAddr } := by
  simp [launchState, Nat.not_lt.mpr h]

/-- Settles O29: by the launch's check of the address; a refused launch is a marked state, which answers its mark. -/
theorem addressByteAndItsRefusal : Obligations.AddressByteAndItsRefusal := by
  unfold Obligations.AddressByteAndItsRefusal
  refine ⟨fun l h => ⟨addrByte_toNat h, launchState_of_lt h⟩, fun l h => ⟨launchState_of_ge h, ?_⟩⟩
  rw [launchState_of_ge h]
  exact step_of_refused rfl rfl

end Sys2Proof.Machine
end

section
/-! The queue as a list of bytes (10_state.md R32; 40_queue.md R112, R113, R125, R126): an enqueue appends to it, a
dequeue takes its first byte, and its length and the free places make the capacity. -/

namespace Sys2Proof.Machine

/-! ### Filled and available (R125) -/

/-- The free places are the complement of the filled ones under the mask (R114, R115). -/
theorem ringAvail_eq_not (r : Ring) : ringAvail r = ~~~(r.head - r.tail) &&& ringMask r := by
  rw [ringAvail, BitVec.not_eq_neg_add, BitVec.neg_sub, BitVec.add_comm, ← BitVec.sub_eq_add_neg]
  rfl

theorem RingConfigured.filled_add_avail {r : Ring} (hr : RingConfigured r) :
    (ringFilled r).toNat + (ringAvail r).toNat = r.size.toNat - 1 := by
  obtain ⟨q, hq⟩ := hr.size_dvd
  have hlt : (r.head - r.tail).toNat < r.size.toNat * q := hq ▸ (r.head - r.tail).isLt
  have hrem : (r.head - r.tail).toNat % r.size.toNat < r.size.toNat := Nat.mod_lt _ hr.size_pos
  rw [ringAvail_eq_not, ringFilled, hr.toNat_and_ringMask, hr.toNat_and_ringMask, BitVec.toNat_not, hq,
    Nat.sub_sub, Nat.add_comm 1, Nat.mul_sub_mod hlt]
  omega

theorem RingConfigured.filled_eq_zero_iff {r : Ring} (hr : RingConfigured r) :
    (ringFilled r).toNat = 0 ↔ r.head = r.tail := by
  have ht := hr.tailIn
  rw [← BitVec.toNat_inj, hr.toNat_ringFilled]
  split <;> omega

/-- A ring is full when all its places but one are filled (R119). -/
theorem RingConfigured.ringFull_iff_avail {r : Ring} (hr : RingConfigured r) :
    ringFull r = true ↔ (ringAvail r).toNat = 0 := by
  have hh := hr.headIn
  have ht := hr.tailIn
  have hsum := hr.filled_add_avail
  rw [hr.toNat_ringFilled] at hsum
  rw [ringFull, beq_iff_eq, ← BitVec.toNat_inj, hr.toNat_ringNext_of_lt hh]
  split at hsum <;> split <;> omega

/-- Settles O26: the two counts are complements under the mask, and both predicates compare indices below the size. -/
theorem filledAndAvailableMakeTheCapacity : Obligations.FilledAndAvailableMakeTheCapacity := by
  unfold Obligations.FilledAndAvailableMakeTheCapacity
  exact fun r hr => ⟨hr.filled_add_avail, beq_iff_eq.trans hr.filled_eq_zero_iff.symm, hr.ringFull_iff_avail⟩

/-! ### The three cases of a dequeue (R113) -/

theorem ringDeq_of_empty {r : Ring} (h : r.head = r.tail) : ringDeq r = .ok (none, r) := by
  simp [ringDeq, ringEmpty, h]

theorem ringDeq_of_read {r : Ring} {v : Byte} (hne : r.head ≠ r.tail)
    (hread : memRead r.storage r.tail.toNat = some v) :
    ringDeq r = .ok (some v, { r with tail := ringNext r r.tail }) := by
  simp [ringDeq, ringEmpty, hne, ringRead_ok.mpr hread]

theorem ringRead_of_none {r : Ring} {i : Word} (h : memRead r.storage i.toNat = none) :
    ringRead r i = .error .unwrittenRead := by
  simp [ringRead, h]

theorem ringDeq_of_unwritten {r : Ring} (hne : r.head ≠ r.tail)
    (hread : memRead r.storage r.tail.toNat = none) : ringDeq r = .error .unwrittenRead := by
  simp [ringDeq, ringEmpty, hne, ringRead_of_none hread]

/-! ### The queued bytes -/

@[simp] theorem length_queuedBytes (r : Ring) : (queuedBytes r).length = (ringFilled r).toNat := by
  simp [queuedBytes]

/-- The byte at a position of the queue is the cell at its index. -/
theorem getElem?_queuedBytes {r : Ring} {j : Nat} (hj : j < (ringFilled r).toNat) :
    (queuedBytes r)[j]? = some (memRead r.storage (queuedIndex r j).toNat) := by
  simp [queuedBytes, hj]

theorem queuedBytes_of_empty {r : Ring} (h : r.head = r.tail) : queuedBytes r = [] := by
  simp [queuedBytes, ringFilled, h]

theorem RingConfigured.queuedBytes_eq_nil_iff {r : Ring} (hr : RingConfigured r) :
    queuedBytes r = [] ↔ r.head = r.tail := by
  rw [← List.length_eq_zero_iff, length_queuedBytes, hr.filled_eq_zero_iff]

/-- Every queued cell was written, so the queue is a list of bytes (R113). -/
theorem RingConfigured.exists_queuedBytes {r : Ring} (hr : RingConfigured r) :
    ∃ bs : List Byte, queuedBytes r = bs.map some := by
  have hbytes : queuedBytes r ∈ Set.range (List.map (some : Byte → Option Byte)) := by
    rw [Set.range_list_map]
    exact fun x hx => ⟨x.get (hr.written x hx), Option.some_get _⟩
  obtain ⟨bs, hbs⟩ := hbytes
  exact ⟨bs, hbs.symm⟩

/-- `head` points behind the queued cells. -/
theorem RingConfigured.queuedIndex_ne_head {r : Ring} (hr : RingConfigured r) {j : Nat}
    (hj : j < (ringFilled r).toNat) : (queuedIndex r j).toNat ≠ r.head.toNat := by
  have hh := hr.headIn
  have ht := hr.tailIn
  rw [hr.toNat_ringFilled] at hj
  have hlt : r.tail.toNat + j < 2 * r.size.toNat := by split at hj <;> omega
  rw [hr.toNat_queuedIndex, mod_eq_ite_of_lt_two_mul hlt]
  split at hj <;> split <;> omega

/-- A push appends its byte (R126). -/
theorem RingConfigured.queuedBytes_ringPush {r : Ring} (hr : RingConfigured r) (b : Byte)
    (hfull : ringFull r = false) : queuedBytes (ringPush b r) = queuedBytes r ++ [some b] := by
  have hindex : ∀ j, queuedIndex (ringPush b r) j = queuedIndex r j := fun _ => rfl
  rw [queuedBytes, hr.ringFilled_ringPush b hfull, List.range_succ, List.map_append, List.map_singleton]
  simp only [hindex, hr.queuedIndex_filled, ringPush_storage, memRead_memWrite_same]
  congr 1
  refine List.map_congr_left fun j hj => ?_
  exact memRead_memWrite_other _ _ (hr.queuedIndex_ne_head (List.mem_range.mp hj))

/-- The queue is the cell at `tail` and the queue after a dequeue (R126). -/
theorem RingConfigured.queuedBytes_eq_cons {r : Ring} (hr : RingConfigured r) (hne : r.head ≠ r.tail) :
    queuedBytes r =
      memRead r.storage r.tail.toNat :: queuedBytes { r with tail := ringNext r r.tail } := by
  have hfirst : (queuedIndex r 0).toNat = r.tail.toNat := by
    rw [hr.toNat_queuedIndex, Nat.add_zero, Nat.mod_eq_of_lt hr.tailIn]
  have hnext : ∀ j, (queuedIndex { r with tail := ringNext r r.tail } j).toNat = (queuedIndex r (j + 1)).toNat :=
    hr.queuedIndex_advanceTail
  rw [queuedBytes, ← hr.ringFilled_advanceTail hne, List.range_succ_eq_map, List.map_cons, List.map_map, hfirst,
    queuedBytes]
  simp only [hnext]
  rfl

/-- A dequeue takes the first queued byte (R113, R126). -/
theorem RingConfigured.ringDeq_of_queuedBytes {r : Ring} (hr : RingConfigured r) {b : Byte}
    {rest : List (Option Byte)} (h : queuedBytes r = some b :: rest) :
    ringDeq r = .ok (some b, { r with tail := ringNext r r.tail }) ∧
      RingConfigured { r with tail := ringNext r r.tail } ∧
      queuedBytes { r with tail := ringNext r r.tail } = rest := by
  have hne : r.head ≠ r.tail := fun he => by rw [queuedBytes_of_empty he] at h; cases h
  rw [hr.queuedBytes_eq_cons hne, List.cons.injEq] at h
  obtain ⟨hfirst, hrest⟩ := h
  exact ⟨ringDeq_of_read hne hfirst, hr.advanceTail hne, hrest⟩

end Sys2Proof.Machine
end

section
/-! The queue operations one by one (40_queue.md R110 to R121, R123, R124): what each answers in each of its cases. -/

namespace Sys2Proof.Machine

/-! ### Before configuration (R110, R226) -/

/-- A queue operation other than RB_CONFIGURE, with well-formed operands, stops at the check of R110. -/
theorem exec_notConfigured {i : Instr} {s : State} (hcfg : s.ring.cfg = false) (hi : needsConfigured i) :
    exec i s = .fault .notConfigured := by
  obtain ⟨hclass, hwf, hother⟩ := hi
  cases i with
  | rbConfigure buf req => exact absurd rfl (hother buf req)
  | frEncode k payload len =>
    simp only [exec, execFrEncode, frameOperandRefusal_of_wf hwf, ifConfigured_false _ hcfg]
  | rbEnq | rbDeq | rbEnqm | rbAvail | rbFilled | rbPeek | rbPeekn | rbIsfull | rbIsempty | frAligned | frSize
  | frDecode => exact ifConfigured_false _ hcfg
  | _ => cases hclass

theorem takeArm_of_error {g : Bool} {body : State → Except Fault State} {s : State} {f : Fault} (hg : g = true)
    (hb : body (enterHandler s) = .error f) : takeArm g body s = .fault f := by
  simp [takeArm, hg, hb]

theorem evSbBody_notConfigured {s : State} (hcfg : s.ring.cfg = false) : evSbBody s = .error .notConfigured := by
  simp [evSbBody, hcfg]

/-- Settles O12: R110's check comes first in every queue operation and in EV_SB's decode, and the context second in
the two consuming ones. -/
theorem queuePreconditionsAreChecked : Obligations.QueuePreconditionsAreChecked := by
  unfold Obligations.QueuePreconditionsAreChecked
  refine fun s => ⟨fun i => exec_notConfigured, fun hcfg hst hsb => ?evSb, fun cap hcfg hctx => ?consumers⟩
  case evSb => exact takeArm_of_error ((evSbGuard_iff s).mpr ⟨hst, hsb⟩) (evSbBody_notConfigured hcfg)
  case consumers =>
    simp only [exec, execRbDeq, execFrDecode, ifConfigured_true _ hcfg, hctx, and_self]

/-! ### RB_CONFIGURE (R111) -/

theorem ceilPow2From_of_least {n k₀ k x : Nat} (hlow : k₀ ≤ k) (hhigh : k ≤ k₀ + n) (hk : x ≤ 2 ^ k)
    (hleast : ∀ j, j < k → 2 ^ j < x) : ceilPow2From n k₀ x = 2 ^ k := by
  induction n generalizing k₀ with
  | zero => rw [ceilPow2From, Nat.le_antisymm hlow hhigh]
  | succ n ih =>
    unfold ceilPow2From
    obtain heq | hlt := Nat.eq_or_lt_of_le hlow
    · rw [heq, if_pos hk]
    · rw [if_neg (hleast k₀ hlt).not_ge, ih hlt (by omega)]

/-- The realised size is the smallest power of two that holds the request (R111). -/
theorem realizedSize_of_least {req : Word} {k : Nat} (hreq : req.toNat ≤ 2 ^ 31) (hk : max req.toNat 1 ≤ 2 ^ k)
    (hleast : ∀ j, j < k → 2 ^ j < max req.toNat 1) : realizedSize req = 2 ^ k := by
  have hbound : k ≤ 31 := by
    by_contra hgt
    have h31 := hleast 31 (by omega)
    omega
  exact ceilPow2From_of_least (Nat.zero_le k) (by omega) hk hleast

theorem memBelow_mono {m : Memory} {lo hi : Nat} (hle : lo ≤ hi) (h : memBelow lo m = true) :
    memBelow hi m = true := by
  simp only [memBelow, List.all_eq_true, decide_eq_true_eq] at h ⊢
  exact fun c hc => (h c hc).trans_le hle

/-- Cells listed in order and inside the array are written one behind the other (R111; log 11). -/
theorem backingFold_append {n lo : Nat} {cells : List Host.Cell} {m : Memory} (hrise : cellsRise lo cells = true)
    (hin : cells.all (fun c => decide (c.1 < n)) = true) (hm : memBelow lo m = true) :
    cells.foldl (fun m c => if c.1 < n then memWrite m c.1 c.2 else m) m = m ++ cells := by
  induction cells generalizing lo m with
  | nil => exact (List.append_nil m).symm
  | cons c rest ih =>
    obtain ⟨i, v⟩ := c
    simp only [cellsRise, Bool.and_eq_true, decide_eq_true_eq, List.all_cons] at hrise hin
    obtain ⟨hlo, hrise⟩ := hrise
    obtain ⟨hi, hin⟩ := hin
    have happend : memWrite m i v = m ++ [(i, v)] := memWrite_above v (memBelow_mono hlo hm)
    have hnext : memBelow (i + 1) (m ++ [(i, v)]) = true := by
      have hbelow : memBelow (i + 1) m = true := memBelow_mono (by omega) hm
      simpa [memBelow] using hbelow
    rw [List.foldl_cons, if_pos hi, happend, ih hrise hin hnext, List.append_assoc]
    rfl

theorem backingCells_of_wf {b : Backing} (h : b.wf = true) : backingCells b = b.cells := by
  obtain ⟨hrise, hin⟩ := Bool.and_eq_true_iff.mp h
  exact backingFold_append hrise hin rfl

/-- Settles O13: the two checks in their order, with the realised size as the least power of two. -/
theorem rbConfigureSetsUpTheRing : Obligations.RbConfigureSetsUpTheRing := by
  unfold Obligations.RbConfigureSetsUpTheRing
  refine fun buf req s => ⟨fun hbig => ?overflow, fun k hreq hk hleast => ?sized,
    fun b => ⟨rfl, backingCells_of_wf⟩, rfl, rfl⟩
  case overflow => simp only [exec, execRbConfigure, if_pos hbig]
  case sized =>
    simp only [exec, execRbConfigure, if_neg hreq.not_gt, realizedSize_of_least hreq hk hleast]
    exact ⟨fun hshort => if_pos hshort, fun hfits => if_neg hfits.not_gt⟩

/-! ### Enqueueing (R112, R116, R121) -/

theorem ringFull_iff (r : Ring) : ringFull r = true ↔ (r.head + 1) &&& (r.size - 1) = r.tail := beq_iff_eq

theorem ringFull_eq_false_iff (r : Ring) : ringFull r = false ↔ (r.head + 1) &&& (r.size - 1) ≠ r.tail :=
  beq_eq_false_iff_ne

theorem ringEnq_of_full {b : Byte} {r : Ring} (h : ringFull r = true) : ringEnq b r = (false, r) := by
  simp [ringEnq, h]

theorem ringEnq_of_not_full {b : Byte} {r : Ring} (h : ringFull r = false) : ringEnq b r = (true, ringPush b r) := by
  simp [ringEnq, h]

/-- An outcome that pushes `b` on the ring writes `head`'s cell and no other, and advances `head` (R112): the form in
which the statements say so. -/
theorem exists_storage_of_push {o : Host.Outcome State Fault Refusal} {b : Byte} {s : State} {h : HostAgent}
    (ho : o = .next { s with ring := ringPush b s.ring, host := h }) :
    ∃ m, o = .next { s with
        ring := { s.ring with storage := m, head := (s.ring.head + 1) &&& (s.ring.size - 1) }, host := h } ∧
      memRead m s.ring.head.toNat = some b ∧
      ∀ j, j ≠ s.ring.head.toNat → memRead m j = memRead s.ring.storage j :=
  ⟨memWrite s.ring.storage s.ring.head.toNat b, ho, memRead_memWrite_same _ _ _,
    fun _ => memRead_memWrite_other _ _⟩

theorem exec_rbEnq_of_full {b : Byte} {s : State} (hcfg : s.ring.cfg = true) (hfull : ringFull s.ring = true) :
    exec (.rbEnq b) s = .next { s with host := hostFinish (hostLog (.bool false) s.host) } := by
  simp only [exec, execRbEnq, ifConfigured_true _ hcfg, ringEnq_of_full hfull, returnOp]

theorem exec_rbEnq_of_not_full {b : Byte} {s : State} (hcfg : s.ring.cfg = true) (hfull : ringFull s.ring = false) :
    exec (.rbEnq b) s =
      .next { s with ring := ringPush b s.ring, host := hostFinish (hostLog (.bool true) s.host) } := by
  simp only [exec, execRbEnq, ifConfigured_true _ hcfg, ringEnq_of_not_full hfull, returnOp]

/-- Settles O14: by whether the ring is full. -/
theorem rbEnqStoresAtHeadUnlessFull : Obligations.RbEnqStoresAtHeadUnlessFull := by
  unfold Obligations.RbEnqStoresAtHeadUnlessFull
  exact fun b s hcfg => ⟨fun hfull => exec_rbEnq_of_full hcfg ((ringFull_iff _).mpr hfull),
    fun hroom => exists_storage_of_push (exec_rbEnq_of_not_full hcfg ((ringFull_eq_false_iff _).mpr hroom))⟩

/-- Settles O16: by the sub-step, the space and the ring being full. -/
theorem rbEnqmRunsByteByByte : Obligations.RbEnqmRunsByteByByte := by
  unfold Obligations.RbEnqmRunsByteByByte
  intro bytes s hcfg
  simp only [exec, execRbEnqm, ifConfigured_true _ hcfg]
  refine ⟨fun hsub hspace => ?noSpace, fun hsub hspace => ?space, fun i b hsub hb hroom => ?byte,
    fun i b hsub hb hfull => ?full, fun hsub => ?done⟩
  case noSpace => rw [if_pos hsub]; exact if_pos hspace
  case space => rw [if_pos hsub]; exact if_neg hspace.not_gt
  case byte =>
    refine exists_storage_of_push ?_
    simp only [hsub, Nat.succ_ne_zero, if_false, Nat.add_sub_cancel, hb,
      ringEnq_of_not_full ((ringFull_eq_false_iff _).mpr hroom), subStep]
  case full =>
    simp only [hsub, Nat.succ_ne_zero, if_false, Nat.add_sub_cancel, hb,
      ringEnq_of_full ((ringFull_iff _).mpr hfull), returnOp]
  case done =>
    simp only [hsub, Nat.succ_ne_zero, if_false, Nat.add_sub_cancel, List.getElem?_length, returnOp]

/-- FR_ENCODE with legal operands on a configured ring runs its sub-steps (R121). -/
theorem exec_frEncode_of_legal {k : Kind} {payload : List Byte} {len : Nat} {s : State} (hlen : len ≤ 255)
    (hpayload : len ≤ payload.length) (hcfg : s.ring.cfg = true) :
    exec (.frEncode k payload len) s = encodeSteps k payload len s := by
  have hwf : frameOperandsWf payload len = true := by simp [frameOperandsWf, hlen, hpayload]
  simp only [exec, execFrEncode, frameOperandRefusal_of_wf hwf, ifConfigured_true _ hcfg]

/-- The bytes FR_ENCODE enqueues, in order (R121): tag, length, payload. -/
def encodedFrame (l : Launch) (k : Kind) (payload : List Byte) (len : Nat) : List Byte :=
  tagOf l k :: BitVec.ofNat 8 len :: payload.take len

theorem frameBytes_eq (l : Launch) (k : Kind) (payload : List Byte) (len : Nat) :
    frameBytes l k payload len = (encodedFrame l k payload len).map some := rfl

theorem length_encodedFrame (l : Launch) (k : Kind) {payload : List Byte} {len : Nat} (h : len ≤ payload.length) :
    (encodedFrame l k payload len).length = len + 2 := by
  simp [encodedFrame, h]

/-- Sub-step `j + 1` enqueues the frame's byte `j` (R121; log 12). -/
theorem encodeByte_succ (l : Launch) (k : Kind) {payload : List Byte} {len : Nat} (h : len ≤ payload.length)
    (j : Nat) : encodeByte l k payload len (j + 1) = (encodedFrame l k payload len)[j]? := by
  match j with
  | 0 => rfl
  | 1 => rfl
  | i + 2 =>
    have hsub : i + 2 + 1 = 3 + i := by omega
    have hnoTag : 3 + i ≠ 1 := by omega
    have hnoLength : 3 + i ≠ 2 := by omega
    simp only [encodeByte, encodedFrame, hsub, if_neg hnoTag, if_neg hnoLength, Nat.add_lt_add_iff_left,
      Nat.add_sub_cancel_left, List.getElem?_cons_succ, List.getElem?_take]
    split
    · rw [List.getElem?_eq_getElem (by omega), List.getD_eq_getElem]
    · rfl

theorem encodeSteps_of_space {k : Kind} {payload : List Byte} {len : Nat} {s : State} (hsub : hostSub s.host = 0)
    (hspace : len + 2 ≤ (ringAvail s.ring).toNat) :
    encodeSteps k payload len s = .next { s with host := hostNextSub s.host } := by
  simp only [encodeSteps, hsub, if_true, if_neg hspace.not_gt, subStep]

/-- A byte step of FR_ENCODE enqueues its byte, whatever the enqueue answers (R121; log 20). -/
theorem encodeSteps_of_byte {k : Kind} {payload : List Byte} {len j : Nat} {b : Byte} {s : State}
    (hpayload : len ≤ payload.length) (hsub : hostSub s.host = j + 1)
    (hb : (encodedFrame s.launch k payload len)[j]? = some b) :
    encodeSteps k payload len s = .next { s with ring := (ringEnq b s.ring).2, host := hostNextSub s.host } := by
  simp only [encodeSteps, hsub, Nat.succ_ne_zero, if_false, encodeByte_succ _ _ hpayload, hb, subStep]

theorem encodeSteps_of_done {k : Kind} {payload : List Byte} {len j : Nat} {s : State}
    (hpayload : len ≤ payload.length) (hsub : hostSub s.host = j + 1)
    (hend : (encodedFrame s.launch k payload len)[j]? = none) :
    encodeSteps k payload len s = .next { s with host := hostFinish (hostLog (.bool true) s.host) } := by
  simp only [encodeSteps, hsub, Nat.succ_ne_zero, if_false, encodeByte_succ _ _ hpayload, hend, returnOp]

/-- Settles O20: by the sub-step; a byte step is `encodeSteps_of_byte` at the byte's position in the frame. -/
theorem frEncodeRunsByteByByte : Obligations.FrEncodeRunsByteByByte := by
  unfold Obligations.FrEncodeRunsByteByByte
  intro k payload len s hlen hpayload hcfg
  have hframe := length_encodedFrame s.launch k hpayload
  rw [exec_frEncode_of_legal hlen hpayload hcfg]
  refine ⟨fun hsub hspace => ?noSpace, encodeSteps_of_space, fun b hb hroom => ?byte, fun hpos hlast hfull => ?full,
    fun hsub => ?done⟩
  case noSpace =>
    rw [encodeSteps, if_pos hsub]
    exact if_pos hspace
  case byte =>
    obtain ⟨j, hsub, hj⟩ : ∃ j, hostSub s.host = j + 1 ∧ (encodedFrame s.launch k payload len)[j]? = some b := by
      obtain ⟨hsub, rfl⟩ | ⟨hsub, rfl⟩ | ⟨i, hi, hsub, hbyte⟩ := hb
      · exact ⟨0, hsub, rfl⟩
      · exact ⟨1, hsub, rfl⟩
      · refine ⟨i + 2, by omega, ?_⟩
        simp [encodedFrame, hi, hbyte]
    refine exists_storage_of_push ?_
    rw [encodeSteps_of_byte hpayload hsub hj, ringEnq_of_not_full ((ringFull_eq_false_iff _).mpr hroom)]
  case full =>
    obtain ⟨j, hsub⟩ : ∃ j, hostSub s.host = j + 1 := ⟨hostSub s.host - 1, by omega⟩
    have hj : (encodedFrame s.launch k payload len)[j]? = some _ := List.getElem?_eq_getElem (by omega)
    rw [encodeSteps_of_byte hpayload hsub hj, ringEnq_of_full ((ringFull_iff _).mpr hfull)]
  case done => exact encodeSteps_of_done hpayload (j := len + 2) (by omega) (List.getElem?_eq_none hframe.le)

/-! ### Dequeueing and observing (R113 to R120, R123, R124) -/

/-- RB_DEQ in interrupt context hands on what the dequeue answers (R113; log 8). -/
theorem exec_rbDeq_of_ok {s : State} {v : Option Byte} {r : Ring} (hcfg : s.ring.cfg = true)
    (hctx : s.cpu.ctx = .interrupt) (hdeq : ringDeq s.ring = .ok (v, r)) :
    exec .rbDeq s = .next { s with ring := r, cpu := { s.cpu with armRet := some (.option v) } } := by
  simp only [exec, execRbDeq, ifConfigured_true _ hcfg, hctx, hdeq]

theorem exec_rbDeq_of_error {s : State} {f : Fault} (hcfg : s.ring.cfg = true) (hctx : s.cpu.ctx = .interrupt)
    (hdeq : ringDeq s.ring = .error f) : exec .rbDeq s = .fault f := by
  simp only [exec, execRbDeq, ifConfigured_true _ hcfg, hctx, hdeq]

/-- Settles O15: by the three cases of a dequeue. -/
theorem rbDeqReadsAtTailUnlessEmpty : Obligations.RbDeqReadsAtTailUnlessEmpty := by
  unfold Obligations.RbDeqReadsAtTailUnlessEmpty
  refine fun s hcfg hctx => ⟨fun he => exec_rbDeq_of_ok hcfg hctx (ringDeq_of_empty he), fun v hne hread => ?taken,
    fun hne hread => ?unwritten⟩
  case taken => exact exec_rbDeq_of_ok hcfg hctx (ringDeq_of_read hne hread)
  case unwritten => exact exec_rbDeq_of_error hcfg hctx (ringDeq_of_unwritten hne hread)

/-- Settles O17: each observer returns its formula. -/
theorem queueObserversReturnTheirFormula : Obligations.QueueObserversReturnTheirFormula := by
  unfold Obligations.QueueObserversReturnTheirFormula
  intro s hcfg
  exact ⟨ifConfigured_true _ hcfg, ifConfigured_true _ hcfg, ifConfigured_true _ hcfg, ifConfigured_true _ hcfg⟩

/-- An observer that returns a value of the cell at `i` (R117, R118, R124). -/
theorem observe_of_some {s : State} {i : Word} {v : Byte} {g : Byte → Value} (hcfg : s.ring.cfg = true)
    (hread : memRead s.ring.storage i.toNat = some v) :
    ifConfigured s (returnRead ((ringRead s.ring i).map g) s) =
      .next { s with host := hostFinish (hostLog (g v) s.host) } := by
  rw [ifConfigured_true _ hcfg, ringRead_ok.mpr hread]
  rfl

theorem observe_of_none {s : State} {i : Word} {g : Byte → Value} (hcfg : s.ring.cfg = true)
    (hread : memRead s.ring.storage i.toNat = none) :
    ifConfigured s (returnRead ((ringRead s.ring i).map g) s) = .fault .unwrittenRead := by
  rw [ifConfigured_true _ hcfg, ringRead_of_none hread]
  rfl

/-- Settles O18: both peeks observe one cell. -/
theorem peeksReadWithoutConsuming : Obligations.PeeksReadWithoutConsuming := by
  unfold Obligations.PeeksReadWithoutConsuming
  exact fun s n hcfg => ⟨fun v => observe_of_some hcfg, observe_of_none hcfg, fun v => observe_of_some hcfg,
    observe_of_none hcfg⟩

theorem ringAligned_of_some {l : Launch} {r : Ring} {t : Byte} (h : memRead r.storage r.tail.toNat = some t) :
    ringAligned l r = .ok (t == tagOf l .command || t == tagOf l .data) := by
  simp only [ringAligned, ringRead_ok.mpr h]

theorem ringAligned_of_none {l : Launch} {r : Ring} (h : memRead r.storage r.tail.toNat = none) :
    ringAligned l r = .error .unwrittenRead := by
  simp only [ringAligned, ringRead_of_none h]

/-- Settles O19: FR_ALIGNED compares the byte at `tail` with the tags, FR_SIZE observes the cell after it. -/
theorem frameProbesReadTheHeader : Obligations.FrameProbesReadTheHeader := by
  unfold Obligations.FrameProbesReadTheHeader
  refine fun s hcfg => ⟨fun t hread => ?aligned, fun hread => ?alignedUnwritten, fun v hread => ?size,
    observe_of_none hcfg⟩
  case aligned =>
    simp only [exec, execFrAligned, ifConfigured_true _ hcfg, ringAligned_of_some hread, Bool.decide_or, beq_eq_decide]
    rfl
  case alignedUnwritten =>
    simp only [exec, execFrAligned, ifConfigured_true _ hcfg, ringAligned_of_none hread]
    rfl
  case size =>
    have hwrap : v + 1 = BitVec.ofNat 8 ((v.toNat + 1) % 256) := by
      apply BitVec.eq_of_toNat_eq
      simp [BitVec.toNat_add]
    rw [← hwrap]
    exact observe_of_some hcfg hread

end Sys2Proof.Machine
end

section
/-! The queue is first in, first out (40_queue.md R126), and FR_ENCODE with no other agent between appends its whole
frame (R121, R83). -/

namespace Sys2Proof.Machine

/-- Settles O25: a push appends, and a dequeue takes the first byte. -/
theorem queueIsFirstInFirstOut : Obligations.QueueIsFirstInFirstOut := by
  unfold Obligations.QueueIsFirstInFirstOut
  refine ⟨fun b s t hcfg hr h => ⟨fun hroom => ?push, fun hfull => ?full⟩, fun s b rest hcfg hr hctx hqueue => ?deq⟩
  case push =>
    rw [exec_rbEnq_of_not_full hcfg hroom] at h
    cases h
    exact hr.queuedBytes_ringPush b hroom
  case full =>
    rw [exec_rbEnq_of_full hcfg hfull] at h
    cases h
    rfl
  case deq =>
    obtain ⟨hdeq, _, hrest⟩ := hr.ringDeq_of_queuedBytes hqueue
    exact ⟨_, exec_rbDeq_of_ok hcfg hctx hdeq, hrest⟩

/-! ### Pushing several bytes -/

/-- The ring after pushing the bytes of a list in order. -/
def ringPushAll : List Byte → Ring → Ring
  | [], r => r
  | b :: bs, r => ringPushAll bs (ringPush b r)

@[simp] theorem ringPushAll_cfg (bs : List Byte) (r : Ring) : (ringPushAll bs r).cfg = r.cfg := by
  induction bs generalizing r with
  | nil => rfl
  | cons b bs ih => exact ih (ringPush b r)

/-- While a place is free the ring is not full, and a push takes one place. -/
theorem RingConfigured.push_of_space {r : Ring} (hr : RingConfigured r) (b : Byte) {n : Nat}
    (hspace : n + 1 ≤ (ringAvail r).toNat) : ringFull r = false ∧ n ≤ (ringAvail (ringPush b r)).toNat := by
  have hroom : ringFull r = false := by
    rw [Bool.eq_false_iff, Ne, hr.ringFull_iff_avail]
    omega
  have hfilled := hr.ringFilled_ringPush b hroom
  have hbefore := hr.filled_add_avail
  have hafter := (hr.push b hroom).filled_add_avail
  rw [ringPush_size] at hafter
  exact ⟨hroom, by omega⟩

theorem RingConfigured.pushAll {r : Ring} (hr : RingConfigured r) {bs : List Byte}
    (hspace : bs.length ≤ (ringAvail r).toNat) :
    RingConfigured (ringPushAll bs r) ∧ queuedBytes (ringPushAll bs r) = queuedBytes r ++ bs.map some ∧
      (ringPushAll bs r).tail = r.tail := by
  induction bs generalizing r with
  | nil => exact ⟨hr, (List.append_nil _).symm, rfl⟩
  | cons b bs ih =>
    obtain ⟨hroom, hrest⟩ := hr.push_of_space b hspace
    obtain ⟨hconf, hqueue, htail⟩ := ih (hr.push b hroom) hrest
    refine ⟨hconf, ?_, htail⟩
    rw [hr.queuedBytes_ringPush b hroom, List.append_assoc] at hqueue
    exact hqueue

/-! ### The run of FR_ENCODE -/

@[simp] theorem hostSub_hostNextSub (h : HostAgent) : hostSub (hostNextSub h) = hostSub h + 1 := rfl

/-- Where an operation's sub-steps end does not depend on how many there were (log 12). -/
theorem hostFinish_hostNextSub (v : Value) (h : HostAgent) :
    hostFinish (hostLog v (hostNextSub h)) = hostFinish (hostLog v h) := rfl

theorem execTimes_succ_of_next {i : Instr} {n : Nat} {s t : State} (h : exec i s = .next t) :
    execTimes i (n + 1) s = execTimes i n t := by
  simp only [execTimes, h]

/-- From the sub-step of a frame's byte on, FR_ENCODE pushes the rest of the frame and returns true (R121). -/
theorem execTimes_frEncode_rest {k : Kind} {payload rest : List Byte} {len j : Nat} {s : State} (hlen : len ≤ 255)
    (hpayload : len ≤ payload.length) (hcfg : s.ring.cfg = true) (hr : RingConfigured s.ring)
    (hspace : rest.length ≤ (ringAvail s.ring).toNat) (hsub : hostSub s.host = j + 1)
    (hrest : (encodedFrame s.launch k payload len).drop j = rest) :
    execTimes (.frEncode k payload len) (rest.length + 1) s =
      .next { s with ring := ringPushAll rest s.ring, host := hostFinish (hostLog (.bool true) s.host) } := by
  induction rest generalizing s j with
  | nil =>
    have hend := List.getElem?_eq_none (List.drop_eq_nil_iff.mp hrest)
    rw [execTimes_succ_of_next ((exec_frEncode_of_legal hlen hpayload hcfg).trans
      (encodeSteps_of_done hpayload hsub hend))]
    rfl
  | cons b bs ih =>
    have hb : (encodedFrame s.launch k payload len)[j]? = some b := by
      rw [← Nat.add_zero j, ← List.getElem?_drop, hrest]; rfl
    have hbs : (encodedFrame s.launch k payload len).drop (j + 1) = bs := by
      rw [← List.drop_drop, hrest]; rfl
    obtain ⟨hroom, hleft⟩ := hr.push_of_space b hspace
    have hstep := encodeSteps_of_byte hpayload hsub hb
    rw [ringEnq_of_not_full hroom] at hstep
    rw [List.length_cons, execTimes_succ_of_next ((exec_frEncode_of_legal hlen hpayload hcfg).trans hstep),
      ← hostFinish_hostNextSub]
    exact ih (s := { s with ring := ringPush b s.ring, host := hostNextSub s.host }) (j := j + 1) hcfg
      (hr.push b hroom) hleft (by simp [hsub]) hbs

/-- FR_ENCODE run to its end: the space check, the frame's bytes pushed in order, and true (R121). -/
theorem execTimes_frEncode {k : Kind} {payload : List Byte} {len : Nat} {s : State} (hlen : len ≤ 255)
    (hpayload : len ≤ payload.length) (hcfg : s.ring.cfg = true) (hr : RingConfigured s.ring)
    (hsub : hostSub s.host = 0) (hspace : len + 2 ≤ (ringAvail s.ring).toNat) :
    execTimes (.frEncode k payload len) (len + 4) s =
      .next { s with
        ring := ringPushAll (encodedFrame s.launch k payload len) s.ring
        host := hostFinish (hostLog (.bool true) s.host) } := by
  have hframe := length_encodedFrame s.launch k hpayload
  have hcheck := (exec_frEncode_of_legal (k := k) hlen hpayload hcfg).trans (encodeSteps_of_space hsub hspace)
  have hbytes := execTimes_frEncode_rest (s := { s with host := hostNextSub s.host }) hlen hpayload hcfg hr
    (hframe.trans_le hspace) (by simp [hsub]) (List.drop_zero (l := encodedFrame s.launch k payload len))
  rw [hframe, hostFinish_hostNextSub] at hbytes
  exact (execTimes_succ_of_next hcheck).trans hbytes

/-- Settles O22: the run pushes the frame's bytes, which append to the queue. -/
theorem frEncodeQueuesTheWholeFrame : Obligations.FrEncodeQueuesTheWholeFrame := by
  unfold Obligations.FrEncodeQueuesTheWholeFrame
  intro k payload len s hlen hpayload hcfg hr hsub hspace
  obtain ⟨hconf, hqueue, htail⟩ := hr.pushAll ((length_encodedFrame s.launch k hpayload).trans_le hspace)
  rw [← frameBytes_eq] at hqueue
  exact ⟨_, execTimes_frEncode hlen hpayload hcfg hr hsub hspace, hqueue, htail, hconf⟩

end Sys2Proof.Machine
end

section
/-! FR_DECODE over the queued bytes (40_queue.md R122): the checks, and then the tag, the length and as much of the
payload as the queue holds. With FR_ENCODE this is the round trip of R126. -/

namespace Sys2Proof.Machine

/-! ### Writing several scratch cells -/

/-- The scratch buffer after writing the bytes of a list to the cells from `i` on. -/
def scrWriteAll (i : Nat) : List Byte → Memory → Memory
  | [], m => m
  | b :: bs, m => scrWriteAll (i + 1) bs (scrWrite m i b)

theorem memRead_scrWriteAll_outside {i j : Nat} {bs : List Byte} {m : Memory} (h : j < i ∨ i + bs.length ≤ j) :
    memRead (scrWriteAll i bs m) j = memRead m j := by
  induction bs generalizing i m with
  | nil => rfl
  | cons b bs ih =>
    rw [List.length_cons] at h
    rw [scrWriteAll, ih (by omega), scrWrite, memRead_memWrite_other _ _ (by omega)]

theorem memRead_scrWriteAll_of_getElem? {i j : Nat} {bs : List Byte} {v : Byte} {m : Memory}
    (hv : bs[j]? = some v) : memRead (scrWriteAll i bs m) (i + j) = some v := by
  induction bs generalizing i j m with
  | nil => cases hv
  | cons b bs ih =>
    cases j with
    | zero =>
      rw [scrWriteAll, memRead_scrWriteAll_outside (.inl (by omega)), scrWrite, Nat.add_zero, memRead_memWrite_same]
      exact hv
    | succ j =>
      have hcell : i + (j + 1) = i + 1 + j := by omega
      rw [scrWriteAll, hcell, ih hv]

/-! ### The ring after several dequeues -/

/-- The ring with `n` bytes taken: `tail` at the index of the byte after them. -/
def ringTake (n : Nat) (r : Ring) : Ring := { r with tail := queuedIndex r n }

theorem RingConfigured.ringTake_zero {r : Ring} (hr : RingConfigured r) : ringTake 0 r = r := by
  have htail : queuedIndex r 0 = r.tail := by
    apply BitVec.eq_of_toNat_eq
    rw [hr.toNat_queuedIndex, Nat.add_zero, Nat.mod_eq_of_lt hr.tailIn]
  rw [ringTake, htail]

theorem RingConfigured.ringTake_advanceTail {r : Ring} (hr : RingConfigured r) (n : Nat) :
    ringTake n { r with tail := ringNext r r.tail } = ringTake (n + 1) r := by
  have htail : queuedIndex { r with tail := ringNext r r.tail } n = queuedIndex r (n + 1) :=
    BitVec.eq_of_toNat_eq (hr.queuedIndex_advanceTail n)
  simp only [ringTake, htail]

/-- Taking every queued byte moves `tail` up to `head`. -/
theorem RingConfigured.queuedIndex_length {r : Ring} (hr : RingConfigured r) :
    queuedIndex r (queuedBytes r).length = r.head := by
  apply BitVec.eq_of_toNat_eq
  rw [length_queuedBytes, hr.queuedIndex_filled]

/-! ### The dequeues of a decode -/

/-- The payload loop takes the bytes it is asked for, or all there are, and says whether they sufficed (R122). -/
theorem RingConfigured.takePayload_eq {r : Ring} (hr : RingConfigured r) {bs : List Byte}
    (hqueue : queuedBytes r = bs.map some) (n i : Nat) (m : Memory) :
    takePayload n i r m =
      .ok (decide (n ≤ bs.length), ringTake (min n bs.length) r, scrWriteAll (1 + i) (bs.take n) m) := by
  induction n generalizing r bs i m with
  | zero => simp [takePayload, hr.ringTake_zero, scrWriteAll]
  | succ n ih =>
    cases bs with
    | nil => simp [takePayload, ringDeq_of_empty (hr.queuedBytes_eq_nil_iff.mp hqueue), hr.ringTake_zero, scrWriteAll]
    | cons b bs =>
      obtain ⟨hdeq, hconf, hrest⟩ := hr.ringDeq_of_queuedBytes hqueue
      simp only [takePayload, hdeq, ih hconf hrest, hr.ringTake_advanceTail, List.length_cons, Nat.add_min_add_right,
        Nat.add_le_add_iff_right, List.take_succ_cons, scrWriteAll, Nat.add_assoc]

/-- With the whole frame queued a decode takes it: the tag and the payload to the scratch buffer (R122). -/
theorem RingConfigured.decodeBody_whole {r : Ring} (hr : RingConfigured r) {tag len : Byte} {bs : List Byte}
    (hqueue : queuedBytes r = (tag :: len :: bs).map some) (hlen : len.toNat ≤ bs.length) (m : Memory) :
    decodeBody r m = .ok ⟨.ok len, ringTake (len.toNat + 2) r, scrWriteAll 0 (tag :: bs.take len.toNat) m⟩ := by
  obtain ⟨htag, hr1, hq1⟩ := hr.ringDeq_of_queuedBytes hqueue
  obtain ⟨hlength, hr2, hq2⟩ := hr1.ringDeq_of_queuedBytes hq1
  simp only [decodeBody, htag, hlength, hr2.takePayload_eq hq2, decide_eq_true hlen, Nat.min_eq_left hlen,
    hr1.ringTake_advanceTail, hr.ringTake_advanceTail, scrWriteAll]

/-- With less than the announced frame queued a decode takes every byte and fails; the length byte alone is not
written to the scratch buffer (R122). -/
theorem RingConfigured.decodeBody_short {r : Ring} (hr : RingConfigured r) {bs : List Byte}
    (hqueue : queuedBytes r = bs.map some) (hshort : ∀ len, bs[1]? = some len → bs.length < len.toNat + 2)
    (m : Memory) :
    decodeBody r m = .ok ⟨.error .bufferEmpty, { r with tail := r.head }, scrWriteAll 0 (bs.eraseIdx 1) m⟩ := by
  have hhead : queuedIndex r bs.length = r.head := by
    rw [← hr.queuedIndex_length, hqueue, List.length_map]
  have hall : { r with tail := r.head } = ringTake bs.length r := by rw [ringTake, hhead]
  rw [hall]
  match bs with
  | [] => simp [decodeBody, ringDeq_of_empty (hr.queuedBytes_eq_nil_iff.mp hqueue), hr.ringTake_zero, scrWriteAll]
  | [tag] =>
    obtain ⟨htag, hr1, hq1⟩ := hr.ringDeq_of_queuedBytes hqueue
    simp [decodeBody, htag, ringDeq_of_empty (hr1.queuedBytes_eq_nil_iff.mp hq1), ← hr.ringTake_advanceTail,
      hr1.ringTake_zero, scrWriteAll]
  | tag :: len :: bs =>
    have hmissing : bs.length < len.toNat := by simpa using hshort len rfl
    obtain ⟨htag, hr1, hq1⟩ := hr.ringDeq_of_queuedBytes hqueue
    obtain ⟨hlength, hr2, hq2⟩ := hr1.ringDeq_of_queuedBytes hq1
    simp only [decodeBody, htag, hlength, hr2.takePayload_eq hq2, decide_eq_false hmissing.not_ge,
      Nat.min_eq_right hmissing.le, List.take_of_length_le hmissing.le, hr1.ringTake_advanceTail,
      hr.ringTake_advanceTail, scrWriteAll, List.length_cons, List.eraseIdx_cons_succ, List.eraseIdx_cons_zero]

/-! ### The checks before them -/

theorem decodeGate_of_open {l : Launch} {r : Ring} (h : gateOpen l r) : decodeGate l r = .ok true := by
  cases hcheck : l.alignCheck with
  | neverGates => simp only [decodeGate, hcheck]
  | strict =>
    obtain hnever | ⟨t, hread, htag⟩ := h
    · rw [hcheck] at hnever; cases hnever
    · simp only [decodeGate, hcheck, ringAligned_of_some hread]
      simpa using htag

/-- A queued tag that the gate accepts opens it. -/
theorem gateOpen_of_accepts {l : Launch} {r : Ring} {t : Byte} (h : gateAccepts l t)
    (hread : memRead r.storage r.tail.toNat = some t) : gateOpen l r :=
  h.imp_right fun htag => ⟨t, hread, htag⟩

theorem decodeFrame_of_misaligned {l : Launch} {cap : Word} {r : Ring} {m : Memory} {t : Byte}
    (hcheck : l.alignCheck = .strict) (hread : memRead r.storage r.tail.toNat = some t)
    (hcommand : t ≠ tagOf l .command) (hdata : t ≠ tagOf l .data) :
    decodeFrame l cap r m = .ok ⟨.error .frameMisaligned, r, m⟩ := by
  have hgate : decodeGate l r = .ok false := by
    simp [decodeGate, hcheck, ringAligned_of_some hread, hcommand, hdata]
  simp only [decodeFrame, hgate]

theorem decodeFrame_of_unwritten_tag {l : Launch} {cap : Word} {r : Ring} {m : Memory}
    (hcheck : l.alignCheck = .strict) (hread : memRead r.storage r.tail.toNat = none) :
    decodeFrame l cap r m = .error .unwrittenRead := by
  simp only [decodeFrame, decodeGate, hcheck, ringAligned_of_none hread]

theorem decodeFrame_of_unwritten_length {l : Launch} {cap : Word} {r : Ring} {m : Memory} (hgate : gateOpen l r)
    (hread : memRead r.storage (ringNext r r.tail).toNat = none) :
    decodeFrame l cap r m = .error .unwrittenRead := by
  simp only [decodeFrame, decodeGate_of_open hgate, ringRead_of_none hread]

theorem decodeFrame_of_small_capacity {l : Launch} {cap : Word} {r : Ring} {m : Memory} {len : Byte}
    (hgate : gateOpen l r) (hread : memRead r.storage (ringNext r r.tail).toNat = some len)
    (hcap : cap.toNat < len.toNat + 1) :
    decodeFrame l cap r m = .ok ⟨.error .capacityTooSmall, r, m⟩ := by
  simp only [decodeFrame, decodeGate_of_open hgate, ringRead_ok.mpr hread, if_pos hcap]

theorem decodeFrame_of_capacity {l : Launch} {cap : Word} {r : Ring} {m : Memory} {len : Byte}
    (hgate : gateOpen l r) (hread : memRead r.storage (ringNext r r.tail).toNat = some len)
    (hcap : len.toNat + 1 ≤ cap.toNat) : decodeFrame l cap r m = decodeBody r m := by
  simp only [decodeFrame, decodeGate_of_open hgate, ringRead_ok.mpr hread, if_neg hcap.not_gt]

/-! ### FR_DECODE in interrupt context -/

/-- FR_DECODE hands on what the decode answers (R122; log 8). -/
theorem exec_frDecode_of_ok {cap : Word} {s : State} {d : FrameDecode} (hcfg : s.ring.cfg = true)
    (hctx : s.cpu.ctx = .interrupt) (hdec : decodeFrame s.launch cap s.ring s.fr.scratch = .ok d) :
    exec (.frDecode cap) s = .next { s with
      ring := d.ring
      fr := { s.fr with scratch := d.scratch }
      cpu := { s.cpu with armRet := some (decodeValue d.res) } } := by
  simp only [exec, execFrDecode, ifConfigured_true _ hcfg, hctx, hdec]

theorem exec_frDecode_of_error {cap : Word} {s : State} {f : Fault} (hcfg : s.ring.cfg = true)
    (hctx : s.cpu.ctx = .interrupt) (hdec : decodeFrame s.launch cap s.ring s.fr.scratch = .error f) :
    exec (.frDecode cap) s = .fault f := by
  simp only [exec, execFrDecode, ifConfigured_true _ hcfg, hctx, hdec]

/-- The cells of the first two queued bytes are the ones at `tail` and after it (R83). -/
theorem RingConfigured.memRead_header {r : Ring} (hr : RingConfigured r) {tag len : Byte} {rest : List (Option Byte)}
    (hqueue : queuedBytes r = some tag :: some len :: rest) :
    memRead r.storage r.tail.toNat = some tag ∧ memRead r.storage (ringNext r r.tail).toNat = some len := by
  obtain ⟨_, hr1, hq1⟩ := hr.ringDeq_of_queuedBytes hqueue
  have hne : r.head ≠ r.tail := fun he => by rw [queuedBytes_of_empty he] at hqueue; cases hqueue
  have hne1 : r.head ≠ ringNext r r.tail := fun he => by rw [queuedBytes_of_empty he] at hq1; cases hq1
  rw [hr.queuedBytes_eq_cons hne, List.cons.injEq] at hqueue
  rw [hr1.queuedBytes_eq_cons hne1, List.cons.injEq] at hq1
  exact ⟨hqueue.1, hq1.1⟩

/-- The index after a frame with a payload of `len` bytes, as R122 counts it. -/
theorem queuedIndex_frame (r : Ring) (len : Byte) :
    queuedIndex r (len.toNat + 2) = (r.tail + 2 + len.setWidth 32) &&& (r.size - 1) := by
  have hcount : BitVec.ofNat 32 (len.toNat + 2) = 2 + len.setWidth 32 := by
    apply BitVec.eq_of_toNat_eq
    simp [BitVec.toNat_add, Nat.add_comm]
  rw [queuedIndex, hcount, ← BitVec.add_assoc]
  rfl

/-- The bytes behind known queued ones were written too. -/
theorem RingConfigured.exists_queuedBytes_append {r : Ring} (hr : RingConfigured r) {xs : List Byte}
    {rest : List (Option Byte)} (hqueue : queuedBytes r = xs.map some ++ rest) :
    ∃ ys : List Byte, queuedBytes r = (xs ++ ys).map some := by
  obtain ⟨bs, hbs⟩ := hr.exists_queuedBytes
  obtain ⟨xs', ys, rfl, hxs, -⟩ := List.map_eq_append_iff.mp (hbs.symm.trans hqueue)
  rw [List.map_injective_iff.mpr (Option.some_injective _) hxs] at hbs
  exact ⟨ys, hbs⟩

/-- Settles O23: the header cells pass the checks, and the dequeues take the whole frame. -/
theorem frDecodeTakesTheWholeFrame : Obligations.FrDecodeTakesTheWholeFrame := by
  unfold Obligations.FrDecodeTakesTheWholeFrame
  intro s cap tag len payload rest hcfg hr hctx hpayload hqueue hgate hcap
  obtain ⟨htag, hlength⟩ := hr.memRead_header hqueue
  obtain ⟨ys, hbytes⟩ := hr.exists_queuedBytes_append hqueue
  have htake : (payload ++ ys).take len.toNat = payload := List.take_left' hpayload
  have hbody := hr.decodeBody_whole (bs := payload ++ ys) hbytes (by simp [hpayload]) s.fr.scratch
  rw [htake] at hbody
  have hdec := (decodeFrame_of_capacity (gateOpen_of_accepts hgate htag) hlength hcap).trans hbody
  refine ⟨scrWriteAll 0 (tag :: payload) s.fr.scratch, ?next, ?tag, fun i hi => ?payload, fun i hi => ?other⟩
  case next =>
    rw [exec_frDecode_of_ok hcfg hctx hdec, ringTake, queuedIndex_frame]
    rfl
  case tag => exact memRead_scrWriteAll_of_getElem? (i := 0) (j := 0) rfl
  case payload =>
    rw [scrWriteAll, List.getElem?_eq_getElem hi]
    exact memRead_scrWriteAll_of_getElem? (i := 1) (List.getElem?_eq_getElem hi)
  case other => exact memRead_scrWriteAll_outside (.inr (by rw [List.length_cons]; omega))

/-- Settles O24: each check in its order, and the dequeues of a queue that ends before its frame. -/
theorem frDecodeFailuresAsStated : Obligations.FrDecodeFailuresAsStated := by
  unfold Obligations.FrDecodeFailuresAsStated
  refine fun s cap hcfg hctx => ⟨fun t hcheck hread hcommand hdata => ?misaligned, fun hcheck hread => ?noTag,
    fun hgate hread => ?noLength, fun len hgate hread hcap => ?small, fun len hgate hr hread hcap hshort => ?short⟩
  case misaligned => exact exec_frDecode_of_ok hcfg hctx (decodeFrame_of_misaligned hcheck hread hcommand hdata)
  case noTag => exact exec_frDecode_of_error hcfg hctx (decodeFrame_of_unwritten_tag hcheck hread)
  case noLength => exact exec_frDecode_of_error hcfg hctx (decodeFrame_of_unwritten_length hgate hread)
  case small => exact exec_frDecode_of_ok hcfg hctx (decodeFrame_of_small_capacity hgate hread hcap)
  case short =>
    obtain ⟨bs, hqueue⟩ := hr.exists_queuedBytes
    rw [hqueue, List.length_map] at hshort
    have hannounced : ∀ len', bs[1]? = some len' → bs.length < len'.toNat + 2 := by
      intro len' hlen'
      match bs, hlen' with
      | tag :: _ :: rest, rfl =>
        obtain ⟨_, hlength⟩ := hr.memRead_header hqueue
        cases hread.symm.trans hlength
        exact hshort
    have hdec := (decodeFrame_of_capacity hgate hread hcap).trans
      (hr.decodeBody_short hqueue hannounced s.fr.scratch)
    refine ⟨scrWriteAll 0 (bs.eraseIdx 1) s.fr.scratch, exec_frDecode_of_ok hcfg hctx hdec, fun b hb => ?tag,
      fun k b hb => ?payload, fun hnone => ?empty, fun i hpos hi => ?other⟩
    case tag =>
      rw [hqueue, List.getElem?_map] at hb
      obtain ⟨v, hv, rfl⟩ := Option.map_eq_some_iff.mp hb
      refine memRead_scrWriteAll_of_getElem? (i := 0) (j := 0) ?_
      rw [List.getElem?_eraseIdx_of_lt Nat.zero_lt_one, hv]
    case payload =>
      rw [hqueue, List.getElem?_map, Nat.add_right_comm 1 1 k] at hb
      obtain ⟨v, hv, rfl⟩ := Option.map_eq_some_iff.mp hb
      rw [← Nat.zero_add (1 + k)]
      refine memRead_scrWriteAll_of_getElem? ?_
      rw [List.getElem?_eraseIdx_of_ge (Nat.le_add_right 1 k), hv]
    case empty =>
      rw [hqueue, List.map_eq_nil_iff] at hnone
      rw [hnone]
      rfl
    case other =>
      rw [hqueue, List.length_map] at hi
      refine memRead_scrWriteAll_outside (.inr ?_)
      rw [List.length_eraseIdx]
      split <;> omega

/-- Settles O27: FR_ENCODE leaves exactly the frame in the queue, and FR_DECODE takes it whole. -/
theorem encodedFrameDecodesToItself : Obligations.EncodedFrameDecodesToItself := by
  unfold Obligations.EncodedFrameDecodesToItself
  intro k payload len cap s t hlen hpayload hcfg hr hempty hsub hspace hcap hrun
  have hframe := length_encodedFrame s.launch k hpayload
  obtain ⟨hconf, hqueue, -⟩ := hr.pushAll (hframe.trans_le hspace)
  rw [queuedBytes_of_empty hempty, List.nil_append] at hqueue
  cases (execTimes_frEncode hlen hpayload hcfg hr hsub hspace).symm.trans hrun
  have hcfg' := (ringPushAll_cfg (encodedFrame s.launch k payload len) s.ring).trans hcfg
  generalize ringPushAll (encodedFrame s.launch k payload len) s.ring = r at hconf hqueue hcfg'
  have hlength : (BitVec.ofNat 8 len).toNat = len := by rw [BitVec.toNat_ofNat, Nat.mod_eq_of_lt (by omega)]
  have htake : (payload.take len).length = len := List.length_take_of_le hpayload
  have hgate : gateAccepts s.launch (tagOf s.launch k) := by cases k <;> simp [gateAccepts]
  obtain ⟨m, hdecode, htag, hcells, -⟩ := frDecodeTakesTheWholeFrame
    (enterHandler { s with ring := r, host := hostFinish (hostLog (.bool true) s.host) })
    cap (tagOf s.launch k) (BitVec.ofNat 8 len) (payload.take len) [] hcfg' hconf rfl
    (htake.trans hlength.symm) (hqueue.trans (List.append_nil _).symm) hgate (by omega)
  refine ⟨_, hdecode, rfl, htag, fun i hi => ?payload, queuedBytes_of_empty ?taken⟩
  case payload => rw [hcells i (by omega), List.getElem?_take_of_lt hi]
  case taken =>
    have hall := hconf.queuedIndex_length
    have hcount : (queuedBytes r).length = (BitVec.ofNat 8 len).toNat + 2 := by
      rw [hqueue, List.length_map, hframe, hlength]
    rw [hcount, queuedIndex_frame] at hall
    exact hall.symm

end Sys2Proof.Machine
end

section
/-! The host's steps and its control operations (41_host_control.md R140 to R149): which operation a host step runs, in
what order the program's words are read, and what BT_RESET, BT_KICK, BT_WAIT, BT_SETTLE and BT_STOP do. -/

namespace Sys2Proof.Machine

/-! ### The step of the host -/

/-- Settles O6: the step is the host's on its current word, which decodes to an operation of its own. -/
theorem stepRunsTheHostOperation : Obligations.StepRunsTheHostOperation := by
  unfold Obligations.StepRunsTheHostOperation
  intro s rest w a i hu hp hf hd hi
  have hnow : hostFetch (dropPick s).host = some (w, a) := hf
  calc step s = runHost (dropPick s) := step_of_scheduled hu hp
    _ = exec i (dropPick s) := by rw [runHost_of_ok hnow hd, if_pos hi]

/-! ### The control operations -/

/-- Settles O30: BT_RESET is the block reset, group by group the literal reset values of R240. -/
theorem btResetRestoresTheBlock : Obligations.BtResetRestoresTheBlock := by
  unfold Obligations.BtResetRestoresTheBlock
  intro s
  rfl

theorem kickNotIdle_iff (s : State) :
    kickNotIdle s = true ↔ (s.tr.st ≠ .idle ∧ s.tr.st ≠ .done) ∨ s.per.startReq = true ∨ s.per.sb = true := by
  simp [kickNotIdle, or_assoc]

theorem kickBeforeStop_iff (s : State) :
    kickBeforeStop s = true ↔ s.per.phase ≠ .bIdle ∧ s.per.stopReq = false := by
  simp [kickBeforeStop]

/-- Settles O31: the two checks in their order, each decided by its proposition, then the request. -/
theorem btKickRequestsOneStart : Obligations.BtKickRequestsOneStart := by
  unfold Obligations.BtKickRequestsOneStart
  refine fun s => ⟨fun hbad => ?notIdle, fun hst hstart hsb => ?accepted⟩
  case notIdle => exact if_pos ((kickNotIdle_iff s).mpr hbad)
  case accepted =>
    have hidle : ¬ kickNotIdle s = true := by
      rw [kickNotIdle_iff, hstart, hsb]
      tauto
    refine ⟨fun hbusy hstop => ?beforeStop, fun hfree => ?request⟩
    case beforeStop => exact (if_neg hidle).trans (if_pos ((kickBeforeStop_iff s).mpr ⟨hbusy, hstop⟩))
    case request =>
      have hstopped : ¬ kickBeforeStop s = true := by
        simpa [kickBeforeStop_iff, or_iff_not_imp_left] using hfree
      exact (if_neg hidle).trans (if_neg hstopped)

theorem byteInFlight_iff (p : Peripheral) : byteInFlight p = true ↔ p.dr ≠ none ∨ p.sh ≠ none := by
  simp [byteInFlight, Option.isSome_iff_ne_none]

theorem byteInFlight_eq_false_iff (p : Peripheral) : byteInFlight p = false ↔ p.dr = none ∧ p.sh = none := by
  simp [byteInFlight]

/-- Settles O32: BT_WAIT branches on `complete`, BT_SETTLE on SETTLE_OK and the byte in flight. -/
theorem btWaitAndBtSettleHold : Obligations.BtWaitAndBtSettleHold := by
  unfold Obligations.BtWaitAndBtSettleHold
  refine fun s => ⟨fun hdone => ?waited, fun hopen => ?waits, fun hok hbyte => ?settles, fun hfree => ?settled⟩
  case waited => exact if_pos hdone
  case waits => exact if_neg (Bool.eq_false_iff.mp hopen)
  case settles => exact if_pos (by rw [(byteInFlight_iff s.per).mpr hbyte, hok]; rfl)
  case settled =>
    refine if_neg ?_
    obtain hok | hempty := hfree
    · simp [hok]
    · simp [(byteInFlight_eq_false_iff s.per).mpr hempty]

/-- Settles O33: the two checks in their order, then the request. -/
theorem btStopRequestsTheStop : Obligations.BtStopRequestsTheStop := by
  unfold Obligations.BtStopRequestsTheStop
  refine fun s => ⟨fun hopen => ?beforeComplete, fun hdone hbyte => ?beforeLatched, fun hdone hdr hsh => ?request⟩
  case beforeComplete => simp [exec, execBtStop, hopen]
  case beforeLatched => simp [exec, execBtStop, hdone, (byteInFlight_iff s.per).mpr hbyte]
  case request =>
    simp [exec, execBtStop, hdone, (byteInFlight_eq_false_iff s.per).mpr ⟨hdr, hsh⟩, finishOp]

/-! ### The host's program -/

theorem hostEntryOps_of_entry {h : HostAgent} {e : HostEntry} (he : h.prog[h.pc]? = some e) :
    hostEntryOps h = expandEntry e := by
  simp [hostEntryOps, he]

/-- Past the last entry the host has no operation (R141). -/
theorem hostFetch_of_finished {h : HostAgent} (hend : h.prog.length ≤ h.pc) : hostFetch h = none := by
  simp [hostFetch, hostEntryOps, hend]

theorem hostFetch_of_entry {h : HostAgent} {e : HostEntry} (he : h.prog[h.pc]? = some e) :
    hostFetch h = (expandEntry e)[hostOpIndex h]? := by
  rw [hostFetch, hostEntryOps_of_entry he]

/-- An operation that is not the entry's last is followed by the next one of the expansion. -/
theorem hostFinish_of_more {h : HostAgent} {e : HostEntry} (he : h.prog[h.pc]? = some e)
    (hmore : hostOpIndex h + 1 < (expandEntry e).length) :
    hostFinish h = { h with micro := some { op := hostOpIndex h + 1, sub := 0 } } := by
  rw [hostFinish, hostEntryOps_of_entry he, if_pos hmore]

/-- The entry's last operation is followed by the next entry. -/
theorem hostFinish_of_last {h : HostAgent} {e : HostEntry} (he : h.prog[h.pc]? = some e)
    (hlast : hostOpIndex h + 1 = (expandEntry e).length) :
    hostFinish h = { h with pc := h.pc + 1, micro := none } := by
  rw [hostFinish, hostEntryOps_of_entry he, if_neg (Nat.not_lt_of_le hlast.ge), hostNextEntry]

/-- Settles O34: each kind of entry by its expansion, an operation by its place in it. -/
theorem hostProgramIsReadInOrder : Obligations.HostProgramIsReadInOrder := by
  unfold Obligations.HostProgramIsReadInOrder
  refine ⟨fun _ _ => rfl, fun h => ⟨fun hm => ?first, fun op sub hm => ?inProgress, rfl, hostFetch_of_finished⟩,
    fun h e he => ⟨?word, ?frame, ?init⟩⟩
  case first => simp [hostOpIndex, hostSub, hm]
  case inProgress => simp [hostOpIndex, hostSub, hm]
  case word =>
    rintro w a rfl hop
    exact ⟨by rw [hostFetch_of_entry he, hop]; rfl, hostFinish_of_last he (by rw [hop]; rfl)⟩
  case frame =>
    rintro k bytes len n hentry rfl
    have hops : expandEntry e = writeFrameOps k bytes len := by
      obtain rfl | ⟨rfl, rfl, rfl⟩ | ⟨rfl, rfl, rfl⟩ := hentry <;> rfl
    have hcount : (expandEntry e).length = 5 := by rw [hops]; rfl
    refine ⟨?_, fun hn => hostFinish_of_more he (by omega), fun hn => hostFinish_of_last he (by omega)⟩
    rw [hostFetch_of_entry he, hops, writeFrameOps]
  case init =>
    rintro buf req n rfl rfl
    refine ⟨hostFetch_of_entry he, fun hn => ?_, fun hn => hostFinish_of_last he (by rw [hn]; rfl)⟩
    rw [hostFinish_of_more he (by rw [hn]; exact Nat.one_lt_two), hn]

end Sys2Proof.Machine
end

section
/-! A placed word (the model's interface, log 9): `withFetchWord` puts a word where the very next step takes it, a host
operation at `hpc` and a step label first in the schedule. -/

namespace Sys2Proof.Machine

/-! ### The word and where it is placed -/

/-- A table word that decodes is a 16-bit word that decodes with its operands all zero (log 10). -/
theorem decodeTableWord_some {w : Nat} {i : Instr} (h : decodeTableWord 16 w = some i) :
    w < 65536 ∧ decode (BitVec.ofNat 16 w) {} = .ok i := by
  unfold decodeTableWord at h
  split at h
  next hw =>
    cases hd : decode (BitVec.ofNat 16 w) {} with
    | ok j => rw [hd] at h; cases h; exact ⟨hw.2, rfl⟩
    | error e => rw [hd] at h; cases h
  next => cases h

theorem opRows_buildClass (w : OpWord) (a : Args) :
    ∀ r ∈ opRows, wordClass r.pattern = classNibble (opClass (r.build w a)) := by
  simp [opRows, queueRows, controlRows, labelRows, opClass, classNibble, wordClass]

/-- The top four bits of an operation's word name its agent class (R89). -/
theorem wordClass_encodeWord (i : Instr) : wordClass (encodeWord i) = classNibble (opClass i) := by
  obtain ⟨r, hr, hw, hi⟩ := decode_ok (decodeOfEncodeIsTheOperation i)
  calc wordClass (encodeWord i) = wordClass r.pattern := (opByte_of_row hr hw).1
    _ = classNibble (opClass i) := by rw [opRows_buildClass _ _ r hr, hi]

/-- The launch arguments that a placed label runs with: for BUS_SHIFT the answer that ACKS gives next is its own. -/
def labelLaunch (i : Instr) (s : State) : Launch :=
  match i with
  | .busShift a => { s.launch with acks := s.launch.acks.set s.dev.shifts a }
  | _ => s.launch

theorem labelLaunch_of_ne {i : Instr} {s : State} (h : ∀ a, i ≠ .busShift a) : labelLaunch i s = s.launch := by
  cases i with
  | busShift a => exact absurd rfl (h a)
  | _ => rfl

/-- The state that a placed bus label runs on: the bus going on, the device giving the label's answer. -/
def busPlaced (i : Instr) (s : State) : State :=
  { s with dev := { s.dev with wedged := false }, launch := labelLaunch i s }

theorem placeWord_host {i : Instr} (hi : isHostOp i = true) (s : State) :
    placeWord s (encodeWord i) =
      { s with
        sch := { s.sch with picks := .host :: s.sch.picks }
        host := placeEntry s.host (.op (encodeWord i) {}) } := by
  obtain hc | hc := (isHostOp_iff i).mp hi <;> simp [placeWord, wordClass_encodeWord, hc, classNibble]

theorem placeWord_label {i : Instr} (hi : isHostOp i = false) (hbus : opClass i ≠ .bus) (s : State) :
    placeWord s (encodeWord i) = { s with sch := { s.sch with picks := .label (encodeWord i) :: s.sch.picks } } := by
  unfold placeWord
  rw [wordClass_encodeWord]
  unfold isHostOp at hi
  cases hc : opClass i with
  | queue => simp [hc] at hi
  | control => simp [hc] at hi
  | bus => exact absurd hc hbus
  | _ => rfl

/-- The word of a BUS_SHIFT names its answer, and no other bus label has such a word (R91). -/
theorem answerFrom_encodeWord {i : Instr} (hbus : opClass i = .bus) (s : State) :
    (if encodeWord i &&& 0xFFFE = 0x7200 then answerFrom s (encodeWord i) else s.launch) = labelLaunch i s := by
  cases i with
  | busShift a =>
    rw [encodeWord, pattern_or_and_mask rfl (setWidth_and_clearBit a), if_pos rfl, answerFrom,
      immBit_or_setWidth rfl, labelLaunch]
  | busStart => rfl
  | busLoad => rfl
  | busStop => rfl
  | _ => cases hbus

theorem placeWord_bus {i : Instr} (hbus : opClass i = .bus) (s : State) :
    placeWord s (encodeWord i) =
      { busPlaced i s with sch := { s.sch with picks := .label (encodeWord i) :: s.sch.picks } } := by
  unfold placeWord
  rw [wordClass_encodeWord, hbus, busPlaced, ← answerFrom_encodeWord hbus]
  rfl

/-! ### A placed host operation -/

/-- The placed entry stands at `hpc`, whatever the program's length. -/
theorem placeEntry_prog_pc (h : HostAgent) (e : HostEntry) : (placeEntry h e).prog[h.pc]? = some e := by
  simp [placeEntry]

/-- Every other entry of the program is as before. -/
theorem placeEntry_prog_other {h : HostAgent} (e : HostEntry) {n : Nat} (hn : n < h.prog.length) (hne : n ≠ h.pc) :
    (placeEntry h e).prog[n]? = h.prog[n]? := by
  have hlen : ((h.prog ++ List.replicate h.pc e).take h.pc).length = h.pc := by simp
  unfold placeEntry
  obtain hlt | hgt := Nat.lt_or_gt_of_ne hne
  · rw [List.getElem?_append_left (by omega), List.getElem?_take_of_lt hlt, List.getElem?_append_left hn]
  · obtain ⟨k, rfl⟩ := Nat.exists_eq_add_of_lt hgt
    rw [List.getElem?_append_right (by omega), hlen, Nat.add_assoc, Nat.add_sub_cancel_left, List.getElem?_cons_succ,
      List.getElem?_drop, Nat.add_right_comm, Nat.add_assoc]

theorem hostFetch_placeEntry (h : HostAgent) (w : OpWord) (a : Args) :
    hostFetch (placeEntry h (.op w a)) = some (w, a) := by
  rw [hostFetch_of_entry (placeEntry_prog_pc h (.op w a))]
  rfl

theorem step_placeWord_host {s : State} {i : Instr} (hu : unmarked s) (hd : decode (encodeWord i) {} = .ok i)
    (hi : isHostOp i = true) :
    step (placeWord s (encodeWord i)) = exec i { s with host := placeEntry s.host (.op (encodeWord i) {}) } := by
  rw [placeWord_host hi]
  exact stepRunsTheHostOperation _ s.sch.picks _ {} i hu rfl (hostFetch_placeEntry s.host _ {}) hd hi

/-! ### A placed step label -/

/-- The answer set for the next shift is the one that ACKS allows, or ACKS gives none (R194). -/
theorem answerAllowed_busPlaced (a : Bool) (s : State) : answerAllowed a (busPlaced (.busShift a) s) = true := by
  unfold answerAllowed nextAnswer
  by_cases hk : s.dev.shifts < s.launch.acks.length <;> simp [busPlaced, labelLaunch, hk]

/-- A step of another agent that is disabled although the bus goes on (R195) and the answer is the device's (R194) has a
guard that fails, and holds. -/
theorem exec_of_disabled {i : Instr} {s : State} (hi : isHostOp i = false)
    (hbus : opClass i = .bus → s.dev.wedged = false) (hans : ∀ a, i = .busShift a → answerAllowed a s = true)
    (hdis : agentEnabled i s = false) : exec i s = .next s := by
  cases i with
  | evSb => exact takeArm_disabled evSbBody s hdis
  | evAddr => exact takeArm_disabled evAddrBody s hdis
  | evTxe => exact takeArm_disabled evTxeBody s hdis
  | evBtf => exact takeArm_disabled evBtfBody s hdis
  | erAf => exact takeArm_disabled erAfBody s hdis
  | diTc => exact takeArm_disabled diTcBody s hdis
  | dmaXfer => exact takeStep_disabled dmaXferBody s hdis
  | busStart => exact takeStep_disabled busStartBody s (by simpa [agentEnabled, hbus rfl] using hdis)
  | busLoad => exact takeStep_disabled busLoadBody s (by simpa [agentEnabled, hbus rfl] using hdis)
  | busShift a => exact takeStep_disabled (busShiftBody a) s (by simpa [agentEnabled, hbus rfl, hans a rfl] using hdis)
  | busStop => exact takeStep_disabled busStopBody s (by simpa [agentEnabled, hbus rfl] using hdis)
  | _ => cases hi

/-- A label next in the schedule is that operation's step, enabled or not. -/
theorem step_of_label {s : State} {i : Instr} {rest : List Pick} (hu : unmarked s)
    (hp : s.sch.picks = .label (encodeWord i) :: rest) (hd : decode (encodeWord i) {} = .ok i)
    (hi : isHostOp i = false) (hbus : opClass i = .bus → s.dev.wedged = false)
    (hans : ∀ a, i = .busShift a → answerAllowed a s = true) : step s = exec i (dropPick s) := by
  obtain ⟨hrun, hhold⟩ := stepRunsTheLabelledAgent s rest (encodeWord i) i hu hp hd
  cases he : agentEnabled i (dropPick s) with
  | true => exact hrun he
  | false => exact (hhold he).trans (exec_of_disabled (s := dropPick s) hi hbus hans he).symm

theorem step_placeWord_label {s : State} {i : Instr} (hu : unmarked s) (hd : decode (encodeWord i) {} = .ok i)
    (hi : isHostOp i = false) (hbus : opClass i ≠ .bus) : step (placeWord s (encodeWord i)) = exec i s := by
  rw [placeWord_label hi hbus]
  exact step_of_label hu rfl hd hi (absurd · hbus) fun a ha => absurd (ha ▸ rfl) hbus

theorem step_placeWord_bus {s : State} {i : Instr} (hu : unmarked s) (hd : decode (encodeWord i) {} = .ok i)
    (hbus : opClass i = .bus) : step (placeWord s (encodeWord i)) = exec i (busPlaced i s) := by
  have hi : isHostOp i = false := by simp [isHostOp, hbus]
  rw [placeWord_bus hbus]
  exact step_of_label hu rfl hd hi (fun _ => rfl) fun a ha => ha ▸ answerAllowed_busPlaced a s

/-- Settles O9: the word is placed by the class of its operation, at `hpc` for the host's and in the schedule for a
label, a bus label with the bus going on and its own answer next. -/
theorem placedWordIsTheNextOperation : Obligations.PlacedWordIsTheNextOperation := by
  unfold Obligations.PlacedWordIsTheNextOperation
  intro s w i hu hw
  obtain ⟨hlt, hd⟩ := decodeTableWord_some hw
  have hplace : s.withFetchWord 16 w = placeWord s (BitVec.ofNat 16 w) := by simp [State.withFetchWord, hlt]
  rw [hplace, ← decodedWordIsTheWordOfTheOperation _ _ _ hd]
  rw [← decodedWordIsTheWordOfTheOperation _ _ _ hd] at hd
  by_cases hi : isHostOp i = true
  case pos =>
    have hshift : ∀ a, i ≠ .busShift a := by rintro a rfl; cases hi
    have hbus : opClass i ≠ .bus := by obtain hc | hc := (isHostOp_iff i).mp hi <;> simp [hc]
    exact ⟨{ s with host := placeEntry s.host (.op (encodeWord i) {}) }, step_placeWord_host hu hd hi,
      rfl, rfl, rfl, rfl, rfl, rfl, rfl, rfl, rfl, rfl, hu, rfl, fun _ => rfl, (absurd · hbus), (by simp [hi] at ·),
      fun _ => ⟨rfl, placeEntry_prog_pc _ _, fun _ => placeEntry_prog_other _⟩, fun a ha => absurd ha (hshift a),
      fun _ => rfl⟩
  case neg =>
    have hlabel : isHostOp i = false := by simpa using hi
    by_cases hbus : opClass i = .bus
    case pos =>
      exact ⟨busPlaced i s, step_placeWord_bus hu hd hbus, rfl, rfl, rfl, rfl, rfl, rfl, rfl, rfl, rfl, rfl, hu, rfl,
        (absurd hbus ·), fun _ => rfl, fun _ => rfl, (absurd · hi), fun a ha => ha ▸ rfl, labelLaunch_of_ne⟩
    case neg =>
      exact ⟨s, step_placeWord_label hu hd hlabel hbus, rfl, rfl, rfl, rfl, rfl, rfl, rfl, rfl, rfl, rfl, hu, rfl,
        fun _ => rfl, (absurd · hbus), fun _ => rfl, (absurd · hi), fun a ha => absurd (ha ▸ rfl) hbus, fun _ => rfl⟩

end Sys2Proof.Machine
end

section
/-! The transport's arms one by one (42_transport_fsm.md R160 to R165): what each answers where its guard holds. -/

namespace Sys2Proof.Machine

/-! ### The data register (R55) -/

theorem drWrite_of_full (v : Byte) {p : Peripheral} (hdr : p.dr ≠ none) : drWrite v p = .error .drOverwrite := by
  simp [drWrite, Option.isSome_iff_ne_none, hdr]

/-- With SB set, a write of the data register clears it in the address phase only (R55). -/
theorem flagsOfDrWrite_of_sb {p : Peripheral} (hsb : p.sb = true) :
    flagsOfDrWrite p = { p with btf := false, sb := if p.phase = .bAddr then false else true } := by
  rw [flagsOfDrWrite, hsb]

/-- Outside the address phase a write of the data register leaves SB alone (R55). -/
theorem flagsOfDrWrite_of_phase {p : Peripheral} (hphase : p.phase ≠ .bAddr) :
    flagsOfDrWrite p = { p with btf := false } := by
  simp only [flagsOfDrWrite, if_neg hphase]

/-! ### EV_SB (R160) -/

theorem evSbBody_of_decoded {s : State} {len : Byte} {r : Ring} {m : Memory} (hcfg : s.ring.cfg = true)
    (hdec : decodeFrame s.launch 256 s.ring s.fr.scratch = .ok ⟨.ok len, r, m⟩) :
    evSbBody s = evSbOk len { s with ring := r, fr := { s.fr with scratch := m } } := by
  simp only [evSbBody, if_pos hcfg, hdec]

theorem evSbBody_of_failed {s : State} {e : ErrCode} {r : Ring} {m : Memory} (hcfg : s.ring.cfg = true)
    (hdec : decodeFrame s.launch 256 s.ring s.fr.scratch = .ok ⟨.error e, r, m⟩) :
    evSbBody s = .ok (evSbErr e { s with ring := r, fr := { s.fr with scratch := m } }) := by
  simp only [evSbBody, if_pos hcfg, hdec]

theorem evSbBody_of_fault {s : State} {f : Fault} (hcfg : s.ring.cfg = true)
    (hdec : decodeFrame s.launch 256 s.ring s.fr.scratch = .error f) : evSbBody s = .error f := by
  simp only [evSbBody, if_pos hcfg, hdec]

theorem evSbOk_of_empty {s : State} {tag : Byte} (len : Byte) (htag : memRead s.fr.scratch 0 = some tag)
    (hdr : s.per.dr = none) :
    evSbOk len s = .ok { s with
      fr := { s.fr with curTag := tag, curLen := len, valid := true }
      per := flagsOfDrWrite { s.per with dr := some (addrByte s.launch) }
      tr := { s.tr with addrCleared := false, st := .addressSent } } := by
  simp only [evSbOk, scrRead_ok.mpr htag, drWrite_ok.mpr ⟨hdr, rfl⟩]

theorem evSbOk_of_full {s : State} (len : Byte) (htag : memRead s.fr.scratch 0 ≠ none) (hdr : s.per.dr ≠ none) :
    evSbOk len s = .error .drOverwrite := by
  obtain ⟨tag, htag⟩ := Option.ne_none_iff_exists'.mp htag
  simp only [evSbOk, scrRead_ok.mpr htag, drWrite_of_full _ hdr]

/-- Settles O35: by what the decode answers, and after a decoded frame by whether the data register is empty. -/
theorem evSbDecodesTheNextFrame : Obligations.EvSbDecodesTheNextFrame := by
  unfold Obligations.EvSbDecodesTheNextFrame
  intro s r m hst hsb hcfg
  have hguard : evSbGuard s = true := (evSbGuard_iff s).mpr ⟨hst, hsb⟩
  refine ⟨fun tag len hdec htag hdr => ?decoded, fun e hdec => ?failed, fun len hdec htag hdr => ?full,
    fun f hdec => ?fault⟩
  case decoded =>
    have hbody := (evSbBody_of_decoded (s := enterHandler s) hcfg hdec).trans (evSbOk_of_empty len htag hdr)
    rw [flagsOfDrWrite_of_sb (by exact hsb)] at hbody
    exact takeArm_of_guard hguard hbody
  case failed => exact takeArm_of_guard hguard (evSbBody_of_failed (s := enterHandler s) hcfg hdec)
  case full =>
    have hbody := (evSbBody_of_decoded (s := enterHandler s) hcfg hdec).trans (evSbOk_of_full len htag hdr)
    exact takeArm_of_error hguard hbody
  case fault => exact takeArm_of_error hguard (evSbBody_of_fault (s := enterHandler s) hcfg hdec)

/-! ### The other arms (R161 to R165) -/

/-- Settles O36: under the arm's guard its body is the whole action. -/
theorem evAddrReleasesThePeripheral : Obligations.EvAddrReleasesThePeripheral := by
  unfold Obligations.EvAddrReleasesThePeripheral
  exact fun s hst hcleared haddr =>
    takeArm_of_guard (body := evAddrBody) ((evAddrGuard_iff s).mpr ⟨hst, hcleared, haddr⟩) rfl

theorem evTxeBody_of_ind {s : State} {ind : Byte} (hind : wireInd s.launch s.fr.curTag = .ok ind)
    (hdr : s.per.dr = none) :
    evTxeBody s = .ok { s with
      per := flagsOfDrWrite { s.per with dr := some ind }
      tr := { s.tr with st := .typeByteSent } } := by
  simp only [evTxeBody, hind, drWrite_ok.mpr ⟨hdr, rfl⟩]

theorem evTxeBody_of_error {s : State} {f : Fault} (hind : wireInd s.launch s.fr.curTag = .error f) :
    evTxeBody s = .error f := by
  simp only [evTxeBody, hind]

/-- Settles O37: by the wire indicator of the tag. TXE gives an empty data register, in the data phase. -/
theorem evTxeSendsTheIndicator : Obligations.EvTxeSendsTheIndicator := by
  unfold Obligations.EvTxeSendsTheIndicator
  intro s hst hcleared hphase hdr
  have hguard : evTxeGuard s = true := (evTxeGuard_iff s).mpr ⟨hst, hcleared, hphase, hdr⟩
  refine ⟨fun ind hind => ?sent, fun henc h0 h1 => ?noIndicator⟩
  case sent =>
    have hbody := evTxeBody_of_ind (s := enterHandler s) hind hdr
    rw [flagsOfDrWrite_of_phase (by simp [hphase])] at hbody
    exact takeArm_of_guard hguard hbody
  case noIndicator =>
    obtain ⟨-, -, hsmall⟩ := tagsAndWireIndicators s.launch s.fr.curTag
    obtain ⟨-, -, -, hind⟩ := hsmall henc
    exact takeArm_of_error hguard (evTxeBody_of_error (s := enterHandler s) (hind h0 h1))

theorem tcAtArming_eq (z : ZeroLenTc) (len : Byte) : tcAtArming z len = decide (len = 0 ∧ z = .immediate) :=
  (Bool.decide_and _ _).symm

/-- Settles O38: the body programs the channel, its transfer-complete flag as one condition. -/
theorem evBtfArmsTheChannel : Obligations.EvBtfArmsTheChannel := by
  unfold Obligations.EvBtfArmsTheChannel
  intro s hst hbtf
  rw [← tcAtArming_eq]
  exact takeArm_of_guard (body := evBtfBody) ((evBtfGuard_iff s).mpr ⟨hst, hbtf⟩) rfl

/-- Settles O39: AF alone is the guard, and the body is the whole action. -/
theorem erAfAbortsTheFrame : Obligations.ErAfAbortsTheFrame := by
  unfold Obligations.ErAfAbortsTheFrame
  exact fun s haf => takeArm_of_guard (body := erAfBody) haf rfl

/-- Settles O40: the guard names the channel's two flags and no state, and the body is the whole action. -/
theorem diTcCompletesTheFrame : Obligations.DiTcCompletesTheFrame := by
  unfold Obligations.DiTcCompletesTheFrame
  exact fun s htc htcie => takeArm_of_guard (body := diTcBody) ((diTcGuard_iff s).mpr ⟨htc, htcie⟩) rfl

end Sys2Proof.Machine
end

section
/-! The burst engine's step (43_burst_engine.md R180): what it answers where its guard holds. -/

namespace Sys2Proof.Machine

theorem takeStep_of_guard {g : Bool} {body : State → Except Fault State} {s u : State} (hg : g = true)
    (hb : body s = .ok u) : takeStep g body s = .next u := by
  simp [takeStep, outcomeOf, hg, hb]

theorem takeStep_of_error {g : Bool} {body : State → Except Fault State} {s : State} {f : Fault} (hg : g = true)
    (hb : body s = .error f) : takeStep g body s = .fault f := by
  simp [takeStep, outcomeOf, hg, hb]

theorem scrRead_of_unwritten {m : Memory} {i : Nat} (h : memRead m i = none) :
    scrRead m i = .error .unwrittenRead := by
  simp only [scrRead, h]

/-- While bytes remain, the byte that ends the transfer is the one sent at count 1. -/
theorem channelAfterXfer_of_pos {c : Channel} (hcnt : 0 < c.cnt) :
    channelAfterXfer c = { c with mar := c.mar + 1, cnt := c.cnt - 1, tc := c.tc || decide (c.cnt = 1) } := by
  have hlast : c.cnt - 1 = 0 ↔ c.cnt = 1 := by omega
  simp only [channelAfterXfer, tcAfter, hlast]

theorem dmaXferBody_of_written {s : State} {v : Byte} (hread : memRead s.fr.scratch s.ch.mar = some v)
    (hdr : s.per.dr = none) :
    dmaXferBody s = .ok { s with
      per := flagsOfDrWrite { s.per with dr := some v }
      ch := channelAfterXfer s.ch } := by
  simp only [dmaXferBody, scrRead_ok.mpr hread, drWrite_ok.mpr ⟨hdr, rfl⟩]

theorem dmaXferBody_of_unwritten {s : State} (hread : memRead s.fr.scratch s.ch.mar = none) :
    dmaXferBody s = .error .unwrittenRead := by
  simp only [dmaXferBody, scrRead_of_unwritten hread]

/-- Settles O43: by whether the scratch cell at `ch_mar` is written. The guard's TXE gives an empty data register, in
the data phase, where its write clears BTF and leaves SB alone. -/
theorem dmaXferMovesOneByte : Obligations.DmaXferMovesOneByte := by
  unfold Obligations.DmaXferMovesOneByte
  intro s v hen hreq hphase hdr hcnt
  have hguard : dmaXferGuard s = true := (dmaXferGuard_iff s).mpr ⟨hen, hreq, hphase, hdr, hcnt⟩
  refine ⟨fun hread => ?written, fun hread => ?unwritten⟩
  case written =>
    have hbody := dmaXferBody_of_written hread hdr
    rw [flagsOfDrWrite_of_phase (by simp [hphase]), channelAfterXfer_of_pos hcnt] at hbody
    exact takeStep_of_guard hguard hbody
  case unwritten => exact takeStep_of_error hguard (dmaXferBody_of_unwritten hread)

end Sys2Proof.Machine
end

section
/-! The bus agent's steps (44_bus_agent.md R190 to R193): what each answers where its guard holds. -/

namespace Sys2Proof.Machine

theorem exec_busStart {s : State} (hstart : s.per.startReq = true) (hstop : s.per.stopReq = false)
    (hphase : s.per.phase = .bIdle) :
    exec .busStart s = .next { s with
      wire := s.wire ++ [.start]
      per := { s.per with sb := true, phase := .bAddr, startReq := false } } :=
  takeStep_of_guard (body := busStartBody) ((busStartGuard_iff s).mpr ⟨hstart, hstop, hphase⟩) rfl

theorem busLoadBody_of_some {s : State} {b : Byte} (hdr : s.per.dr = some b) :
    busLoadBody s = .ok { s with per := { s.per with sh := some b, dr := none } } := by
  simp only [busLoadBody, hdr]

theorem exec_busLoad {s : State} {b : Byte} (hsh : s.per.sh = none) (hdr : s.per.dr = some b)
    (hphase : s.per.phase = .bAddr ∨ s.per.phase = .bData) :
    exec .busLoad s = .next { s with per := { s.per with sh := some b, dr := none } } :=
  takeStep_of_guard ((busLoadGuard_iff s).mpr ⟨hsh, by simp [hdr], hphase⟩) (busLoadBody_of_some hdr)

/-- Settles O44: each step under its guard is its whole action. -/
theorem busStartAndBusLoad : Obligations.BusStartAndBusLoad := by
  unfold Obligations.BusStartAndBusLoad
  exact fun s => ⟨exec_busStart, fun b => exec_busLoad⟩

/-! ### BUS_SHIFT (R192) -/

theorem busShiftBody_of_some {s : State} {b : Byte} (hsh : s.per.sh = some b) (a : Bool) :
    busShiftBody a s = .ok { s with
      wire := s.wire ++ [.byte b a]
      per := flagsOfAnswer a { s.per with sh := none }
      dev := { s.dev with shifts := s.dev.shifts + 1 } } := by
  simp only [busShiftBody, hsh, wireAppend]

/-- A full shift register is shifted out whatever the phase; the phase and the answer only decide the flags. -/
theorem exec_busShift_of_flags {a : Bool} {s : State} {b : Byte} {p : Peripheral} (hsh : s.per.sh = some b)
    (hflags : flagsOfAnswer a { s.per with sh := none } = p) :
    exec (.busShift a) s = .next { s with
      wire := s.wire ++ [.byte b a]
      per := p
      dev := { s.dev with shifts := s.dev.shifts + 1 } } := by
  rw [← hflags]
  exact takeStep_of_guard ((busShiftGuard_iff s).mpr (by simp [hsh])) (busShiftBody_of_some hsh a)

theorem flagsOfAnswer_ack_of_bAddr {p : Peripheral} (hphase : p.phase = .bAddr) :
    flagsOfAnswer true p = { p with addr := true, phase := .bAddrAck } := by
  simp only [flagsOfAnswer, flagsOfAck, hphase]

theorem flagsOfAnswer_ack_of_bData {p : Peripheral} (hphase : p.phase = .bData) :
    flagsOfAnswer true p = { p with btf := if p.dr = none then true else p.btf } := by
  cases hdr : p.dr <;> simp [flagsOfAnswer, flagsOfAck, hphase, hdr]

theorem flagsOfAnswer_nack {p : Peripheral} (hphase : p.phase = .bAddr ∨ p.phase = .bData) :
    flagsOfAnswer false p = { p with af := true, phase := .bHalted } := by
  obtain hphase | hphase := hphase <;> simp only [flagsOfAnswer, flagsOfNack, hphase]

/-- Settles O45: the byte goes out whatever the answer, and the flags follow the phase and the answer. -/
theorem busShiftSendsTheByte : Obligations.BusShiftSendsTheByte := by
  unfold Obligations.BusShiftSendsTheByte
  refine fun s b hsh => ⟨fun hphase => ?address, fun hphase => ?data, fun hphase => ?refused⟩
  case address => exact exec_busShift_of_flags hsh (flagsOfAnswer_ack_of_bAddr hphase)
  case data => exact exec_busShift_of_flags hsh (flagsOfAnswer_ack_of_bData hphase)
  case refused => exact exec_busShift_of_flags hsh (flagsOfAnswer_nack hphase)

/-! ### BUS_STOP (R193) -/

theorem wireAfterStop_eq (s : State) :
    wireAfterStop s = if s.per.phase = .bIdle then s.wire else s.wire ++ [.stop] := by
  cases hphase : s.per.phase <;> simp [wireAfterStop, hphase]

/-- Settles O46: under the guard the body is the whole action, its wire by whether the bus is idle. -/
theorem busStopEndsTheTransaction : Obligations.BusStopEndsTheTransaction := by
  unfold Obligations.BusStopEndsTheTransaction
  intro s hstop hsh
  rw [← wireAfterStop_eq]
  exact takeStep_of_guard (body := busStopBody) ((busStopGuard_iff s).mpr ⟨hstop, hsh⟩) rfl

end Sys2Proof.Machine
end

section
/-! One whole transaction, every byte acknowledged (42_transport_fsm.md R169, 44_bus_agent.md R196): the address, the
wire indicator, the payload and the STOP, each stretch of the schedule with its own lemma. -/

namespace Sys2Proof.Machine

/-! ### Runs of several steps -/

theorem execAll_cons {i : Instr} {is : List Instr} {s t u : State} (hi : exec i s = .next t)
    (his : execAll is t = .next u) : execAll (i :: is) s = .next u := by
  simp only [execAll, hi, his]

theorem execAll_append {is js : List Instr} {s t u : State} (his : execAll is s = .next t)
    (hjs : execAll js t = .next u) : execAll (is ++ js) s = .next u := by
  induction is generalizing s with
  | nil => cases his; exact hjs
  | cons i is ih =>
    simp only [execAll] at his
    split at his
    · exact execAll_cons ‹_› (ih his)
    · cases his
    · cases his

/-! ### The frame that EV_SB takes -/

/-- A decode of a whole frame answers its length, with the tag and the payload in the scratch buffer (R122). -/
theorem RingConfigured.decodeFrame_whole {r : Ring} (hr : RingConfigured r) {l : Launch} {cap : Word}
    {tag len : Byte} {payload : List Byte} {rest : List (Option Byte)} (hpayload : payload.length = len.toNat)
    (hqueue : queuedBytes r = (tag :: len :: payload).map some ++ rest) (hgate : gateAccepts l tag)
    (hcap : len.toNat + 1 ≤ cap.toNat) (m : Memory) :
    decodeFrame l cap r m = .ok ⟨.ok len, ringTake (len.toNat + 2) r, scrWriteAll 0 (tag :: payload) m⟩ := by
  obtain ⟨htag, hlength⟩ := hr.memRead_header hqueue
  obtain ⟨ys, hbytes⟩ := hr.exists_queuedBytes_append hqueue
  have hbody := hr.decodeBody_whole (bs := payload ++ ys) hbytes (by simp [hpayload]) m
  rw [List.take_left' hpayload] at hbody
  exact (decodeFrame_of_capacity (gateOpen_of_accepts hgate htag) hlength hcap).trans hbody

/-- Taking the first bytes of the queue leaves the others (R113). -/
theorem RingConfigured.queuedBytes_ringTake {r : Ring} (hr : RingConfigured r) {bs : List Byte}
    {rest : List (Option Byte)} (hqueue : queuedBytes r = bs.map some ++ rest) :
    queuedBytes (ringTake bs.length r) = rest := by
  induction bs generalizing r with
  | nil => rw [List.length_nil, hr.ringTake_zero, hqueue]; rfl
  | cons b bs ih =>
    obtain ⟨-, hr', hqueue'⟩ := hr.ringDeq_of_queuedBytes hqueue
    rw [List.length_cons, ← hr.ringTake_advanceTail, ih hr' hqueue']

/-! ### The arms, the transfer and the host's control operations where they go on -/

/-- EV_SB in the address phase: the write of the address byte clears SB (R160, R55). -/
theorem exec_evSb_of_decoded {s : State} {tag len : Byte} {r : Ring} {m : Memory}
    (hst : s.tr.st = .idle ∨ s.tr.st = .done) (hsb : s.per.sb = true) (hphase : s.per.phase = .bAddr)
    (hdr : s.per.dr = none) (hcfg : s.ring.cfg = true)
    (hdec : decodeFrame s.launch 256 s.ring s.fr.scratch = .ok ⟨.ok len, r, m⟩) (htag : memRead m 0 = some tag) :
    exec .evSb s = .next { s with
      ring := r
      fr := { valid := true, curTag := tag, curLen := len, scratch := m }
      per := { s.per with dr := some (addrByte s.launch), btf := false, sb := false }
      tr := { s.tr with addrCleared := false, st := .addressSent }
      cpu := { s.cpu with ctx := .foreground } } := by
  obtain ⟨hdecoded, -⟩ := evSbDecodesTheNextFrame s r m hst hsb hcfg
  rw [hdecoded tag len hdec htag hdr, if_pos hphase]

theorem exec_evTxe_of_ind {s : State} {ind : Byte} (hst : s.tr.st = .addressSent) (hcleared : s.tr.addrCleared = true)
    (hphase : s.per.phase = .bData) (hdr : s.per.dr = none) (hind : wireInd s.launch s.fr.curTag = .ok ind) :
    exec .evTxe s = .next { s with
      per := { s.per with dr := some ind, btf := false }
      tr := { s.tr with st := .typeByteSent }
      cpu := { s.cpu with ctx := .foreground } } := by
  obtain ⟨hsent, -⟩ := evTxeSendsTheIndicator s hst hcleared hphase hdr
  exact hsent ind hind

theorem exec_dmaXfer_of_written {s : State} {v : Byte} (hen : s.ch.en = true) (hreq : s.per.dmaReqEn = true)
    (hphase : s.per.phase = .bData) (hdr : s.per.dr = none) (hcnt : 0 < s.ch.cnt)
    (hread : memRead s.fr.scratch s.ch.mar = some v) :
    exec .dmaXfer s = .next { s with
      per := { s.per with dr := some v, btf := false }
      ch := { s.ch with mar := s.ch.mar + 1, cnt := s.ch.cnt - 1, tc := s.ch.tc || decide (s.ch.cnt = 1) } } := by
  obtain ⟨hmoved, -⟩ := dmaXferMovesOneByte s v hen hreq hphase hdr hcnt
  exact hmoved hread

theorem exec_btWait_of_complete {s : State} (hdone : s.tr.complete = true) :
    exec .btWait s = .next { s with host := hostFinish s.host } := by
  obtain ⟨hwaited, -⟩ := btWaitAndBtSettleHold s
  exact hwaited hdone

theorem exec_btSettle_of_empty {s : State} (hempty : dataPathEmpty s.per) :
    exec .btSettle s = .next { s with host := hostFinish s.host } := by
  obtain ⟨-, -, -, hsettled⟩ := btWaitAndBtSettleHold s
  exact hsettled (.inr hempty)

theorem exec_btStop_of_complete {s : State} (hdone : s.tr.complete = true) (hempty : dataPathEmpty s.per) :
    exec .btStop s = .next { s with per := { s.per with stopReq := true }, host := hostFinish s.host } := by
  obtain ⟨-, -, hrequest⟩ := btStopRequestsTheStop s
  exact hrequest hdone hempty.1 hempty.2

/-! ### One byte, the address and the wire indicator -/

/-- A byte in the data register goes out in the data phase, and with nothing behind it BTF is set. -/
theorem execAll_sendByte {s : State} {b : Byte} (hphase : s.per.phase = .bData) (hsh : s.per.sh = none)
    (hdr : s.per.dr = some b) :
    execAll [.busLoad, .busShift true] s = .next { s with
      wire := s.wire ++ [.byte b true]
      per := { s.per with sh := none, dr := none, btf := true }
      dev := { s.dev with shifts := s.dev.shifts + 1 } } :=
  execAll_cons (exec_busLoad hsh hdr (.inr hphase)) <|
    execAll_cons (exec_busShift_of_flags rfl (flagsOfAnswer_ack_of_bData hphase)) rfl

/-- From the requested START up to the release by EV_ADDR: a START and the address byte (R190, R160, R161). -/
theorem execAll_address {s : State} {tag len : Byte} {r : Ring} {m : Memory}
    (hst : s.tr.st = .idle ∨ s.tr.st = .done) (hstart : s.per.startReq = true) (hstop : s.per.stopReq = false)
    (hphase : s.per.phase = .bIdle) (hempty : dataPathEmpty s.per) (hcfg : s.ring.cfg = true)
    (hdec : decodeFrame s.launch 256 s.ring s.fr.scratch = .ok ⟨.ok len, r, m⟩) (htag : memRead m 0 = some tag) :
    execAll [.busStart, .evSb, .busLoad, .busShift true, .evAddr] s = .next { s with
      wire := s.wire ++ [.start] ++ [.byte (addrByte s.launch) true]
      ring := r
      fr := { valid := true, curTag := tag, curLen := len, scratch := m }
      per := { s.per with sb := false, addr := false, btf := false, startReq := false, phase := .bData,
                          dr := none, sh := none }
      tr := { s.tr with addrCleared := true, st := .addressSent }
      dev := { s.dev with shifts := s.dev.shifts + 1 }
      cpu := { s.cpu with ctx := .foreground } } := by
  obtain ⟨hdr, hsh⟩ := hempty
  refine execAll_cons (exec_busStart hstart hstop hphase) ?_
  refine execAll_cons (exec_evSb_of_decoded hst rfl rfl hdr hcfg hdec htag) ?_
  refine execAll_cons (exec_busLoad hsh rfl (.inl rfl)) ?_
  refine execAll_cons (exec_busShift_of_flags rfl (flagsOfAnswer_ack_of_bAddr rfl)) ?_
  exact execAll_cons (evAddrReleasesThePeripheral _ rfl rfl rfl) rfl

/-- The wire indicator goes out, and its BTF arms the channel for the payload (R162, R163). -/
theorem execAll_indicator {s : State} {ind : Byte} (hst : s.tr.st = .addressSent)
    (hcleared : s.tr.addrCleared = true) (hphase : s.per.phase = .bData) (hempty : dataPathEmpty s.per)
    (hind : wireInd s.launch s.fr.curTag = .ok ind) :
    execAll [.evTxe, .busLoad, .busShift true, .evBtf] s = .next { s with
      wire := s.wire ++ [.byte ind true]
      per := { s.per with sh := none, dr := none, btf := true, dmaReqEn := true }
      ch := { en := true, tcie := true, mar := 1, cnt := s.fr.curLen.toNat,
              tc := decide (s.fr.curLen = 0 ∧ s.launch.zeroLenTc = .immediate) }
      tr := { s.tr with st := .streaming }
      dev := { s.dev with shifts := s.dev.shifts + 1 }
      cpu := { s.cpu with ctx := .foreground } } := by
  obtain ⟨hdr, hsh⟩ := hempty
  refine execAll_cons (exec_evTxe_of_ind hst hcleared hphase hdr hind) ?_
  refine execAll_append (is := [.busLoad, .busShift true]) (execAll_sendByte hphase hsh rfl) ?_
  exact execAll_cons (evBtfArmsTheChannel _ rfl rfl) rfl

/-! ### The payload and the STOP -/

/-- The armed channel still has the bytes `bs` to move, every byte before them has been shifted, and the transfer is
complete when none is left. -/
structure Streaming (bs : List Byte) (s : State) : Prop where
  enabled   : s.ch.en = true
  interrupt : s.ch.tcie = true
  request   : s.per.dmaReqEn = true
  phase     : s.per.phase = .bData
  empty     : dataPathEmpty s.per
  count     : s.ch.cnt = bs.length
  cells     : ∀ i, i < bs.length → memRead s.fr.scratch (s.ch.mar + i) = bs[i]?
  finished  : bs = [] → s.ch.tc = true

/-- The channel moves the next payload byte and the bus sends it (R180). -/
theorem Streaming.sendByte {b : Byte} {bs : List Byte} {s : State} (h : Streaming (b :: bs) s) :
    ∃ t, execAll [.dmaXfer, .busLoad, .busShift true] s = .next t ∧ Streaming bs t ∧
      t.wire = s.wire ++ [.byte b true] ∧ t.ring = s.ring := by
  obtain ⟨hen, htcie, hreq, hphase, ⟨hdr, hsh⟩, hcnt, hcells, -⟩ := h
  rw [List.length_cons] at hcnt hcells
  have hread : memRead s.fr.scratch s.ch.mar = some b := hcells 0 (by omega)
  have hmoved := exec_dmaXfer_of_written hen hreq hphase hdr (by omega) hread
  refine ⟨_, execAll_cons hmoved (execAll_sendByte hphase hsh rfl),
    ⟨hen, htcie, hreq, hphase, ⟨rfl, rfl⟩, ?count, fun i hi => ?cells, ?finished⟩, rfl, rfl⟩
  case count => exact Nat.sub_eq_of_eq_add hcnt
  case cells =>
    have hcell := hcells (i + 1) (by omega)
    rw [List.getElem?_cons_succ, Nat.add_comm i 1, ← Nat.add_assoc] at hcell
    exact hcell
  case finished =>
    rintro rfl
    simp [hcnt]

/-- The whole payload goes out, byte by byte. -/
theorem Streaming.sendAll {bs : List Byte} {s : State} (h : Streaming bs s) :
    ∃ t, execAll (List.replicate bs.length [Instr.dmaXfer, .busLoad, .busShift true]).flatten s = .next t ∧
      Streaming [] t ∧ t.wire = s.wire ++ bs.map (fun b => WireEvent.byte b true) ∧ t.ring = s.ring := by
  induction bs generalizing s with
  | nil => exact ⟨s, rfl, h, (List.append_nil _).symm, rfl⟩
  | cons b bs ih =>
    obtain ⟨t, hbyte, ht, hwire, hring⟩ := h.sendByte
    obtain ⟨u, hrest, hu, hwire', hring'⟩ := ih ht
    refine ⟨u, execAll_append hbyte hrest, hu, ?_, hring'.trans hring⟩
    rw [hwire', hwire, List.append_assoc]
    rfl

/-- The completion and the host's wait and STOP end the transaction (R165, R143, R145, R146, R193). -/
theorem Streaming.stop {s : State} (h : Streaming [] s) :
    ∃ t, execAll [.diTc, .btWait, .btSettle, .btStop, .busStop] s = .next t ∧ t.wire = s.wire ++ [.stop] ∧
      t.tr.st = .done ∧ t.tr.complete = true ∧ t.per.phase = .bIdle ∧ t.ring = s.ring := by
  obtain ⟨-, htcie, -, hphase, hempty, -, -, hfinished⟩ := h
  have hwire : (if s.per.phase = .bIdle then s.wire else s.wire ++ [.stop]) = s.wire ++ [.stop] :=
    if_neg (by simp [hphase])
  exact ⟨_, execAll_cons (diTcCompletesTheFrame s (hfinished rfl) htcie) <|
    execAll_cons (exec_btWait_of_complete rfl) <|
    execAll_cons (exec_btSettle_of_empty hempty) <|
    execAll_cons (exec_btStop_of_complete rfl hempty) <|
    execAll_cons (busStopEndsTheTransaction _ rfl hempty.2) rfl, hwire, rfl, rfl, rfl, rfl⟩

/-! ### The whole transaction -/

/-- From the requested START to the armed channel: the frame that EV_SB decodes gives the indicator and the cells that
the channel is to read, and a payload without a byte is complete at once (R196). -/
theorem execAll_header {s : State} {tag len ind : Byte} {payload : List Byte} {rest : List (Option Byte)}
    (hst : s.tr.st = .idle ∨ s.tr.st = .done) (hstart : s.per.startReq = true) (hstop : s.per.stopReq = false)
    (hphase : s.per.phase = .bIdle) (hempty : dataPathEmpty s.per) (hcfg : s.ring.cfg = true)
    (hr : RingConfigured s.ring) (hpayload : payload.length = len.toNat)
    (hqueue : queuedBytes s.ring = (tag :: len :: payload).map some ++ rest) (hgate : gateAccepts s.launch tag)
    (hind : wireInd s.launch tag = .ok ind) (hlen : 0 < len.toNat ∨ s.launch.zeroLenTc = .immediate) :
    ∃ t, execAll [.busStart, .evSb, .busLoad, .busShift true, .evAddr, .evTxe, .busLoad, .busShift true, .evBtf] s =
        .next t ∧
      Streaming payload t ∧ queuedBytes t.ring = rest ∧
      t.wire = s.wire ++ [.start] ++ [.byte (addrByte s.launch) true] ++ [.byte ind true] := by
  have hdec := hr.decodeFrame_whole hpayload hqueue hgate (cap := 256) len.isLt s.fr.scratch
  have htag : memRead (scrWriteAll 0 (tag :: payload) s.fr.scratch) 0 = some tag :=
    memRead_scrWriteAll_of_getElem? (i := 0) (j := 0) rfl
  have haddress := execAll_address hst hstart hstop hphase hempty hcfg hdec htag
  refine ⟨_, execAll_append haddress (execAll_indicator rfl rfl rfl ⟨rfl, rfl⟩ hind),
    ⟨rfl, rfl, rfl, rfl, ⟨rfl, rfl⟩, hpayload.symm, fun i hi => ?cells, ?finished⟩, ?rest, rfl⟩
  case cells =>
    rw [List.getElem?_eq_getElem hi]
    exact memRead_scrWriteAll_of_getElem? (i := 1) (List.getElem?_eq_getElem hi)
  case finished =>
    rintro rfl
    have hzero : len.toNat = 0 := hpayload.symm
    have himmediate := hlen.resolve_left (by omega)
    simp [himmediate, BitVec.toNat_eq, hzero]
  case rest =>
    have htaken := hr.queuedBytes_ringTake hqueue
    rwa [List.length_cons, List.length_cons, hpayload] at htaken

/-- Settles O47: the header, the payload and the STOP follow one another. -/
theorem transactionCarriesTheFrame : Obligations.TransactionCarriesTheFrame := by
  unfold Obligations.TransactionCarriesTheFrame
  intro s tag len ind payload rest hst hstart hstop hphase hper hcfg hr hpayload hqueue hgate hind hlen
  obtain ⟨t, hheader, ht, hqueue', hwire⟩ :=
    execAll_header hst hstart hstop hphase (hper.idle hphase) hcfg hr hpayload hqueue hgate hind hlen
  obtain ⟨u, hstream, hu, hwire', hring⟩ := ht.sendAll
  obtain ⟨v, hend, hwire'', hdone, hcomplete, hidle, hring'⟩ := hu.stop
  rw [hpayload] at hstream
  refine ⟨v, execAll_append (execAll_append hheader hstream) hend, ?wire, hdone, hcomplete, hidle, ?queue⟩
  case wire => simp [hwire'', hwire', hwire]
  case queue => rw [hring', hring, hqueue']

end Sys2Proof.Machine
end

section
/-! The machine's choices (60_exceptions.md R227): which steps are enabled, that the choices are those and no other, and
how one of them is taken. -/

namespace Sys2Proof.Machine

/-! ### The enabled steps of the other agents -/

/-- An answer is allowed unless ACKS gives the other one (R194). -/
theorem answerAllowed_iff (a : Bool) (s : State) :
    answerAllowed a s = true ↔ ∀ x, s.launch.acks[s.dev.shifts]? = some x → a = x := by
  unfold answerAllowed nextAnswer
  cases s.launch.acks[s.dev.shifts]? with
  | none => simp
  | some x => simpa using eq_comm

theorem agentEnabled_iff (i : Instr) (s : State) : agentEnabled i s = true ↔ agentMayStep i s := by
  cases i with
  | evSb => exact evSbGuard_iff s
  | evAddr => exact evAddrGuard_iff s
  | evTxe => exact evTxeGuard_iff s
  | evBtf => exact evBtfGuard_iff s
  | erAf => exact Iff.rfl
  | diTc => exact diTcGuard_iff s
  | dmaXfer => exact dmaXferGuard_iff s
  | busStart => simp [agentEnabled, agentMayStep, busStartGuard_iff]
  | busLoad => simp [agentEnabled, agentMayStep, busLoadGuard_iff]
  | busShift a =>
    simp only [agentEnabled, Bool.and_eq_true, Bool.not_eq_true', answerAllowed_iff, busShiftGuard_iff]
    rw [and_right_comm, and_assoc, agentMayStep]
  | busStop => simp [agentEnabled, agentMayStep, busStopGuard_iff]
  | _ => exact iff_of_false Bool.false_ne_true id

theorem mem_busSteps_iff (i : Instr) : i ∈ busSteps ↔ opClass i = .bus := by
  cases i with
  | busShift a => cases a <;> decide
  | _ => simp [busSteps, opClass]

/-- The scheduler looks through every operation that can be another agent's enabled step. -/
theorem agentMayStep.mem_steps {i : Instr} {s : State} (h : agentMayStep i s) : i ∈ cpuSteps ∨ i ∈ busSteps := by
  rw [mem_busSteps_iff]
  cases i with
  | evSb | evAddr | evTxe | evBtf | erAf | diTc | dmaXfer => exact .inl (by decide)
  | busStart | busLoad | busShift | busStop => exact .inr rfl
  | _ => exact h.elim

theorem mem_enabledAmong {steps : List Instr} {s : State} {p : Pick} :
    p ∈ enabledAmong steps s ↔ ∃ i ∈ steps, agentMayStep i s ∧ .label (encodeWord i) = p := by
  simp [enabledAmong, agentEnabled_iff, and_assoc]

/-! ### The host's step -/

/-- Only BT_WAIT (R143) and BT_SETTLE (R145) hold. -/
theorem hostHolds_iff (i : Instr) (s : State) :
    hostHolds i s = true ↔
      (i = .btWait ∧ s.tr.complete = false) ∨
      (i = .btSettle ∧ s.launch.settleOk = true ∧ (s.per.dr ≠ none ∨ s.per.sh ≠ none)) := by
  cases i with
  | btWait => simp [hostHolds]
  | btSettle => simp [hostHolds, byteInFlight_iff, and_comm]
  | _ => simp [hostHolds]

theorem hostWaits_of_fetch {s : State} {w : OpWord} {a : Args} (hf : hostFetch s.host = some (w, a)) :
    hostWaits s ↔ ∃ i, decode w a = .ok i ∧ hostHolds i s = true := by
  constructor
  · rintro ⟨w', a', hf', h⟩
    cases hf.symm.trans hf'
    obtain ⟨hd, h⟩ | ⟨hd, h⟩ := h
    · exact ⟨_, hd, (hostHolds_iff _ s).mpr (.inl ⟨rfl, h⟩)⟩
    · exact ⟨_, hd, (hostHolds_iff _ s).mpr (.inr ⟨rfl, h⟩)⟩
  · rintro ⟨i, hd, hh⟩
    obtain ⟨rfl, h⟩ | ⟨rfl, h⟩ := (hostHolds_iff i s).mp hh
    · exact ⟨w, a, hf, .inl ⟨hd, h⟩⟩
    · exact ⟨w, a, hf, .inr ⟨hd, h⟩⟩

theorem hostEnabled_iff (s : State) : hostEnabled s = true ↔ hostFetch s.host ≠ none ∧ ¬ hostWaits s := by
  unfold hostEnabled
  cases hf : hostFetch s.host with
  | none => simp
  | some x =>
    obtain ⟨w, a⟩ := x
    rw [hostWaits_of_fetch hf]
    cases hd : decode w a <;> simp [hd]

/-! ### The choices -/

/-- The choice of the host is the host's step, and no other part of the choices holds it. -/
theorem host_mem_enabledPicks (s : State) :
    Pick.host ∈ enabledPicks s ↔ hostFetch s.host ≠ none ∧ ¬ hostWaits s := by
  rw [← hostEnabled_iff]
  simp [enabledPicks, mem_enabledAmong, wedgePicks]

theorem label_mem_enabledPicks (w : OpWord) (s : State) :
    Pick.label w ∈ enabledPicks s ↔ ∃ i, agentMayStep i s ∧ w = encodeWord i := by
  have hsplit : Pick.label w ∈ enabledPicks s ↔
      Pick.label w ∈ enabledAmong cpuSteps s ∨ Pick.label w ∈ enabledAmong busSteps s := by
    simp [enabledPicks, wedgePicks]
  rw [hsplit, mem_enabledAmong, mem_enabledAmong]
  constructor
  · rintro (⟨i, _, hi, hw⟩ | ⟨i, _, hi, hw⟩) <;> exact ⟨i, hi, (Pick.label.inj hw).symm⟩
  · rintro ⟨i, hi, rfl⟩
    exact hi.mem_steps.imp (fun hm => ⟨i, hm, hi, rfl⟩) (fun hm => ⟨i, hm, hi, rfl⟩)

theorem enabledAmong_busSteps_ne_nil (s : State) :
    enabledAmong busSteps s ≠ [] ↔ ∃ i, opClass i = .bus ∧ agentMayStep i s := by
  simp [enabledAmong, agentEnabled_iff, mem_busSteps_iff]

theorem wedge_mem_enabledPicks (s : State) :
    Pick.wedge ∈ enabledPicks s ↔ s.launch.busLive = false ∧ ∃ i, opClass i = .bus ∧ agentMayStep i s := by
  rw [← enabledAmong_busSteps_ne_nil]
  simp [enabledPicks, mem_enabledAmong, wedgePicks]

/-! ### Taking one of them -/

/-- A free number names the choice at its remainder. -/
theorem choiceAt_eq (ps : List Pick) (n : Nat) : choiceAt ps n = ps[n % ps.length]? := by
  match ps with
  | [] => rfl
  | [p] => simp [choiceAt, Nat.mod_one]
  | p :: q :: rest => rfl

theorem exists_choiceAt {ps : List Pick} (hps : ps ≠ []) (n : Nat) : ∃ p, choiceAt ps n = some p ∧ p ∈ ps := by
  have hlt : n % ps.length < ps.length := Nat.mod_lt _ (List.length_pos_iff.mpr hps)
  exact ⟨ps[n % ps.length], by rw [choiceAt_eq, List.getElem?_eq_getElem hlt], List.getElem_mem hlt⟩

theorem exists_choiceAt_of_mem {ps : List Pick} {p : Pick} (hp : p ∈ ps) : ∃ n, choiceAt ps n = some p := by
  obtain ⟨n, hn, rfl⟩ := List.getElem_of_mem hp
  exact ⟨n, by rw [choiceAt_eq, Nat.mod_eq_of_lt hn, List.getElem?_eq_getElem hn]⟩

theorem nextPick_of_free {s : State} (hp : s.sch.picks = []) :
    nextPick s = (choiceAt (enabledPicks s) (Config.freePick s.sch.drawn)).map
      (fun p => (p, { s with sch := { s.sch with drawn := s.sch.drawn + 1 } })) := by
  unfold nextPick
  rw [hp]
  cases choiceAt (enabledPicks s) (Config.freePick s.sch.drawn) <;> rfl

theorem step_of_unmarked {s : State} (hu : unmarked s) : step s = runNext s := by
  simp [step, hu.1, hu.2]

/-- A choice drawn freely runs as it does when the schedule names it. -/
theorem step_of_drawn {s t : State} {p : Pick} (hu : unmarked s) (hp : s.sch.picks = [])
    (hn : nextPick s = some (p, t)) : step s = step { t with sch := { t.sch with picks := [p] } } := by
  have hut : unmarked { t with sch := { t.sch with picks := [p] } } := by rw [nextPick_frame hn]; exact hu
  have hdrop : dropPick { t with sch := { t.sch with picks := [p] } } = t := by
    rw [nextPick_of_free hp] at hn
    obtain ⟨q, _, hq⟩ := Option.map_eq_some_iff.mp hn
    cases hq
    simp [dropPick, hp]
  calc step s = runPick p t := by rw [step_of_unmarked hu, runNext, hn]
    _ = runPick p (dropPick { t with sch := { t.sch with picks := [p] } }) := by rw [hdrop]
    _ = step { t with sch := { t.sch with picks := [p] } } := (step_of_scheduled hut rfl).symm

/-- Settles O11: the choices by the step each of them names, and the free number by its remainder. -/
theorem anyEnabledStepMayBeChosen : Obligations.AnyEnabledStepMayBeChosen := by
  unfold Obligations.AnyEnabledStepMayBeChosen
  refine ⟨agentEnabled_iff,
    fun s => ⟨host_mem_enabledPicks s, (label_mem_enabledPicks · s), wedge_mem_enabledPicks s⟩,
    fun s => nextPick_of_free, fun s => ⟨exists_choiceAt, fun p => exists_choiceAt_of_mem⟩,
    fun s t p => step_of_drawn, fun s rest hu hp => ?wedge, fun s hu hp hnone => ?ended⟩
  case wedge =>
    have hstep : step s = runWedge (dropPick s) := step_of_scheduled hu hp
    exact ⟨fun hlive => hstep.trans (if_pos hlive),
      fun hlive => hstep.trans (if_neg (Bool.eq_false_iff.mp hlive))⟩
  case ended =>
    have hno : nextPick s = none := by rw [nextPick_of_free hp, hnone]; rfl
    rw [step_of_unmarked hu, runNext, hno, hold]

end Sys2Proof.Machine
end

section
/-! Interrupts (60_exceptions.md R213, R214, R217 to R220): which vectors are pending, two of them taken in either
order, and what an interrupt leaves of the foreground. -/

namespace Sys2Proof.Machine

/-! ### Every step -/

/-- An operation of another agent than the host leaves the host alone. -/
theorem ExecEffect.host_eq {i : Instr} {s t : State} (h : ExecEffect i s t) (hi : isHostOp i = false) :
    t.host = s.host := by
  cases h with
  | host hhost | enqueue _ hhost => rw [hhost] at hi; cases hi
  | configure | reset | kick | requestStop => cases hi
  | _ => rfl

/-- Settles O49: a case analysis over the effects of `exec_effect`. -/
theorem noOtherAgentTouchesTheHost : Obligations.NoOtherAgentTouchesTheHost := by
  unfold Obligations.NoOtherAgentTouchesTheHost
  exact fun i s t hi h => (exec_effect h).host_eq hi

/-- An arm returns to the foreground, and the two operations that hand a value to an arm do so in interrupt context
only. -/
theorem ExecEffect.boundaryOk {i : Instr} {s t : State} (h : ExecEffect i s t) (hs : BoundaryOk s) : BoundaryOk t := by
  obtain ⟨hfore, hnone⟩ := hs
  cases h with
  | dequeue _ hctx | decode _ hctx => rw [hfore] at hctx; cases hctx
  | evSbOk | evSbErr | evAddr | evTxe | evBtf | erAf | diTc => exact ⟨rfl, hnone⟩
  | _ => exact ⟨hfore, hnone⟩

/-- Settles O59: the scheduler's record and the wedge are no part of the boundary, and every operation keeps it. -/
theorem everyStepEndsInTheForeground : Obligations.EveryStepEndsInTheForeground := by
  unfold Obligations.EveryStepEndsInTheForeground
  intro s t hs h
  exact step_keeps (fun _ _ ⟨hfore, hnone⟩ => ⟨hfore, hnone⟩) (fun _ _ ⟨hfore, hnone⟩ => ⟨hfore, hnone⟩)
    (fun _ _ _ hu hv => (exec_effect hv).boundaryOk hu) hs h

/-! ### The vectors -/

/-- The EV arm that a transport state admits (R160 to R163). -/
def eventArmAt (tr : Transport) : Option Instr :=
  match tr.st with
  | .idle => some .evSb
  | .addressSent => if tr.addrCleared then some .evTxe else some .evAddr
  | .typeByteSent => some .evBtf
  | .streaming => none
  | .done => some .evSb
  | .error => none

/-- An enabled EV arm is the one that the transport state admits. -/
theorem eventArmAt_of_mayStep {i : Instr} {s : State} (hi : i ∈ [Instr.evSb, .evAddr, .evTxe, .evBtf])
    (h : agentMayStep i s) : eventArmAt s.tr = some i := by
  simp only [List.mem_cons, List.not_mem_nil, or_false] at hi
  obtain rfl | rfl | rfl | rfl := hi
  · obtain ⟨hst | hst, _⟩ := h <;> simp [eventArmAt, hst]
  · obtain ⟨hst, hcleared, _⟩ := h
    simp [eventArmAt, hst, hcleared]
  · obtain ⟨hst, hcleared, _⟩ := h
    simp [eventArmAt, hst, hcleared]
  · obtain ⟨hst, _⟩ := h
    simp [eventArmAt, hst]

/-- Settles O41: two enabled EV arms are both the one that the transport state admits; each vector is pending by its
arms' guards. -/
theorem atMostOneEventArmIsEnabled : Obligations.AtMostOneEventArmIsEnabled := by
  unfold Obligations.AtMostOneEventArmIsEnabled
  refine ⟨fun s i j hi hj hei hej => ?unique, fun s => ⟨?event, Iff.rfl, Iff.rfl⟩⟩
  case unique =>
    have hat := eventArmAt_of_mayStep hi ((agentEnabled_iff i s).mp hei)
    exact Option.some.inj (hat.symm.trans (eventArmAt_of_mayStep hj ((agentEnabled_iff j s).mp hej)))
  case event => simp [evPending, agentEnabled, or_assoc]

/-- Settles O42: neither arm touches the other's flags, so in either order the second runs on what the first leaves. -/
theorem errorAndCompletionInEitherOrder : Obligations.ErrorAndCompletionInEitherOrder := by
  unfold Obligations.ErrorAndCompletionInEitherOrder
  refine fun s haf htc htcie => ⟨?errorFirst, ?completionFirst⟩
  case errorFirst =>
    exact ⟨_, execAll_cons (erAfAbortsTheFrame s haf) (execAll_cons (diTcCompletesTheFrame _ htc htcie) rfl),
      rfl, rfl, rfl⟩
  case completionFirst =>
    exact ⟨_, execAll_cons (diTcCompletesTheFrame s htc htcie) (execAll_cons (erAfAbortsTheFrame _ haf) rfl),
      rfl, rfl, rfl⟩

end Sys2Proof.Machine
end

section
/-! The state after reset (70_reset_and_hazards.md R240, R242, R244): no vector is pending and every invariant holds, for
whatever launch arguments a run is powered on with. -/

namespace Sys2Proof.Machine

/-! ### Interrupts (R244) -/

/-- In `Idle` an interrupt event needs SB: every other EV arm waits for a later transport state. -/
theorem evPending_eq_false_of_idle {s : State} (hst : s.tr.st = .idle) (hsb : s.per.sb = false) :
    evPending s = false := by
  simp [evPending, evSbGuard, evAddrGuard, evTxeGuard, evBtfGuard, hst, hsb]

/-- R244: before the first BT_KICK no vector is pending. -/
theorem noVectorPending_powerOn (l : Launch) :
    evPending (.powerOn l) = false ∧ erPending (.powerOn l) = false ∧ diPending (.powerOn l) = false :=
  ⟨evPending_eq_false_of_idle rfl rfl, rfl, rfl⟩

/-! ### The invariants -/

/-- A ring that is not yet configured needs only canonical storage inside its backing array. -/
theorem RingOk.powerOn {b : Backing} (hcanonical : Memory.wf b.cells = true)
    (hinside : memBelow b.len b.cells = true) : RingOk (.powerOn b) :=
  ⟨hcanonical, hinside, fun hcfg => absurd hcfg Bool.false_ne_true⟩

/-- At reset the scratch buffer is all unwritten, no frame is in flight and the channel has nothing to move. -/
theorem ScratchOk.powerOn (l : Launch) : ScratchOk (.powerOn l) where
  canonical := rfl
  inside    := rfl
  frame     := fun hst => by simp [State.powerOn, Transport.reset] at hst
  channel   := fun _ hj => absurd hj (Nat.not_lt_zero _)

/-- The base of the invariants' induction: they hold at power-on of every launch whose STORAGE0 is well formed. -/
theorem MachineOk.powerOn {l : Launch} (hcanonical : Memory.wf l.storage0.cells = true)
    (hinside : memBelow l.storage0.len l.storage0.cells = true) : MachineOk (.powerOn l) where
  ring       := .powerOn hcanonical hinside
  channel    := .reset
  scratch    := .powerOn l
  peripheral := .reset
  boundary   := ⟨rfl, rfl⟩

theorem MachineOk.reset : MachineOk .reset := .powerOn reset_memory_wf.1 rfl

/-- Settles O55: the values by State.reset's definition, SLAVE_ADDR as a 7-bit value, and the vectors and the invariants
as at every power-on. -/
theorem resetStateIsAsStated : Obligations.ResetStateIsAsStated := by
  unfold Obligations.ResetStateIsAsStated
  obtain ⟨hevent, herror, hcompletion⟩ := noVectorPending_powerOn Config.launch
  have haddr : State.reset.launch.slaveAddr < 128 := Config.slaveAddr.isLt
  exact ⟨rfl, rfl, rfl, rfl, rfl, rfl, rfl, rfl, rfl, rfl, ⟨rfl, rfl⟩, rfl, hevent, herror, hcompletion, haddr, .reset⟩

end Sys2Proof.Machine
end
